-- ==== Sys2Proof/Word.lean ====
section
/-!
DEFINITION. The word types of HUFFCORE (spec 00_scope R9, R12 to R14).
Widths are fixed: a byte has 8 bits, a command word 16, every count 64 (CW = 64, log entry 12).
-/

namespace Sys2Proof

/-- A byte value, 0 to 255: the alphabet of the coder (R8). -/
abbrev Byte := BitVec 8

/-- A command word (R70, CMDW = 16). -/
abbrev CmdWord := BitVec 16

/-- An unsigned count of CW = 64 bits (R9): FREQ[i], NSYM, REM. -/
abbrev Count := BitVec 64

/-- A bit string, written left to right in the order the bits travel (R14). -/
abbrev Bits := List Bool

end Sys2Proof
end

