-- ==== Sys2Proof/Syntax.lean ====
section
/-!
DEFINITION. The twelve commands of HUFFCORE, one constructor per row of the command table
(spec 30_encoding R72, opcode_table.json). A format-B command carries its argument byte (R71).
-/

namespace Sys2Proof

/-- A command. -/
inductive Instr where
  /-- Return to the reset state (R165). -/
  | clear
  /-- The host's source or sink failed (R166). -/
  | iofail
  /-- Start a compress job (R101). -/
  | estart
  /-- Count one input byte, pass 1 (R102). -/
  | count (arg : Byte)
  /-- End pass 1: build the tree and the codes, emit the tree artifact (R110). -/
  | build
  /-- Encode one input byte, pass 2 (R130). -/
  | enc (arg : Byte)
  /-- End pass 2: flush the pending bits (R131). -/
  | finish
  /-- Start a decompress job (R140). -/
  | dstart
  /-- Take one byte of the tree artifact (R141). -/
  | loadt (arg : Byte)
  /-- End the tree artifact (R144). -/
  | tend
  /-- Take one byte of the bits artifact (R155). -/
  | pushb (arg : Byte)
  /-- End the bits artifact (R156). -/
  | dend
deriving DecidableEq, Repr

end Sys2Proof
end

