-- ==== Sys2Proof/WellFormed.lean ====
section
/-!
DEFINITION. The command table as data (spec 30_encoding R72) and what is well formed by it:
a command word is legal when a row selects it (R72, R74), a command when its operand is one byte (R71).
-/

namespace Sys2Proof

/-- The two formats (R71): `z` has no argument, `b` a byte argument. -/
inductive Format where
  | z
  | b
deriving DecidableEq, Repr

/-- A row of the command table (R72). -/
structure Row where
  mnemonic : String
  format : Format
  matchBits : CmdWord
  mask : CmdWord
deriving DecidableEq, Repr

/-- The command table, in the table's order (R72). -/
def commandTable : List Row :=
  [ ⟨"CLEAR", .z, 0x0100, 0xFFFF⟩,
    ⟨"IOFAIL", .z, 0x0200, 0xFFFF⟩,
    ⟨"ESTART", .z, 0x1000, 0xFFFF⟩,
    ⟨"COUNT", .b, 0x1100, 0xFF00⟩,
    ⟨"BUILD", .z, 0x1200, 0xFFFF⟩,
    ⟨"ENC", .b, 0x1300, 0xFF00⟩,
    ⟨"FINISH", .z, 0x1400, 0xFFFF⟩,
    ⟨"DSTART", .z, 0x2000, 0xFFFF⟩,
    ⟨"LOADT", .b, 0x2100, 0xFF00⟩,
    ⟨"TEND", .z, 0x2200, 0xFFFF⟩,
    ⟨"PUSHB", .b, 0x2300, 0xFF00⟩,
    ⟨"DEND", .z, 0x2400, 0xFFFF⟩ ]

/-- `w` selects the row when `(w & mask) = match` (R72). -/
def Row.selects (r : Row) (w : CmdWord) : Bool := (w &&& r.mask) == r.matchBits

/-- A word is legal when some row of the table selects it (R74). -/
def legalWord (w : CmdWord) : Bool := commandTable.any fun r => r.selects w

/-- The mnemonic of a command, as the table spells it (R72). -/
def Instr.mnemonic : Instr → String
  | .clear => "CLEAR"
  | .iofail => "IOFAIL"
  | .estart => "ESTART"
  | .count _ => "COUNT"
  | .build => "BUILD"
  | .enc _ => "ENC"
  | .finish => "FINISH"
  | .dstart => "DSTART"
  | .loadt _ => "LOADT"
  | .tend => "TEND"
  | .pushb _ => "PUSHB"
  | .dend => "DEND"

/-- The argument byte of a format-B command; a format-Z command has none (R71). -/
def Instr.operand : Instr → Option Byte
  | .count a | .enc a | .loadt a | .pushb a => some a
  | .clear | .iofail | .estart | .build | .finish | .dstart | .tend | .dend => none

/-- A command is well formed when its argument is one byte, any value 0x00 to 0xFF (R71).
The type `Byte` of the argument already says so: there is no ill-formed `Instr`, and the checks that
can refuse something are those on words, `legalWord`. -/
def Instr.wellFormed (i : Instr) : Bool := i.operand.all fun a => decide (a.toNat < 256)

end Sys2Proof
end

