-- ==== Sys2Proof/Decode.lean ====
section
/-!
DEFINITION. The decoder of command words, total on all 65536 words and refusing by name
(spec 30_encoding R70 to R75), and the encoder (R76: a format-B command is `match | arg`, a format-Z
command `match`). A command word is one 16-bit transfer and has no byte order (20_memory R55).
-/

namespace Sys2Proof

/-- Why a word is no command (R74). -/
inductive DecodeError where
  /-- `op` is not one of the twelve opcodes. -/
  | unknownOpcode (op : Byte)
  /-- `op` is a format-Z opcode and `arg` is not 0x00. -/
  | argumentNotZero (op arg : Byte)
deriving DecidableEq, Repr

/-- The opcode field, `w[15:8]` (R70). -/
def opField (w : CmdWord) : Byte := w.extractLsb' 8 8

/-- The argument field, `w[7:0]` (R70), used as it stands (R71). -/
def argField (w : CmdWord) : Byte := w.extractLsb' 0 8

/-- Format Z: the command, when the argument byte is 0x00 (R71). -/
def formatZ (i : Instr) (w : CmdWord) : Except DecodeError Instr :=
  if argField w = 0 then .ok i else .error (.argumentNotZero (opField w) (argField w))

/-- Format B: the command with its argument byte (R71). -/
def formatB (i : Byte → Instr) (w : CmdWord) : Except DecodeError Instr := .ok (i (argField w))

/-- Decoding of a command word (R72, step 1 of R73). -/
def decode (w : CmdWord) : Except DecodeError Instr :=
  let op := opField w
  if op = 0x01 then formatZ .clear w
  else if op = 0x02 then formatZ .iofail w
  else if op = 0x10 then formatZ .estart w
  else if op = 0x11 then formatB .count w
  else if op = 0x12 then formatZ .build w
  else if op = 0x13 then formatB .enc w
  else if op = 0x14 then formatZ .finish w
  else if op = 0x20 then formatZ .dstart w
  else if op = 0x21 then formatB .loadt w
  else if op = 0x22 then formatZ .tend w
  else if op = 0x23 then formatB .pushb w
  else if op = 0x24 then formatZ .dend w
  else .error (.unknownOpcode op)

/-- The word of an opcode and an argument byte, `op` in bits 15:8 and `arg` in bits 7:0 (R70). -/
def wordOf (op arg : Byte) : CmdWord := (op.zeroExtend 16 <<< 8) ||| arg.zeroExtend 16

/-- The word of a command (R72, R76). -/
def encode : Instr → CmdWord
  | .clear => wordOf 0x01 0
  | .iofail => wordOf 0x02 0
  | .estart => wordOf 0x10 0
  | .count a => wordOf 0x11 a
  | .build => wordOf 0x12 0
  | .enc a => wordOf 0x13 a
  | .finish => wordOf 0x14 0
  | .dstart => wordOf 0x20 0
  | .loadt a => wordOf 0x21 a
  | .tend => wordOf 0x22 0
  | .pushb a => wordOf 0x23 a
  | .dend => wordOf 0x24 0

/-- The command word made of the bits `w` of a table row of `nbits` bits; bits above `nbits` are 0. -/
def tableWord (nbits w : Nat) : CmdWord := BitVec.ofNat 16 (w % 2 ^ nbits)

/-- What the decoder reads from an instruction whose bits are `w`, numbered as the opcode table
numbers them. A command is one 16-bit word, so there is no later word and no byte order to lay out. -/
def decodeTableWord (nbits w : Nat) : Option Instr :=
  match decode (tableWord nbits w) with
  | .ok i => some i
  | .error _ => none

end Sys2Proof
end

