-- ==== Sys2Proof/Machine/Bits.lean ====
section
/-!
DEFINITION. Bit strings (spec 00_scope R14): `bits8`, `byte_of`, `pad8`, `pack`, `be64`.
Most significant bit first everywhere (20_memory R54); the count is big-endian (R55).
-/

namespace Sys2Proof.Machine

/-- `bits8(v)`: the 8-bit string `v[7] v[6] ... v[0]`. -/
def bits8 (v : Byte) : Bits :=
  [v.getLsbD 7, v.getLsbD 6, v.getLsbD 5, v.getLsbD 4, v.getLsbD 3, v.getLsbD 2, v.getLsbD 1, v.getLsbD 0]

/-- `2*v + x`: a number with one more bit at its least significant end (R142). -/
def shiftIn (v : Byte) (x : Bool) : Byte := (v <<< 1) ||| (BitVec.ofBool x).zeroExtend 8

/-- `byte_of(s)`, for `|s| = 8`: the byte `v` with `bits8(v) = s`. -/
def byteOf (s : Bits) : Byte := s.foldl shiftIn 0

/-- `pad8(s)`: `s` followed by `(8 - |s| mod 8) mod 8` zero bits. -/
def pad8 (s : Bits) : Bits := s ++ List.replicate ((8 - s.length % 8) % 8) false

/-- `byte_of` of each of the first `n` successive groups of 8 bits. -/
def groups8 : Nat → Bits → List Byte
  | 0, _ => []
  | n + 1, s => byteOf (s.take 8) :: groups8 n (s.drop 8)

/-- `pack(s)`: the bytes of `pad8(s)`. -/
def pack (s : Bits) : List Byte := groups8 ((pad8 s).length / 8) (pad8 s)

/-- The bits of a byte sequence, in the order they travel (R54). -/
def bitsOf (bs : List Byte) : Bits := bs.flatMap bits8

/-- `be64(n)`: the 8 bytes of `n`, most significant first (R14, R55). -/
def be64 (n : Count) : List Byte :=
  [n.extractLsb' 56 8, n.extractLsb' 48 8, n.extractLsb' 40 8, n.extractLsb' 32 8,
   n.extractLsb' 24 8, n.extractLsb' 16 8, n.extractLsb' 8 8, n.extractLsb' 0 8]

/-- One byte of the big-endian assembly of a count: `(n * 256 + b) mod 2^64` (R141). -/
def appendByte (n : Count) (b : Byte) : Count := n * 256 + b.zeroExtend 64

end Sys2Proof.Machine
end

