-- ==== Sys2Proof/Machine/State.lean ====
section
/-!
DEFINITION. The state of HUFFCORE: the fifteen elements of spec 10_state R20, and the model's own
fields for the two sides of the ports (R42: not state of the block). Plain data throughout.
-/

namespace Sys2Proof.Machine

/-- The phase of the block (R21). The code 7 is never taken: there are seven phases. -/
inductive Phase where
  /-- No job. -/
  | idle
  /-- Compress job, pass 1. -/
  | eCount
  /-- Compress job, pass 2. -/
  | eEncode
  /-- Decompress job, loading the tree artifact. -/
  | dTree
  /-- Decompress job, decoding the bits artifact. -/
  | dBits
  /-- The job reported success. -/
  | done
  /-- The job failed. -/
  | fault
deriving DecidableEq, Repr

/-- ERR (R22): the error kind and the sub-cause; (0, 0) means no fault. -/
structure Err where
  kind : BitVec 3
  sub : BitVec 4
deriving DecidableEq, Repr

/-- A Huffman tree (00_scope R15). It has no weights. -/
inductive Tree where
  | leaf (v : Byte)
  | node (l r : Tree)
deriving DecidableEq, Repr

/-- A frame of the deserializer's stack (R30). -/
inductive Frame where
  /-- An open internal node whose left subtree is not finished. -/
  | needLeft
  /-- An open internal node whose left subtree is `l` and whose right subtree is not finished. -/
  | needRight (l : Tree)
deriving DecidableEq, Repr

/-- PLEAF when present (R31): `k` of the 8 value bits have been read, they make the number `v`. -/
structure PartialLeaf where
  k : Nat
  v : Byte
deriving DecidableEq, Repr

/-- The output channels (20_memory R52); channel number 3 is never used. -/
inductive Channel where
  | tree
  | bits
  | data
deriving DecidableEq, Repr

/-- One transfer of the output port (R52). -/
structure Transfer where
  ch : Channel
  byte : Byte
deriving DecidableEq, Repr

/-- The four read-only status registers (R36). -/
inductive StatusReg where
  | status
  | errreg
  | nsym
  | rem
deriving DecidableEq, Repr

/-- What a status read returns, 8 or 64 bits wide (R36, 20_memory R57). -/
inductive StatusValue where
  | byte (v : BitVec 8)
  | wide (v : BitVec 64)
deriving DecidableEq, Repr

/-- What the status registers are made of (R36 to R38). -/
structure Boundary where
  phase : Phase
  err : Err
  nsym : Count
  rem : Count
  treeOk : Bool
deriving DecidableEq, Repr

/-- What the host does to the block (70_reset R211). -/
inductive HostEvent where
  /-- The host sends a command word (20_memory R51). -/
  | word (w : CmdWord)
  /-- The host reads a status register; not a command (R36, 45_job_control R167). -/
  | read (r : StatusReg)
  /-- Hardware reset; a word being transferred when it strikes, and not listed as an event, is lost
  (70_reset R201). -/
  | reset (inTransfer : Option CmdWord)
  /-- The host stops taking output bytes (R210). -/
  | stopTaking
  /-- A host that stopped takes one more offered byte (R65). -/
  | takeOne
  /-- The host takes every offered byte from here on (R65, R210). -/
  | takeAll
deriving DecidableEq, Repr

/-- A table indexed by byte value (20_memory R50). -/
abbrev Table (α : Type) := Vector α 256

/-- The state of the machine. -/
structure State where
  /-- PHASE (R21). -/
  phase : Phase
  /-- ERR (R22). -/
  err : Err
  /-- FREQ[0..255] (R23). -/
  freq : Table Count
  /-- NSYM (R24), status register 2. -/
  nsym : Count
  /-- REM (R25), status register 3. -/
  rem : Count
  /-- CODE[0..255] (R26); `none` is absent. -/
  code : Table (Option Bits)
  /-- TREE (R27). -/
  tree : Tree
  /-- TREE_OK (R27, R40). -/
  treeOk : Bool
  /-- ACC (R28), the oldest bit first. -/
  acc : Bits
  /-- HCNT (R29). -/
  hcnt : Nat
  /-- PSTK (R30), the top of the stack first. -/
  pstk : List Frame
  /-- PLEAF (R31). -/
  pleaf : Option PartialLeaf
  /-- NINT (R32). -/
  nint : Nat
  /-- SEEN[0..255] (R33). -/
  seen : Table Bool
  /-- POS (R34). -/
  pos : Tree
  /-- Model's own: what the host does next, oldest first (R42, log entry 1). -/
  port : List HostEvent
  /-- Model's own: how many command words have been taken (R41, log entry 10). -/
  index : Nat
  /-- Model's own: the transfers of the output port, oldest first (R42, R53, log entry 2). -/
  out : List Transfer
  /-- Model's own: `none` when the host takes every byte; `some n` when it has taken the first `n`
  transfers of `out` and takes no more (R65, R210, log entry 2). -/
  held : Option Nat
  /-- Model's own: what the status reads returned, oldest first (R36, log entry 1). -/
  reads : List (StatusReg × StatusValue)
  /-- Model's own: what the status registers were made of at the earliest boundary a read may still show: the one
  before the last command, until a read has shown the one after it or a byte of it was taken (R60, R211, log
  entry 14). -/
  before : Boundary
  /-- Model's own: counter of the free values used (R39, R211, log entries 6 and 14). -/
  freeCount : Nat
deriving DecidableEq, Repr

/-- The machine right after hardware reset (R43, 70_reset R200). TREE and POS have no meaning there:
the leaf 0x00 is the model's choice (log entry 5). -/
def State.reset : State where
  phase := .idle
  err := ⟨0, 0⟩
  freq := Vector.replicate 256 0
  nsym := 0
  rem := 0
  code := Vector.replicate 256 none
  tree := .leaf 0
  treeOk := false
  acc := []
  hcnt := 0
  pstk := []
  pleaf := none
  nint := 0
  seen := Vector.replicate 256 false
  pos := .leaf 0
  port := []
  index := 0
  out := []
  held := none
  reads := []
  before := ⟨.idle, ⟨0, 0⟩, 0, 0, false⟩
  freeCount := 0

/-- Why the model stops. The faults of the spec are no stops: they are next states in phase FAULT
(60_exceptions R185). Both stops are in states no run from reset reaches, where no rule gives an effect. -/
inductive Fault where
  /-- Raised by ENC when FREQ[Arg] is not 0 and CODE[Arg] is absent; R130 takes the code to be present
  (10_state R44). Safe: no run reaches it (log entry 7). -/
  | codeAbsent
  /-- Raised by BUILD when NSYM is not 0 and every FREQ[i] is 0, so that the queue is empty; R111 says
  this cannot reach there. Safe: no run reaches it (log entry 8). -/
  | queueEmpty
deriving DecidableEq, Repr

/-- Why the model refuses an instruction. -/
inductive Refusal where
  /-- Raised by an arm of `exec` whose instruction has no meaning yet. Safe. No arm raises it now. -/
  | notModelled (mnemonic : String)
deriving DecidableEq, Repr

/-- The outcome of a step. -/
abbrev Result := Host.Outcome State Fault Refusal

end Sys2Proof.Machine
end

