-- ==== Sys2Proof/Machine/Operands.lean ====
section
/-!
DEFINITION. The one operand form of HUFFCORE: the argument byte, used as it stands (spec 30_encoding R71),
and what it indexes: the tables FREQ, CODE and SEEN (20_memory R50; no index can be out of range).
-/

namespace Sys2Proof.Machine

/-- A byte as an index of a table: always in range (R50). -/
theorem byte_in_range (b : Byte) : b.toNat < 256 := b.isLt

/-- `T[b]`: entry `b` of a table. -/
def entry {α : Type} (t : Table α) (b : Byte) : α := t[b.toNat]'(byte_in_range b)

/-- `T[b] <- x`: the table with entry `b` written. -/
def setEntry {α : Type} (t : Table α) (b : Byte) (x : α) : Table α := t.set b.toNat x (byte_in_range b)

/-- The 256 byte values in ascending order. -/
def allBytes : List Byte := (List.range 256).map (BitVec.ofNat 8)

end Sys2Proof.Machine
end

