-- ==== Sys2Proof/Config.lean ====
section
/-!
DEFINITION. The free values of HUFFCORE. The spec leaves open what a status read shows of NSYM, REM and
TREE_OK in phase FAULT (10_state R39, 93 U13: any value), and which of the two boundaries of a command whose bytes
are not all taken a read sees (20_memory R60, 70_reset R211: the value between two commands). Each constant is opaque: nothing in
Lean can evaluate it. The argument is the state's counter `freeCount` (log
entries 6 and 14).
The other parameter left open, REG_MAP (00_scope R11), is depended on by no rule and is not modelled
(log entry 11).
-/

namespace Sys2Proof

/-- What a read of status register 2 or 3 returns in phase FAULT (R39). -/
opaque Config.freeCountValue : Nat → Count

/-- What STATUS.TREE_OK reads as in phase FAULT (R39). -/
opaque Config.freeTreeOk : Nat → Bool

/-- Whether a status read that falls inside a command, before any byte of it was taken and before a read has shown
the value after it, returns the value before that command (else the value after it): either is a value between two
commands (R60, R211; log entry 14). -/
opaque Config.freeBoundary : Nat → Bool

end Sys2Proof
end

