-- ==== Sys2Proof/Machine/Flags.lean ====
section
/-!
DEFINITION. The codes of phases, channels and faults, and the status registers and outputs computed from
the state (spec 10_state R21, R36 to R40, 20_memory R52, 60_exceptions R176, R177).
HUFFCORE has no arithmetic condition codes (R40).
-/

namespace Sys2Proof.Machine

/-- The 3-bit code of a phase (R21). -/
def phaseCode : Phase → BitVec 3
  | .idle => 0
  | .eCount => 1
  | .eEncode => 2
  | .dTree => 3
  | .dBits => 4
  | .done => 5
  | .fault => 6

/-- The 2-bit number of a channel (R52). -/
def channelCode : Channel → BitVec 2
  | .tree => 0
  | .bits => 1
  | .data => 2

/-- Every fault of HUFFCORE (R177): one constructor per row of its table. -/
inductive Cause where
  | ioError
  | empty
  | lengthOverflow
  | emptyCode
  | noCode
  | extraSymbol
  | missingSymbols
  | treeRootLeaf
  | treeTooManyInternal
  | treeDupLeaf
  | treeTrailing
  | treeTruncated
  | bitsExtra
  | bitsTruncated
  | walkOffTree
  | illegalOpcode
  | wrongPhase
deriving DecidableEq, Repr

/-- ERR.KIND and ERR.SUB of a fault (R176, R177). -/
def errOf : Cause → Err
  | .ioError => ⟨1, 0⟩
  | .empty => ⟨2, 1⟩
  | .lengthOverflow => ⟨2, 2⟩
  | .emptyCode => ⟨3, 1⟩
  | .noCode => ⟨3, 2⟩
  | .extraSymbol => ⟨3, 3⟩
  | .missingSymbols => ⟨3, 4⟩
  | .treeRootLeaf => ⟨4, 1⟩
  | .treeTooManyInternal => ⟨4, 2⟩
  | .treeDupLeaf => ⟨4, 3⟩
  | .treeTrailing => ⟨4, 4⟩
  | .treeTruncated => ⟨4, 5⟩
  | .bitsExtra => ⟨4, 6⟩
  | .bitsTruncated => ⟨4, 7⟩
  | .walkOffTree => ⟨4, 8⟩
  | .illegalOpcode => ⟨5, 1⟩
  | .wrongPhase => ⟨5, 2⟩

/-- STATUS.DONE (R37), and the level output `done` (R40). DESIGN CHOICE where rules disagree: R190 has `done` fall
only on CLEAR or IOFAIL; by R177 and R185 any illegal or wrong-phase word in DONE makes it fall, by R43 hardware reset
too, and the model follows these (log entry 15). -/
def doneFlag (s : State) : Bool := decide (s.phase = .done)

/-- STATUS.FAULTED (R37), and the level output `fault` (R40). It falls on CLEAR (R190) and on hardware reset (R43):
log entry 15. -/
def faultedFlag (s : State) : Bool := decide (s.phase = .fault)

/-- STATUS.TREE_OK as a read shows it: the flag, in FAULT any value (R37, R39). -/
def shownTreeOk (s : State) : Bool :=
  if s.phase = .fault then Config.freeTreeOk s.freeCount else s.treeOk

/-- A 64-bit count register as a read shows it: the count, in FAULT any value (R39). -/
def shownCount (s : State) (n : Count) : Count :=
  if s.phase = .fault then Config.freeCountValue s.freeCount else n

/-- STATUS (R37): bits 2:0 PHASE, 3 DONE, 4 FAULTED, 5 TREE_OK, 7:6 read as 0. -/
def statusByte (s : State) : BitVec 8 :=
  (0 : BitVec 2) ++ BitVec.ofBool (shownTreeOk s) ++ BitVec.ofBool (faultedFlag s) ++
    BitVec.ofBool (doneFlag s) ++ phaseCode s.phase

/-- ERRREG (R38): bits 2:0 KIND, 6:3 SUB, 7 reads as 0. -/
def errByte (s : State) : BitVec 8 := (0 : BitVec 1) ++ s.err.sub ++ s.err.kind

/-- The value of a status register (R36). -/
def statusValue (s : State) : StatusReg → StatusValue
  | .status => .byte (statusByte s)
  | .errreg => .byte (errByte s)
  | .nsym => .wide (shownCount s s.nsym)
  | .rem => .wide (shownCount s s.rem)

end Sys2Proof.Machine
end

