-- ==== Sys2Proof/Machine/Ops.lean ====
section
/-!
DEFINITION. The named operations the commands share: output (spec 20_memory R52), fault entry and the
return from it (60_exceptions R185, R187), the phase check of the dispatch (30_encoding R73).
-/

namespace Sys2Proof.Machine

/-- `Emit(ch, b)`: one transfer of the output port (R16, R52). -/
def emit (ch : Channel) (b : Byte) (s : State) : State := { s with out := s.out ++ [⟨ch, b⟩] }

/-- `Emit` of each byte in order (R53). -/
def emitAll (ch : Channel) (bs : List Byte) (s : State) : State :=
  { s with out := s.out ++ bs.map (Transfer.mk ch) }

/-- Fault entry, `raise Kind(SUB)` (R185): ERR and PHASE, and nothing else. -/
def raise (c : Cause) (s : State) : State := { s with err := errOf c, phase := .fault }

/-- Every state element of the block to its reset value (R43, R165); the host's side of the ports is no
state of the block (R42) and stays. It is also the only return from FAULT (R187). -/
def clearBlock (s : State) : State :=
  { State.reset with
    port := s.port, index := s.index, out := s.out, held := s.held, reads := s.reads,
    before := s.before, freeCount := s.freeCount }

/-- A word that is not CLEAR, in phase FAULT: discarded, nothing changes (R73 step 2, R168). -/
def unlessFault (s : State) (run : Result) : Result := if s.phase = .fault then .next s else run

/-- Steps 2, 5 and 6 of the dispatch (R73) for a command legal in the phase `p` alone. -/
def inPhase (p : Phase) (s : State) (run : Result) : Result :=
  unlessFault s (if s.phase = p then run else .next (raise .wrongPhase s))

/-- Steps 2 and 3 of the dispatch (R73): a word no row of the table matches. -/
def illegalWord (s : State) : Result := unlessFault s (.next (raise .illegalOpcode s))

end Sys2Proof.Machine
end

