-- ==== Sys2Proof/Machine/BitPacker.lean ====
section
/-!
DEFINITION. The BitPacker: ENC and FINISH (spec 42_bit_packer R130, R131).
-/

namespace Sys2Proof.Machine

/-- One turn of ENC's loop: append a bit to ACC; a full byte is emitted on BITS (R130). -/
def packBit (x : Bool) (s : State) : State :=
  let acc := s.acc ++ [x]
  if acc.length = 8 then { emit .bits (byteOf acc) s with acc := [] } else { s with acc := acc }

/-- ENC's loop over the bits of a code (R130). -/
def packBits (c : Bits) (s : State) : State := c.foldl (fun s x => packBit x s) s

/-- The body of ENC (R130). EXTRA_SYMBOL is tested before NO_CODE (60_exceptions R183). -/
def encodeByte (b : Byte) (s : State) : Result :=
  if s.rem = 0 then .next (raise .extraSymbol s)
  else if entry s.freq b = 0 then .next (raise .noCode s)
  else
    match entry s.code b with
    | none => .fault .codeAbsent
    | some c => .next { packBits c s with rem := s.rem - 1 }

/-- ENC b (R130). -/
def execEnc (b : Byte) (s : State) : Result := inPhase .eEncode s (encodeByte b s)

/-- The flush of FINISH: the pending bits, padded with zeros, leave as one byte (R131). -/
def flushAcc (s : State) : State :=
  if s.acc = [] then s else { emit .bits (byteOf (pad8 s.acc)) s with acc := [] }

/-- The body of FINISH (R131). -/
def finishPack (s : State) : State :=
  if s.rem ≠ 0 then raise .missingSymbols s else { flushAcc s with phase := .done }

/-- FINISH (R131). -/
def execFinish (s : State) : Result := inPhase .eEncode s (.next (finishPack s))

end Sys2Proof.Machine
end

