-- ==== Sys2Proof/Machine/Trees.lean ====
section
/-!
DEFINITION. The functions on trees of spec 00_scope R15 (`child`, `leaves`) and 30_encoding R81 (`ser`),
and the subtree relation R34 uses for POS.
-/

namespace Sys2Proof.Machine

/-- `child(t, b)`: the left child for 0, the right child for 1; absent for a leaf (R15). -/
def child : Tree → Bool → Option Tree
  | .leaf _, _ => none
  | .node l _, false => some l
  | .node _ r, true => some r

/-- `leaves(t)`: the leaf values from left to right (R15). -/
def leaves : Tree → List Byte
  | .leaf v => [v]
  | .node l r => leaves l ++ leaves r

/-- The number of internal nodes (00_scope R10). -/
def internals : Tree → Nat
  | .leaf _ => 0
  | .node l r => internals l + internals r + 1

/-- The tree is `Internal`. -/
def isInternal : Tree → Bool
  | .leaf _ => false
  | .node _ _ => true

/-- `ser(t)`: pre-order, tag 0 for an internal node, tag 1 and the 8 value bits for a leaf (R81). -/
def ser : Tree → Bits
  | .leaf v => true :: bits8 v
  | .node l r => false :: (ser l ++ ser r)

/-- `u` is a subtree of the tree (10_state R34). -/
def hasSubtree : Tree → Tree → Bool
  | .leaf v, u => decide (u = .leaf v)
  | .node l r, u => decide (u = .node l r) || hasSubtree l u || hasSubtree r u

/-- Follow a path from a tree, 0 = left, 1 = right; absent when it falls off (R116). -/
def follow : Tree → Bits → Option Tree
  | t, [] => some t
  | t, x :: xs => (child t x).bind fun u => follow u xs

end Sys2Proof.Machine
end

