-- ==== Sys2Proof/Machine/BitUnpacker.lean ====
section
/-!
DEFINITION. The BitUnpacker / TreeWalker: PUSHB and DEND (spec 44_bit_unpacker R155, R156).
-/

namespace Sys2Proof.Machine

/-- POS <- n; at a leaf its byte leaves on DATA, REM counts down and POS is the root again (R155). -/
def arrive (n : Tree) (s : State) : State :=
  match n with
  | .leaf v => { emit .data v s with rem := s.rem - 1, pos := s.tree }
  | .node _ _ => { s with pos := n }

/-- PUSHB's loop over bits (R155): it ends when REM is 0 (the rest is padding) or at a walk off the tree. -/
def walkBits : Bits → State → State
  | [], s => s
  | x :: xs, s =>
    if s.rem = 0 then s
    else
      match child s.pos x with
      | none => raise .walkOffTree s
      | some n => walkBits xs (arrive n s)

/-- The body of PUSHB (R155). -/
def pushByte (b : Byte) (s : State) : State :=
  if s.rem = 0 then raise .bitsExtra s else walkBits (bits8 b) s

/-- PUSHB b (R155). -/
def execPushb (b : Byte) (s : State) : Result := inPhase .dBits s (.next (pushByte b s))

/-- The body of DEND (R156). -/
def endBits (s : State) : State :=
  if s.rem ≠ 0 then raise .bitsTruncated s else { s with phase := .done }

/-- DEND (R156). -/
def execDend (s : State) : Result := inPhase .dBits s (.next (endBits s))

end Sys2Proof.Machine
end

