-- ==== Sys2Proof/Machine/TreeBuilder.lean ====
section
/-!
DEFINITION. The TreeBuilder: the priority queue and the merges of BUILD (spec 41 R111 to R114, 10_state R35).
The queue is a list kept in ascending order of (weight, seq), so that its head is what ExtractMin
returns (R115: the structure is free). Weights are exact numbers: R35 says that they fit 64 bits (log entry 9).
-/

namespace Sys2Proof.Machine

/-- An entry of the queue: weight, sequence number, tree (R111). -/
structure QEntry where
  w : Nat
  seq : Nat
  t : Tree
deriving DecidableEq, Repr

/-- The order of ExtractMin: by weight, equal weights by sequence number (R112). -/
def before (a b : QEntry) : Bool := decide (a.w < b.w) || (decide (a.w = b.w) && decide (a.seq < b.seq))

/-- Insert an entry into a queue kept in ascending order. -/
def insertEntry (e : QEntry) : List QEntry → List QEntry
  | [] => [e]
  | q :: qs => if before e q then e :: q :: qs else q :: insertEntry e qs

/-- PLACEHOLDER(b): 0x00, or 0x01 when `b` is 0x00 (00_scope R9). -/
def placeholder (b : Byte) : Byte := if b = 0x00 then 0x01 else 0x00

/-- The byte values that occurred, ascending: the set S of R111. -/
def present (freq : Table Count) : List Byte := allBytes.filter fun v => decide (entry freq v ≠ 0)

/-- The entry of a byte value: its count, its value as sequence number, its leaf (R111). -/
def leafEntry (freq : Table Count) (v : Byte) : QEntry := ⟨(entry freq v).toNat, v.toNat, .leaf v⟩

/-- The entries `InitQueue(FREQ)` makes: one per distinct byte value, and for a single one the
placeholder leaf of weight 0 beside it (R111, R114). -/
def initEntries (freq : Table Count) : List QEntry :=
  match present freq with
  | [b] => [⟨0, (placeholder b).toNat, .leaf (placeholder b)⟩, leafEntry freq b]
  | vs => vs.map (leafEntry freq)

/-- `InitQueue(FREQ)` (R111). -/
def initQueue (freq : Table Count) : List QEntry := (initEntries freq).foldr insertEntry []

/-- The entry one merge inserts; the first extracted becomes the left child (R112). -/
def mergeEntry (mseq : Nat) (a b : QEntry) : QEntry := ⟨a.w + b.w, 256 + mseq, .node a.t b.t⟩

/-- At most `fuel` merges, the next one numbered `mseq` (R112). -/
def mergeLoop : Nat → Nat → List QEntry → List QEntry
  | 0, _, q => q
  | fuel + 1, mseq, a :: b :: q => mergeLoop fuel (mseq + 1) (insertEntry (mergeEntry mseq a b) q)
  | _ + 1, _, q => q

/-- `Merge(PQ)`: a queue of L entries needs L - 1 merges; the tree of the one entry left (R112).
Absent for the empty queue, which R111 says cannot reach here. -/
def merge (q : List QEntry) : Option Tree := (mergeLoop (q.length - 1) 0 q).head?.map QEntry.t

/-- The tree BUILD makes from a frequency table (R110). -/
def buildTree (freq : Table Count) : Option Tree := merge (initQueue freq)

end Sys2Proof.Machine
end

