-- ==== Sys2Proof/Machine/CodeTable.lean ====
section
/-!
DEFINITION. The CodeTable of the encode path and the command BUILD (spec 41 R110, R116, R118).
-/

namespace Sys2Proof.Machine

/-- `DeriveCodes(t, path)` (R116): the table with the path of every leaf recorded, left before right;
absent when a leaf is reached with the empty path, which raises EncodingError(EMPTY_CODE). -/
def deriveCodes : Tree → Bits → Table (Option Bits) → Option (Table (Option Bits))
  | .leaf v, path, tab => if path = [] then none else some (setEntry tab v (some path))
  | .node l r, path, tab =>
    (deriveCodes l (path ++ [false]) tab).bind fun tab' => deriveCodes r (path ++ [true]) tab'

/-- A code table with every entry absent (R110). -/
def noCodes : Table (Option Bits) := Vector.replicate 256 none

/-- The tree artifact `be64(NSYM) ++ pack(ser(TREE))` (30_encoding R80, R118). -/
def treeArtifact (n : Count) (t : Tree) : List Byte := be64 n ++ pack (ser t)

/-- BUILD from the built tree on (R110): the codes, TREE_OK, the tree artifact, REM and PHASE. -/
def finishBuild (t : Tree) (s : State) : State :=
  if isInternal t = false then raise .emptyCode s
  else
    match deriveCodes t [] noCodes with
    | none => raise .emptyCode s
    | some codes =>
      { emitAll .tree (treeArtifact s.nsym t) s with
        tree := t, code := codes, treeOk := true, rem := s.nsym, phase := .eEncode }

/-- The body of BUILD (R110). -/
def buildBody (s : State) : Result :=
  if s.nsym = 0 then .next (raise .empty s)
  else
    match buildTree s.freq with
    | none => .fault .queueEmpty
    | some t => .next (finishBuild t s)

/-- BUILD (R110). -/
def execBuild (s : State) : Result := inPhase .eCount s (buildBody s)

end Sys2Proof.Machine
end

