-- ==== Sys2Proof/Machine/FrequencyCounter.lean ====
section
/-!
DEFINITION. The FrequencyCounter: ESTART and COUNT (spec 40_frequency_counter R101, R102).
-/

namespace Sys2Proof.Machine

/-- ESTART (R101). -/
def execEstart (s : State) : Result := inPhase .idle s (.next { s with phase := .eCount })

/-- The largest count, `2^64 - 1` (R102). -/
def maxCount : Count := BitVec.allOnes 64

/-- The body of COUNT (R102). -/
def countByte (b : Byte) (s : State) : State :=
  if s.nsym = maxCount then raise .lengthOverflow s
  else { s with freq := setEntry s.freq b (entry s.freq b + 1), nsym := s.nsym + 1 }

/-- COUNT b (R102). -/
def execCount (b : Byte) (s : State) : Result := inPhase .eCount s (.next (countByte b s))

end Sys2Proof.Machine
end

