-- ==== Sys2Proof/Machine/JobControl.lean ====
section
/-!
DEFINITION. Job control: CLEAR and IOFAIL (spec 45_job_control R165, R166).
-/

namespace Sys2Proof.Machine

/-- CLEAR (R165): legal in every phase, FAULT included; emits nothing, drops the pending bits. -/
def execClear (s : State) : Result := .next (clearBlock s)

/-- IOFAIL (R166): `raise IOError(0)` in every phase but FAULT, where it is discarded. -/
def execIofail (s : State) : Result := unlessFault s (.next (raise .ioError s))

end Sys2Proof.Machine
end

