-- ==== Sys2Proof/Machine/TreeLoader.lean ====
section
/-!
DEFINITION. The tree loader: DSTART, LOADT and TEND (spec 43_tree_loader R140 to R144).
-/

namespace Sys2Proof.Machine

/-- DSTART (R140). -/
def execDstart (s : State) : Result := inPhase .idle s (.next { s with phase := .dTree })

/-- `Complete(t)` on the stack, top first (R143): the stack left, and the whole tree when it ran empty. -/
def complete (t : Tree) : List Frame → List Frame × Option Tree
  | [] => ([], some t)
  | .needLeft :: st => (.needRight t :: st, none)
  | .needRight l :: st => complete (.node l t) st

/-- `Complete(t)` on the state (R143). -/
def completeTree (t : Tree) (s : State) : State :=
  match complete t s.pstk with
  | (st, some u) => { s with pstk := st, tree := u, treeOk := true }
  | (st, none) => { s with pstk := st }

/-- `TreeBit(x)` (R142): the state after the bit, or the fault it shows. -/
def treeBit (x : Bool) (s : State) : Except Cause State :=
  match s.pleaf with
  | some p =>
    let v := shiftIn p.v x
    if p.k + 1 < 8 then .ok { s with pleaf := some ⟨p.k + 1, v⟩ }
    else if entry s.seen v then .error .treeDupLeaf
    else .ok (completeTree (.leaf v) { s with seen := setEntry s.seen v true, pleaf := none })
  | none =>
    if x then
      if s.pstk = [] then .error .treeRootLeaf else .ok { s with pleaf := some ⟨0, 0⟩ }
    else if s.nint = 255 then .error .treeTooManyInternal
    else .ok { s with nint := s.nint + 1, pstk := .needLeft :: s.pstk }

/-- LOADT's loop over bits (R141): it ends when the tree is complete (the rest is padding) or at a fault,
with the earlier bits consumed. -/
def loadBits : Bits → State → State
  | [], s => s
  | x :: xs, s =>
    if s.treeOk then s
    else
      match treeBit x s with
      | .error c => raise c s
      | .ok s' => loadBits xs s'

/-- The body of LOADT (R141). -/
def loadByte (b : Byte) (s : State) : State :=
  if s.hcnt < 8 then { s with nsym := appendByte s.nsym b, hcnt := s.hcnt + 1 }
  else if s.treeOk then raise .treeTrailing s
  else loadBits (bits8 b) s

/-- LOADT b (R141). -/
def execLoadt (b : Byte) (s : State) : Result := inPhase .dTree s (.next (loadByte b s))

/-- The body of TEND (R144). -/
def endTree (s : State) : State :=
  if s.hcnt < 8 ∨ s.treeOk = false then raise .treeTruncated s
  else { s with rem := s.nsym, pos := s.tree, phase := .dBits }

/-- TEND (R144). -/
def execTend (s : State) : Result := inPhase .dTree s (.next (endTree s))

end Sys2Proof.Machine
end

