-- ==== Sys2Proof/Machine/Dispatch.lean ====
section
/-!
DEFINITION. The dispatch of a decoded command to its meaning, one arm per constructor (spec 30_encoding R73).
-/

namespace Sys2Proof.Machine

def exec (i : Instr) (s : State) : Host.Outcome State Fault Refusal :=
  match i with
  | .clear => Sys2Proof.Machine.execClear s
  | .iofail => Sys2Proof.Machine.execIofail s
  | .estart => Sys2Proof.Machine.execEstart s
  | .count b => Sys2Proof.Machine.execCount b s
  | .build => Sys2Proof.Machine.execBuild s
  | .enc b => Sys2Proof.Machine.execEnc b s
  | .finish => Sys2Proof.Machine.execFinish s
  | .dstart => Sys2Proof.Machine.execDstart s
  | .loadt b => Sys2Proof.Machine.execLoadt b s
  | .tend => Sys2Proof.Machine.execTend s
  | .pushb b => Sys2Proof.Machine.execPushb b s
  | .dend => Sys2Proof.Machine.execDend s

end Sys2Proof.Machine
end

