-- ==== Sys2Proof/Machine/HostPort.lean ====
section
/-!
DEFINITION. The two ports and the host on their other side: running one command word (spec 30_encoding R73),
status reads (10_state R36, 45 R167), hardware reset (70_reset R200, R201) and a host that stops taking
output (20_memory R65, 70_reset R210).
-/

namespace Sys2Proof.Machine

/-- One command word (R73): decode it, run the command or raise ILLEGAL_OPCODE. -/
def runWord (w : CmdWord) (s : State) : Result :=
  match decode w with
  | .ok i => exec i s
  | .error _ => illegalWord s

/-- An emitted byte has not been taken: the command that emitted it is not finished (R65, R210). -/
def outputPending (s : State) : Bool :=
  match s.held with
  | none => false
  | some n => decide (n < s.out.length)

/-- The transfers the host has taken (R65). -/
def takenOut (s : State) : List Transfer :=
  match s.held with
  | none => s.out
  | some n => s.out.take n

/-- What the status registers are made of, now: a value between two commands when no command is running (R60). -/
def boundaryOf (s : State) : Boundary := ⟨s.phase, s.err, s.nsym, s.rem, s.treeOk⟩

/-- The state with the status registers as at the earliest boundary a read may still show (R60). -/
def beforeCommand (s : State) : State :=
  { s with
    phase := s.before.phase, err := s.before.err, nsym := s.before.nsym, rem := s.before.rem,
    treeOk := s.before.treeOk }

/-- The state whose status registers a read shows (R36, R167, R211): the present one; while a command's bytes are
being taken, the one before it or the one after it, which of them is left open while neither a read nor a byte has
shown that the command has run (log entry 14). -/
def readView (s : State) : State :=
  if outputPending s && Config.freeBoundary s.freeCount then beforeCommand s else s

/-- A status read (R36): the value is returned and the block does not change. No later read shows an earlier boundary
than this one (R60). Where the read uses a free value the counter moves on (R39, R211, log entries 6 and 14). -/
def readStatus (r : StatusReg) (s : State) : State :=
  { s with
    reads := s.reads ++ [(r, statusValue (readView s) r)]
    before := boundaryOf (readView s)
    freeCount := if s.phase = .fault ∨ outputPending s = true then s.freeCount + 1 else s.freeCount }

/-- Hardware reset (R200, R201): every element of the block to its reset value, the output port idle.
A byte offered and not taken is gone (log entry 3). -/
def hardReset (s : State) : State := { clearBlock s with out := takenOut s }

/-- The host stops taking output: of what is offered from here on it takes nothing (R210). -/
def stopTaking (s : State) : State :=
  match s.held with
  | none => { s with held := some s.out.length }
  | some _ => s

/-- A host that stopped takes the next offered byte, if there is one (R65). A command is one indivisible step with
all its `Emit`s, so from here on reads show the state after it (R60, log entry 14). -/
def takeOne (s : State) : State :=
  match s.held with
  | none => s
  | some n => if n < s.out.length then { s with held := some (n + 1), before := boundaryOf s } else s

/-- The host takes every offered byte, now and from here on (R65). -/
def takeAll (s : State) : State := { s with held := none }

/-- What an event other than a word does to the block and the ports. -/
def hostDoes (e : HostEvent) (s : State) : State :=
  match e with
  | .word _ => s
  | .read r => readStatus r s
  | .reset _ => hardReset s
  | .stopTaking => stopTaking s
  | .takeOne => takeOne s
  | .takeAll => takeAll s

/-- The block takes a word: the index of the command stream moves on by 1 (R41). -/
def acceptWord (rest : List HostEvent) (s : State) : State :=
  { s with port := rest, index := s.index + 1, before := boundaryOf s }

/-- The first event that is no word, and the events without it. -/
def firstOther : List HostEvent → Option (HostEvent × List HostEvent)
  | [] => none
  | .word w :: rest => (firstOther rest).map fun p => (p.1, .word w :: p.2)
  | e :: rest => some (e, rest)

/-- The events left when `e` happens while the word `w` waits on the command port, with the events `left` behind it:
hardware reset loses the word (R201, log entry 4), nothing else does. -/
def behindWord (w : CmdWord) (e : HostEvent) (left : List HostEvent) : List HostEvent :=
  match e with
  | .reset _ => left
  | .word _ | .read _ | .stopTaking | .takeOne | .takeAll => .word w :: left

/-- The word `w` waits on the command port while an emitted byte is not taken (R65, R210). The other ports do not
wait for it: the next event that is no word happens; hardware reset gets the block out (93 U18). -/
def stalled (w : CmdWord) (rest : List HostEvent) (s : State) : Result :=
  match firstOther rest with
  | none => .next s
  | some (e, left) => .next (hostDoes e { s with port := behindWord w e left })

/-- The head event `e` of the port, with the events `rest` behind it. A word is taken only between two commands:
while output is pending it waits (R60, R65, R210). -/
def serve (e : HostEvent) (rest : List HostEvent) (s : State) : Result :=
  match e with
  | .word w => if outputPending s then stalled w rest s else runWord w (acceptWord rest s)
  | .read _ | .reset _ | .stopTaking | .takeOne | .takeAll => .next (hostDoes e { s with port := rest })

/-- No event is left: the block waits and keeps all state (60_exceptions R188, R192). -/
def waitForHost (s : State) : Result := .next s

/-- The state with a command word offered as the host's next event, and no output pending before it. -/
def offerWord (w : CmdWord) (s : State) : State := { s with port := .word w :: s.port, held := none }

end Sys2Proof.Machine
end

