-- ==== Sys2Proof/Machine/Step.lean ====
section
/-!
DEFINITION. One step of the closed system: the host's next event meets the block (spec 20_memory R51, R60).
The block fetches nothing (10_state R41): the next command is the word the host sends next.
-/

namespace Sys2Proof.Machine

/-- One step. -/
def step (s : State) : Host.Outcome State Fault Refusal :=
  match s.port with
  | [] => waitForHost s
  | e :: rest => serve e rest s

/-- The state with the instruction whose bits are `w` (numbered as the opcode table numbers them) sent by the
host next, so that the very next step runs it (log entry 1). -/
def State.withFetchWord (s : State) (nbits w : Nat) : State := offerWord (tableWord nbits w) s

end Sys2Proof.Machine
end

