-- ==== Sys2Proof/Machine/PseudoCommands.lean ====
section
/-!
DEFINITION. Command lists: the pseudo-commands and the assembler text of spec 30_encoding R76, R77, running
a list of commands in order (20_memory R60), and what a run emitted on each channel (R53).
-/

namespace Sys2Proof.Machine

/-- Run a list of commands in order (R60), up to a stop of the model. -/
def sendAll : List Instr → State → Result
  | [], s => .next s
  | i :: is, s =>
    match exec i s with
    | .next t => sendAll is t
    | .fault f => .fault f
    | .refused r => .refused r

/-- `COUNTS S` (R77). -/
def counts (bs : List Byte) : List Instr := bs.map .count

/-- `ENCS S` (R77). -/
def encs (bs : List Byte) : List Instr := bs.map .enc

/-- `LOADTS T` (R77). -/
def loadts (bs : List Byte) : List Instr := bs.map .loadt

/-- `PUSHBS B` (R77). -/
def pushbs (bs : List Byte) : List Instr := bs.map .pushb

/-- `COMPRESS S` (R77). -/
def compress (bs : List Byte) : List Instr := .estart :: counts bs ++ .build :: encs bs ++ [.finish]

/-- `DECOMPRESS T, B` (R77). -/
def decompress (tr bs : List Byte) : List Instr :=
  .dstart :: loadts tr ++ .tend :: pushbs bs ++ [.dend]

/-- The bytes a list of transfers carries on one channel: OUT_TREE, OUT_BITS or OUT_DATA (R53). -/
def onChannel (ch : Channel) (ts : List Transfer) : List Byte :=
  ts.filterMap fun t => if t.ch = ch then some t.byte else none

/-- The transfers emitted between two states of a run (R53). -/
def emittedSince (s t : State) : List Transfer := t.out.drop s.out.length

/-- One hexadecimal digit, in capitals as the spec writes them (R76). -/
def hexDigit (n : Nat) : Char := if n < 10 then Char.ofNat (48 + n) else Char.ofNat (55 + n)

/-- `0x` and two hexadecimal digits (R76). -/
def hexByte (b : Byte) : String :=
  "0x" ++ String.ofList [hexDigit (b.toNat / 16), hexDigit (b.toNat % 16)]

/-- The assembler text of a command (R76): the mnemonic, and for format B a space and the argument. -/
def asmText (i : Instr) : String :=
  match i.operand with
  | none => i.mnemonic
  | some b => i.mnemonic ++ " " ++ hexByte b

end Sys2Proof.Machine
end

