-- ==== Sys2Proof/Safety.lean ====
section
/-!
DEFINITION. What a safe run is, in the terms the statements use: the invariants of spec 10_state R22, R27,
R28, R34, R44, the outcome of a job (60_exceptions R188), the legal phases of the command table (30 R72).
-/

namespace Sys2Proof.Machine

/-- The column "legal in phase" of the command table (R72). -/
def legalIn : Instr → Phase → Bool
  | .clear, _ => true
  | .iofail, p => decide (p ≠ .fault)
  | .estart, p | .dstart, p => decide (p = .idle)
  | .count _, p | .build, p => decide (p = .eCount)
  | .enc _, p | .finish, p => decide (p = .eEncode)
  | .loadt _, p | .tend, p => decide (p = .dTree)
  | .pushb _, p | .dend, p => decide (p = .dBits)

/-- The job is over: it succeeded or it failed (R188). -/
def jobOver (s : State) : Bool := doneFlag s || faultedFlag s

/-- The table of reset values of R43, less TREE and POS, which it gives no meaning. -/
def resetValues (s : State) : Prop :=
  s.phase = .idle ∧ s.err = ⟨0, 0⟩ ∧ (∀ b, entry s.freq b = 0) ∧ s.nsym = 0 ∧ s.rem = 0 ∧
    (∀ b, entry s.code b = none) ∧ s.treeOk = false ∧ s.acc = [] ∧ s.hcnt = 0 ∧ s.pstk = [] ∧
    s.pleaf = none ∧ s.nint = 0 ∧ ∀ b, entry s.seen b = false

/-- The column "raised by" of the fault table (60_exceptions R177); WRONG_PHASE is raised by any command but
CLEAR and IOFAIL, ILLEGAL_OPCODE by no command. -/
def mayRaise : Instr → Cause → Bool
  | .clear, _ => false
  | .iofail, c => decide (c = .ioError)
  | .estart, c | .dstart, c => decide (c = .wrongPhase)
  | .count _, c => decide (c = .lengthOverflow ∨ c = .wrongPhase)
  | .build, c => decide (c = .empty ∨ c = .emptyCode ∨ c = .wrongPhase)
  | .enc _, c => decide (c = .noCode ∨ c = .extraSymbol ∨ c = .wrongPhase)
  | .finish, c => decide (c = .missingSymbols ∨ c = .wrongPhase)
  | .loadt _, c =>
    decide (c = .treeRootLeaf ∨ c = .treeTooManyInternal ∨ c = .treeDupLeaf ∨ c = .treeTrailing ∨
      c = .wrongPhase)
  | .tend, c => decide (c = .treeTruncated ∨ c = .wrongPhase)
  | .pushb _, c => decide (c = .bitsExtra ∨ c = .walkOffTree ∨ c = .wrongPhase)
  | .dend, c => decide (c = .bitsTruncated ∨ c = .wrongPhase)

/-- The codes of a sequence of byte values, joined; `none` where a byte has no code (30_encoding R82). -/
def codesJoined (code : Table (Option Bits)) : List Byte → Option Bits
  | [] => some []
  | b :: bs => (entry code b).bind fun c => (codesJoined code bs).map fun cs => c ++ cs

/-- Trees the loader accepts: `Internal` at the root, distinct leaf values, at most 255 internal nodes
(30_encoding R84 (b)). -/
def loadable (t : Tree) : Prop := isInternal t = true ∧ (leaves t).Nodup ∧ internals t ≤ 255

/-- The sum of all FREQ[i] (R24). -/
def freqSum (freq : Table Count) : Nat := (allBytes.map fun b => (entry freq b).toNat).sum

/-- Every element of the block has its reset value (R43, R44). -/
def atReset (s : State) : Prop := clearBlock s = s

/-- The decoder elements have their reset values (R44). -/
def decoderAtReset (s : State) : Prop :=
  s.hcnt = 0 ∧ s.pstk = [] ∧ s.pleaf = none ∧ s.nint = 0 ∧ s.seen = State.reset.seen ∧
    s.pos = State.reset.pos

/-- The invariants of R44, phase by phase, word for word but for the two counts of events (R44's "number of
ENC commands" and "number of bytes emitted on DATA"), which speak of the history of a job. -/
def phaseFacts (s : State) : Prop :=
  match s.phase with
  | .idle => atReset s
  | .eCount =>
    s.nsym.toNat = freqSum s.freq ∧ s.treeOk = false ∧ s.acc = [] ∧ s.rem = 0 ∧ decoderAtReset s
  | .eEncode =>
    1 ≤ s.nsym.toNat ∧ s.nsym.toNat = freqSum s.freq ∧ s.treeOk = true ∧
      (∀ b, entry s.freq b ≠ 0 → entry s.code b ≠ none) ∧ s.rem.toNat ≤ s.nsym.toNat ∧
      s.acc.length ≤ 7
  | .dTree =>
    (∀ b, entry s.freq b = 0) ∧ s.hcnt ≤ 8 ∧
      (s.hcnt < 8 → s.pstk = [] ∧ s.pleaf = none ∧ s.nint = 0 ∧ s.treeOk = false) ∧
      s.pstk.length ≤ s.nint ∧ s.nint ≤ 255 ∧ (s.treeOk = true → s.pstk = [] ∧ s.pleaf = none)
  | .dBits =>
    s.treeOk = true ∧ s.hcnt = 8 ∧ s.rem.toNat ≤ s.nsym.toNat ∧ isInternal s.pos = true
  | .done => s.rem = 0 ∧ s.acc = [] ∧ s.treeOk = true
  | .fault => True

/-- A code table read off a tree: every entry is the path of its leaf, of 1 to 255 bits, and every leaf has
one (R26). -/
def codesOf (t : Tree) (code : Table (Option Bits)) : Prop :=
  (∀ b p, entry code b = some p → follow t p = some (.leaf b) ∧ 1 ≤ p.length ∧ p.length ≤ 255) ∧
    ∀ b, entry code b ≠ none ↔ b ∈ leaves t

/-- The leaf values of the finished left subtrees on the deserializer's stack. -/
def stackLeaves : List Frame → List Byte
  | [] => []
  | .needLeft :: st => stackLeaves st
  | .needRight l :: st => stackLeaves st ++ leaves l

/-- The internal nodes on the deserializer's stack: the open ones and those of finished left subtrees. -/
def stackInternals : List Frame → Nat
  | [] => 0
  | .needLeft :: st => stackInternals st + 1
  | .needRight l :: st => stackInternals st + internals l + 1

/-- What the tree loader has built so far is consistent (R30 to R33): SEEN marks exactly the finished
leaves, no value twice; NINT is the number of internal nodes; a leaf is open only inside an open node. -/
def loaderFacts (s : State) : Prop :=
  let done := stackLeaves s.pstk ++ (if s.treeOk then leaves s.tree else [])
  done.Nodup ∧ (∀ b, entry s.seen b = true ↔ b ∈ done) ∧
    s.nint = stackInternals s.pstk + (if s.treeOk then internals s.tree else 0) ∧
    (∀ p, s.pleaf = some p → s.pstk ≠ [] ∧ p.k ≤ 7 ∧ p.v.toNat < 2 ^ p.k)

/-- The invariant every step keeps. -/
structure Inv (s : State) : Prop where
  /-- R22: ERR.KIND is not 0 exactly in FAULT. -/
  errKind : s.err.kind ≠ 0 ↔ s.phase = .fault
  /-- R22, R177: ERR is (0, 0) or one of the faults of the table. -/
  errCause : s.err = ⟨0, 0⟩ ∨ ∃ c, s.err = errOf c
  /-- R44. -/
  phases : phaseFacts s
  /-- R27: a complete tree is Internal at its root, no value is at two leaves, and it fits the store (R10). -/
  wholeTree : s.phase ≠ .fault → s.treeOk = true →
    isInternal s.tree = true ∧ (leaves s.tree).Nodup ∧ internals s.tree ≤ 255
  /-- R28: ACC is empty outside E_ENCODE. -/
  accEmpty : s.phase ≠ .fault → s.phase ≠ .eEncode → s.acc = []
  /-- R23: FREQ stays all zero in a decompress job. -/
  freqZero : s.phase = .dTree ∨ s.phase = .dBits → ∀ b, entry s.freq b = 0
  /-- R26: in E_ENCODE the code table is that of the tree. -/
  codes : s.phase = .eEncode → codesOf s.tree s.code
  /-- R30 to R33. -/
  loader : s.phase = .dTree → loaderFacts s
  /-- R141: the header read so far is below `2^(8*HCNT)`. -/
  header : s.phase = .dTree → s.nsym.toNat < 2 ^ (8 * s.hcnt)
  /-- R34: POS is a subtree of TREE. -/
  walker : s.phase = .dBits → hasSubtree s.tree s.pos = true
  /-- R156: when no symbol is left to come the walk is at the root. -/
  atRoot : s.phase = .dBits → s.rem = 0 → s.pos = s.tree
  /-- R65: the host has taken no more than was emitted. -/
  taken : ∀ n, s.held = some n → n ≤ s.out.length

end Sys2Proof.Machine
end

