-- ==== Sys2Proof/Certificates/Slice0/Obligations.lean ====
section
/-!
DEFINITION. The statements for the provers, each from the numbered rules of the spec its docstring names.
-/

open Sys2Proof Sys2Proof.Machine

/-! ## Encoding -/

/-- 30_encoding sections 1, 2 and 4 (R70, R71, R72, R76): decode and encode agree. Decoding the word of a command
gives the command, with every argument byte; a word that decodes is the word of the command it decodes to; every
other word is refused. -/
def Obligations.DecodeOfEncode : Prop :=
  (∀ i : Instr, decode (encode i) = .ok i) ∧ (∀ (w : CmdWord) (i : Instr), decode w = .ok i → w = encode i) ∧
  ∀ w : CmdWord, (∀ i, w ≠ encode i) → ∃ e, decode w = .error e

/-- R72: a word selects a row when `(w & mask) = match`; the row selected is the row of the command decoded;
no two rows overlap. -/
def Obligations.CommandTableSelects : Prop :=
  (∀ i : Instr, ∃ r ∈ commandTable, r.mnemonic = i.mnemonic ∧
    ∀ w, (w &&& r.mask = r.matchBits ↔ ∃ j, decode w = .ok j ∧ j.mnemonic = i.mnemonic)) ∧
  ∀ r ∈ commandTable, ∀ r' ∈ commandTable, ∀ w : CmdWord,
    w &&& r.mask = r.matchBits → w &&& r'.mask = r'.matchBits → r = r'

/-- R74: the illegal words are those no row matches: an unknown opcode, or a format-Z opcode with a nonzero
argument. An illegal word raises ProtocolError(ILLEGAL_OPCODE) in any phase but FAULT, where it is discarded.
There are 1032 legal words and 64504 illegal ones. -/
def Obligations.IllegalWords : Prop :=
  (∀ w : CmdWord, legalWord w = false ↔
    (opField w ∉ [0x01, 0x02, 0x10, 0x11, 0x12, 0x13, 0x14, 0x20, 0x21, 0x22, 0x23, 0x24] ∨
      (opField w ∈ [0x01, 0x02, 0x10, 0x12, 0x14, 0x20, 0x22, 0x24] ∧ argField w ≠ 0x00))) ∧
  legalWord 0x1201 = false ∧
  (∀ (w : CmdWord) (s : State), legalWord w = false →
    (s.phase ≠ .fault → runWord w s = .next (raise .illegalOpcode s)) ∧
    (s.phase = .fault → runWord w s = .next s)) ∧
  (∃ ws : List CmdWord, ws.Nodup ∧ ws.length = 1032 ∧ ∀ w, w ∈ ws ↔ legalWord w = true) ∧
  (∃ ws : List CmdWord, ws.Nodup ∧ ws.length = 64504 ∧ ∀ w, w ∈ ws ↔ legalWord w = false)

/-- R73: the dispatch of a word, in its order. -/
def Obligations.DispatchOfWord : Prop :=
  ∀ (w : CmdWord) (s : State),
    (s.phase = .fault → w = 0x0100 → runWord w s = execClear s) ∧
    (s.phase = .fault → w ≠ 0x0100 → runWord w s = .next s) ∧
    (s.phase ≠ .fault → (∀ r ∈ commandTable, w &&& r.mask ≠ r.matchBits) →
      runWord w s = .next (raise .illegalOpcode s)) ∧
    (s.phase ≠ .fault → w = 0x0100 → runWord w s = execClear s) ∧
    (s.phase ≠ .fault → w = 0x0200 → runWord w s = .next (raise .ioError s)) ∧
    (∀ i, s.phase ≠ .fault → decode w = .ok i → legalIn i s.phase = false →
      runWord w s = .next (raise .wrongPhase s)) ∧
    (∀ i, s.phase ≠ .fault → decode w = .ok i → legalIn i s.phase = true → runWord w s = exec i s)

/-- 95 V16 and R76: words written out from the table decode to the commands they stand for. -/
def Obligations.DecodesSpecWords : Prop :=
  decode 0x0100 = .ok .clear ∧ decode 0x0200 = .ok .iofail ∧ decode 0x1000 = .ok .estart ∧
  decode 0x1141 = .ok (.count 0x41) ∧ decode 0x1200 = .ok .build ∧ decode 0x1341 = .ok (.enc 0x41) ∧
  decode 0x1400 = .ok .finish ∧ decode 0x2000 = .ok .dstart ∧ decode 0x2128 = .ok (.loadt 0x28) ∧
  decode 0x2200 = .ok .tend ∧ decode 0x239A = .ok (.pushb 0x9A) ∧ decode 0x2400 = .ok .dend

/-! ## A step, the ports, the host -/

/-- R41, R51, R60: when the host's next event is a word that decodes to a command and no output is pending, a
step runs that command, with the event taken and the index moved on by 1. The list of host events, and `before`, which
keeps what the status registers showed before the command, are the model's form (log entries 1, 10 and 14). -/
def Obligations.StepRunsDecodedCommand : Prop :=
  ∀ (s : State) (w : CmdWord) (rest : List HostEvent) (i : Instr),
    s.port = .word w :: rest → outputPending s = false → decode w = .ok i →
      step s = exec i
        { s with port := rest, index := s.index + 1, before := ⟨s.phase, s.err, s.nsym, s.rem, s.treeOk⟩ }

/-- R41, R73, R74: the same for a word that is no command. -/
def Obligations.StepTakesIllegalWord : Prop :=
  ∀ (s u : State) (w : CmdWord) (rest : List HostEvent) (e : DecodeError),
    s.port = .word w :: rest → outputPending s = false → decode w = .error e →
      u = { s with
        port := rest, index := s.index + 1, before := ⟨s.phase, s.err, s.nsym, s.rem, s.treeOk⟩ } →
      step s = if s.phase = .fault then .next u else .next (raise .illegalOpcode u)

/-- R65, R188, R192, R210, R211: with no event the block waits and keeps all state; while an emitted byte is not taken
no word is accepted, and the words `ws` stay in order; but the host may still take bytes, all, one at a time or no
more, and once all are taken words are accepted again. Once a byte of a command is taken, reads show the state after
it (R60, log entry 14). The events and `held` are the model's form of the ports (log entries 1 and 2). -/
def Obligations.HostAndBlockWait : Prop :=
  ∀ (s : State) (ws : List CmdWord) (rest : List HostEvent), ws = [] ∨ outputPending s = true →
    (s.port = ws.map .word → step s = .next s) ∧
    (s.port = ws.map .word ++ .takeAll :: rest → ∃ t, step s = .next t ∧ outputPending t = false ∧
      takenOut t = s.out ∧ t = { s with port := ws.map .word ++ rest, held := none }) ∧
    (s.port = ws.map .word ++ .takeOne :: rest → outputPending s = true → ∃ t b, step s = .next t ∧
      takenOut t = takenOut s ++ [b] ∧ t = { s with
        port := ws.map .word ++ rest, held := t.held,
        before := ⟨s.phase, s.err, s.nsym, s.rem, s.treeOk⟩ }) ∧
    (s.port = ws.map .word ++ .takeOne :: rest → outputPending s = false →
      step s = .next { s with port := ws.map .word ++ rest }) ∧
    (s.port = ws.map .word ++ .stopTaking :: rest → ∃ t, step s = .next t ∧ outputPending t = outputPending s ∧
      t.held ≠ none ∧ (outputPending s = true → t.held = s.held) ∧ (s.held = none → takenOut t = s.out) ∧
      t = { s with port := ws.map .word ++ rest, held := t.held })

/-- R36, R60, R167, R211: a status read returns a value between two commands, in every phase and also while the host
is taking the bytes of a command, with words waiting behind them; it changes nothing of the block and is no command.
Between two commands it returns the present value. While bytes are being taken it returns the registers as in `u`: the
present ones, or those of the boundary kept in `before`, which of them the spec leaves open (a free value, log entry 14).
It keeps the boundary it has shown, so that no later read goes back; with the present one kept it is the present value. -/
def Obligations.StatusReadHasNoEffect : Prop :=
  ∀ (s : State) (r : StatusReg) (ws : List CmdWord) (rest : List HostEvent),
    s.port = ws.map .word ++ .read r :: rest → ws = [] ∨ outputPending s = true →
      ∃ t u, step s = .next t ∧ t.reads = s.reads ++ [(r, statusValue u r)] ∧
        t = { s with
          port := ws.map .word ++ rest, reads := t.reads, freeCount := t.freeCount,
          before := ⟨u.phase, u.err, u.nsym, u.rem, u.treeOk⟩ } ∧
        (outputPending s = false → u = s) ∧
        (outputPending s = true → u = s ∨ u =
          { s with
            phase := s.before.phase, err := s.before.err, nsym := s.before.nsym, rem := s.before.rem,
            treeOk := s.before.treeOk }) ∧
        (s.before = ⟨s.phase, s.err, s.nsym, s.rem, s.treeOk⟩ → u = s)

/-- R37 and R38: the fields of STATUS and ERRREG. -/
def Obligations.StatusRegisterFields : Prop :=
  ∀ s : State,
    statusValue s .status = .byte (statusByte s) ∧ statusValue s .errreg = .byte (errByte s) ∧
    (statusByte s).extractLsb' 0 3 = phaseCode s.phase ∧
    ((statusByte s).getLsbD 3 = true ↔ s.phase = .done) ∧
    ((statusByte s).getLsbD 4 = true ↔ s.phase = .fault) ∧
    (s.phase ≠ .fault → (statusByte s).getLsbD 5 = s.treeOk) ∧
    (statusByte s).extractLsb' 6 2 = 0 ∧
    (errByte s).extractLsb' 0 3 = s.err.kind ∧ (errByte s).extractLsb' 3 4 = s.err.sub ∧
    (errByte s).getLsbD 7 = false ∧
    (Inv s → (errByte s).extractLsb' 0 3 ≠ 6 ∧ (errByte s).extractLsb' 0 3 ≠ 7) ∧
    phaseCode .idle = 0 ∧ phaseCode .eCount = 1 ∧ phaseCode .eEncode = 2 ∧ phaseCode .dTree = 3 ∧
    phaseCode .dBits = 4 ∧ phaseCode .done = 5 ∧ phaseCode .fault = 6

/-- R39: PHASE, DONE, FAULTED and ERRREG are exact in every phase; outside FAULT so are TREE_OK, NSYM and REM.
Of what FAULT leaves open nothing is said. -/
def Obligations.StatusExactness : Prop :=
  ∀ s : State,
    (s.phase = .fault → statusByte s &&& 0x1F = 0x16) ∧
    (s.phase ≠ .fault → statusValue s .nsym = .wide s.nsym ∧ statusValue s .rem = .wide s.rem) ∧
    (s.phase ≠ .fault → statusByte s =
      (if s.treeOk then 0x20 else 0) ||| (if s.phase = .done then 0x08 else 0) |||
        (phaseCode s.phase).zeroExtend 8) ∧
    errByte s = (s.err.sub.zeroExtend 8 <<< 3) ||| s.err.kind.zeroExtend 8

/-- R43: hardware reset and CLEAR give every element the value of the table; then STATUS and ERRREG read 0x00,
registers 2 and 3 read 0, and the outputs `done` and `fault` are 0. The reset event is the model's form of hardware
reset (log entry 1); TREE and POS, to which R43 gives no meaning, are left out (log entry 5). -/
def Obligations.ResetAndClearValues : Prop :=
  resetValues State.reset ∧
  (∀ s : State, ∃ t, exec .clear s = .next t ∧ resetValues t) ∧
  (∀ (s : State) (l : Option CmdWord) (rest : List HostEvent), s.port = .reset l :: rest →
    ∃ t, step s = .next t ∧ resetValues t) ∧
  ∀ s : State, resetValues s →
    statusByte s = 0x00 ∧ errByte s = 0x00 ∧ statusValue s .nsym = .wide 0 ∧
      statusValue s .rem = .wide 0 ∧ doneFlag s = false ∧ faultedFlag s = false

/-- R201, R211: a reset abandons the job: no flush, no fault record, no DONE; bytes taken before it stay what they
were; the output port is idle after it; a word in transfer is lost. It also happens while a word `w` waits for emitted
bytes to be taken, and gets the block out. That a byte offered and not taken is gone, and that the waiting word is the
one that is lost, are the model's readings (log entries 3 and 4). -/
def Obligations.HardwareReset : Prop :=
  (∀ (s : State) (l : Option CmdWord) (rest : List HostEvent), s.port = .reset l :: rest →
    ∃ t, step s = .next t ∧ resetValues t ∧ t.out = takenOut s ∧ outputPending t = false ∧
      t.port = rest ∧ t.index = s.index ∧ t.reads = s.reads) ∧
  ∀ (s : State) (w : CmdWord) (ws : List CmdWord) (l : Option CmdWord) (rest : List HostEvent),
    s.port = .word w :: ws.map .word ++ .reset l :: rest → outputPending s = true →
      ∃ t, step s = .next t ∧ resetValues t ∧ t.out = takenOut s ∧ outputPending t = false ∧
        t.port = ws.map .word ++ rest ∧ t.index = s.index ∧ t.reads = s.reads

/-! ## Job control and faults -/

/-- R165: CLEAR, in every phase: every element to its reset value, nothing emitted, nothing taken back; in IDLE
it changes nothing. No other command leaves DONE and FAULT, has an effect in FAULT, or ends in IDLE. -/
def Obligations.ClearRule : Prop :=
  decode 0x0100 = .ok .clear ∧
  ∀ s : State,
    exec .clear s = .next (clearBlock s) ∧ resetValues (clearBlock s) ∧ (clearBlock s).out = s.out ∧
    statusByte (clearBlock s) = 0x00 ∧ errByte (clearBlock s) = 0x00 ∧
    (clearBlock s).port = s.port ∧ (clearBlock s).index = s.index ∧ (clearBlock s).held = s.held ∧
    (clearBlock s).reads = s.reads ∧ (clearBlock s).before = s.before ∧ (clearBlock s).freeCount = s.freeCount ∧
    (Inv s → s.phase = .idle → clearBlock s = s) ∧
    (∀ i : Instr, i ≠ .clear → s.phase = .fault → exec i s = .next s) ∧
    (∀ (i : Instr) (t : State), i ≠ .clear → exec i s = .next t → t.phase ≠ .idle) ∧
    ∀ (i : Instr) (t : State), i ≠ .clear → s.phase = .done ∨ s.phase = .fault → exec i s = .next t →
      t.phase = .done ∨ t.phase = .fault

/-- R166: IOFAIL raises IOError(0) in every phase but FAULT, where it is discarded; it emits nothing. -/
def Obligations.IofailRule : Prop :=
  decode 0x0200 = .ok .iofail ∧
  ∀ s : State,
    (s.phase ≠ .fault → exec .iofail s = .next { s with phase := .fault, err := ⟨1, 0⟩ }) ∧
    (s.phase = .fault → exec .iofail s = .next s) ∧
    (∀ t, s.phase ≠ .fault → exec .iofail s = .next t →
      doneFlag t = false ∧ statusByte t &&& 0x1F = 0x16 ∧ errByte t = 0x01 ∧ t.out = s.out)

/-- R168: in FAULT every word other than CLEAR is discarded: no state changes, nothing is emitted, ERR keeps the
first fault. -/
def Obligations.FaultDiscardsWords : Prop :=
  ∀ s : State, s.phase = .fault →
    (∀ i : Instr, i ≠ .clear → exec i s = .next s) ∧ ∀ w : CmdWord, w ≠ 0x0100 → runWord w s = .next s

/-- R185: fault entry writes ERR.KIND, ERR.SUB and PHASE and nothing else; then the outputs are `fault` = 1 and
`done` = 0. -/
def Obligations.FaultEntry : Prop :=
  ∀ (c : Cause) (s : State),
    (raise c s).err = errOf c ∧ (raise c s).phase = .fault ∧ faultedFlag (raise c s) = true ∧
      doneFlag (raise c s) = false ∧ { raise c s with err := s.err, phase := s.phase } = s

/-- R176 and the columns KIND and SUB of R177; two faults of the table never share a code. -/
def Obligations.FaultCodes : Prop :=
  errOf .ioError = ⟨1, 0⟩ ∧ errOf .empty = ⟨2, 1⟩ ∧ errOf .lengthOverflow = ⟨2, 2⟩ ∧
  errOf .emptyCode = ⟨3, 1⟩ ∧ errOf .noCode = ⟨3, 2⟩ ∧ errOf .extraSymbol = ⟨3, 3⟩ ∧
  errOf .missingSymbols = ⟨3, 4⟩ ∧ errOf .treeRootLeaf = ⟨4, 1⟩ ∧
  errOf .treeTooManyInternal = ⟨4, 2⟩ ∧ errOf .treeDupLeaf = ⟨4, 3⟩ ∧ errOf .treeTrailing = ⟨4, 4⟩ ∧
  errOf .treeTruncated = ⟨4, 5⟩ ∧ errOf .bitsExtra = ⟨4, 6⟩ ∧ errOf .bitsTruncated = ⟨4, 7⟩ ∧
  errOf .walkOffTree = ⟨4, 8⟩ ∧ errOf .illegalOpcode = ⟨5, 1⟩ ∧ errOf .wrongPhase = ⟨5, 2⟩ ∧
  (∀ c, (errOf c).kind ≠ 0 ∧ (errOf c).kind ≠ 6 ∧ (errOf c).kind ≠ 7) ∧
  (∀ s : State, Inv s → (s.err.kind = 0 ↔ s.phase ≠ .fault) ∧ s.err.kind ≠ 6 ∧ s.err.kind ≠ 7) ∧
  ∀ c d, errOf c = errOf d → c = d

/-- R177: a command that ends in FAULT raised one of the faults the table gives it, and there is no other. -/
def Obligations.FaultsOfTheTable : Prop :=
  ∀ (i : Instr) (s t : State), s.phase ≠ .fault → exec i s = .next t → t.phase = .fault →
    ∃ c, mayRaise i c = true ∧ t.err = errOf c

/-- R187, R168: FAULT is left by CLEAR or by hardware reset alone, and then every element has its reset value;
any other step keeps the phase and the first fault. -/
def Obligations.OnlyClearOrResetLeavesFault : Prop :=
  ∀ s t : State, s.phase = .fault → step s = .next t →
    (t.phase = .fault ∧ t.err = s.err ∧ t.out = s.out) ∨
    (resetValues t ∧ ∃ (ws : List CmdWord) (rest : List HostEvent), s.port = .word 0x0100 :: rest ∨
      ∃ l, s.port = ws.map .word ++ .reset l :: rest ∧ (ws = [] ∨ outputPending s = true))

/-! ## FrequencyCounter -/

/-- R101: ESTART. -/
def Obligations.EstartRule : Prop :=
  decode 0x1000 = .ok .estart ∧
  (∀ s : State,
    (s.phase = .idle → exec .estart s = .next { s with phase := .eCount }) ∧
    (s.phase ≠ .idle → s.phase ≠ .fault → exec .estart s = .next (raise .wrongPhase s)) ∧
    (Inv s → s.phase = .idle → (∀ b, entry s.freq b = 0) ∧ s.nsym = 0 ∧
      statusByte { s with phase := .eCount } = 0x01)) ∧
  ∃ t, exec .estart State.reset = .next t ∧ t.phase = .eCount ∧ statusByte t = 0x01

/-- R102: COUNT. The order of the commands of a run does not matter. The example is the source's scenario. That the
additions do not wrap is stated in CountAdditionsDoNotWrap. -/
def Obligations.CountRule : Prop :=
  (∀ b : Byte, decode (0x1100 ||| b.zeroExtend 16) = .ok (.count b)) ∧
  (∀ (b : Byte) (s : State),
    (s.phase = .eCount → s.nsym ≠ BitVec.allOnes 64 →
      exec (.count b) s =
        .next { s with freq := setEntry s.freq b (entry s.freq b + 1), nsym := s.nsym + 1 } ∧
      (∀ c, entry (setEntry s.freq b (entry s.freq b + 1)) c =
        if c = b then entry s.freq b + 1 else entry s.freq c)) ∧
    (s.phase = .eCount → s.nsym = BitVec.allOnes 64 →
      exec (.count b) s = .next (raise .lengthOverflow s)) ∧
    (s.phase ≠ .eCount → s.phase ≠ .fault → exec (.count b) s = .next (raise .wrongPhase s))) ∧
  (∀ (bs cs : List Byte) (s : State), bs.Perm cs → s.phase = .eCount → s.nsym.toNat + bs.length < 2 ^ 64 →
    sendAll (counts bs) s = sendAll (counts cs) s) ∧
  ∃ t, sendAll (.estart :: counts [0x41, 0x42, 0x41, 0x41, 0x43]) State.reset = .next t ∧
    entry t.freq 0x41 = 3 ∧ entry t.freq 0x42 = 1 ∧ entry t.freq 0x43 = 1 ∧ t.nsym = 5 ∧
    ∀ b, b ∉ [0x41, 0x42, 0x43] → entry t.freq b = 0

/-- An inference the spec marks as its own (R102: "both additions are unsigned 64-bit and cannot wrap ... [derived:
from `10_state.md` rule R24]"): neither addition of COUNT wraps, FREQ's because no entry exceeds NSYM. -/
def Obligations.CountAdditionsDoNotWrap : Prop :=
  ∀ (b : Byte) (s t : State), Inv s → s.phase = .eCount → s.nsym ≠ BitVec.allOnes 64 →
    exec (.count b) s = .next t →
      (entry s.freq b).toNat ≤ s.nsym.toNat ∧ t.nsym.toNat = s.nsym.toNat + 1 ∧
        (entry t.freq b).toNat = (entry s.freq b).toNat + 1

/-- R103, R23, R24: a run of COUNT commands adds to each FREQ entry the number of times its value occurs, and to NSYM
the number of commands; nothing else changes. An inference the spec marks as its own (R103: "The table after a run of
`COUNT` commands is the same ... [derived]"). -/
def Obligations.CountingIsByMultiset : Prop :=
  ∀ (bs : List Byte) (s : State), s.phase = .eCount → s.nsym.toNat + bs.length < 2 ^ 64 →
    ∃ t, sendAll (counts bs) s = .next t ∧ t.nsym.toNat = s.nsym.toNat + bs.length ∧
      (∀ b, entry t.freq b = entry s.freq b + BitVec.ofNat 64 (bs.count b)) ∧
      t = { s with freq := t.freq, nsym := t.nsym }

/-! ## TreeBuilder and CodeTable -/

/-- R110: BUILD. The example is the source's scenario. -/
def Obligations.BuildRule : Prop :=
  decode 0x1200 = .ok .build ∧
  (∀ s : State,
    (s.phase = .eCount → s.nsym = 0 → exec .build s = .next (raise .empty s)) ∧
    (s.phase = .eCount → s.nsym ≠ 0 → (∃ b, entry s.freq b ≠ 0) →
      ∃ t code, merge (initQueue s.freq) = some t ∧ isInternal t = true ∧
        deriveCodes t [] noCodes = some code ∧
        11 ≤ (be64 s.nsym ++ pack (ser t)).length ∧ (be64 s.nsym ++ pack (ser t)).length ≤ 328 ∧
        exec .build s = .next
          { s with
            tree := t, code := code, treeOk := true, rem := s.nsym, phase := .eEncode,
            out := s.out ++ (be64 s.nsym ++ pack (ser t)).map (Transfer.mk .tree) }) ∧
    (Inv s → s.phase = .eCount → s.nsym ≠ 0 → ∃ b, entry s.freq b ≠ 0) ∧
    (∀ t, s.phase = .eCount → exec .build s = .next t → t.phase = .eEncode → statusByte t = 0x22) ∧
    (s.phase ≠ .eCount → s.phase ≠ .fault → exec .build s = .next (raise .wrongPhase s))) ∧
  ∀ s : State, s.phase = .eCount → s.nsym = 5 →
    (∀ b, entry s.freq b = if b = 0x41 then 3 else if b = 0x42 then 1 else if b = 0x43 then 1 else 0) →
    ∃ t, exec .build s = .next t ∧
      t.tree = .node (.node (.leaf 0x42) (.leaf 0x43)) (.leaf 0x41) ∧
      entry t.code 0x41 = some [true] ∧ entry t.code 0x42 = some [false, false] ∧
      entry t.code 0x43 = some [false, true] ∧ t.rem = 5 ∧ t.phase = .eEncode ∧
      t.out = s.out ++ ([0, 0, 0, 0, 0, 0, 0, 5, 0x28, 0x54, 0x3A, 0x08] : List Byte).map
        (Transfer.mk .tree)

/-- R111: the queue `InitQueue` makes: one entry per distinct byte value, weight its count and sequence number its
value; for one distinct value also the placeholder leaf of weight 0. The queue is in the order of extraction. -/
def Obligations.InitialQueue : Prop :=
  ∀ freq : Table Count,
    (2 ≤ (present freq).length → ∀ e, e ∈ initQueue freq ↔
      ∃ v, entry freq v ≠ 0 ∧ e = ⟨(entry freq v).toNat, v.toNat, .leaf v⟩) ∧
    (∀ b, (∀ v, entry freq v ≠ 0 ↔ v = b) → ∀ e, e ∈ initQueue freq ↔
      (e = ⟨0, if b = 0x00 then 1 else 0, .leaf (if b = 0x00 then 0x01 else 0x00)⟩ ∨
        e = ⟨(entry freq b).toNat, b.toNat, .leaf b⟩)) ∧
    ((∃ b, entry freq b ≠ 0) → 2 ≤ (initQueue freq).length ∧ (initQueue freq).length ≤ 256) ∧
    ((initQueue freq).map QEntry.seq).Nodup ∧
    (initQueue freq).Pairwise fun a b => before a b = true

/-- R112: each merge takes the two entries that come first in the order (weight, seq), the first as the left child,
and inserts the new entry where that order puts it; L entries take L - 1 merges. What this says of the leaves and of
the number of internal nodes of the result is an inference the spec marks as its own ("The result is a strict binary
tree with `L` leaves and `L - 1` internal nodes whose leaf values are exactly the values of the initial entries
[derived]"). -/
def Obligations.MergeTakesTheTwoSmallest : Prop :=
  (∀ (fuel mseq : Nat) (a b : QEntry) (q : List QEntry),
    (a :: b :: q).Pairwise (fun x y => before x y = true) → (∀ e ∈ a :: b :: q, e.seq < 256 + mseq) →
    ∃ q', mergeLoop (fuel + 1) mseq (a :: b :: q) = mergeLoop fuel (mseq + 1) q' ∧
      q'.Perm (⟨a.w + b.w, 256 + mseq, .node a.t b.t⟩ :: q) ∧
      q'.Pairwise (fun x y => before x y = true) ∧ (∀ e ∈ q', e.seq < 256 + (mseq + 1)) ∧
      (∀ e ∈ b :: q, before a e = true) ∧ ∀ e ∈ q, before b e = true) ∧
  ∀ q : List QEntry, q ≠ [] →
    ∃ e, mergeLoop (q.length - 1) 0 q = [e] ∧ merge q = some e.t ∧
      (leaves e.t).Perm (q.flatMap fun x => leaves x.t) ∧ e.w = (q.map QEntry.w).sum ∧
      ((∀ x ∈ q, internals x.t = 0) → internals e.t = q.length - 1)

/-- R27, R10, R116, inferences the spec marks as its own ("Whenever `TREE_OK = 1` ... [derived]"): the tree BUILD
makes is `Internal` at its root, its leaf values are distinct, 2 to 256 of them, at most 255 internal nodes, and every
value that occurred is at a leaf; so EMPTY_CODE is not raised. -/
def Obligations.BuiltTreeShape : Prop :=
  ∀ freq : Table Count, (∃ b, entry freq b ≠ 0) →
    ∃ t, buildTree freq = some t ∧ isInternal t = true ∧ (leaves t).Nodup ∧ 2 ≤ (leaves t).length ∧
      (leaves t).length ≤ 256 ∧ internals t ≤ 255 ∧
      (∀ b, entry freq b ≠ 0 → b ∈ leaves t) ∧
      (2 ≤ (present freq).length → ∀ b, b ∈ leaves t ↔ entry freq b ≠ 0)

/-- R114: one distinct byte value: the placeholder is the left child with code "0", the real byte the right child
with code "1". -/
def Obligations.OneSymbolTree : Prop :=
  ∀ (s : State) (b : Byte), s.phase = .eCount → s.nsym ≠ 0 → (∀ v, entry s.freq v ≠ 0 ↔ v = b) →
    ∃ t, exec .build s = .next t ∧ t.phase = .eEncode ∧
      t.tree = .node (.leaf (if b = 0x00 then 0x01 else 0x00)) (.leaf b) ∧
      entry t.code (if b = 0x00 then 0x01 else 0x00) = some [false] ∧ entry t.code b = some [true] ∧
      exec (.enc (if b = 0x00 then 0x01 else 0x00)) t = .next (raise .noCode t)

/-- R113, which the spec marks as an inference ("stated as consequences of rule R112 [derived]"): the tie-break among
entries of equal weight: a leaf before any internal node, among leaves the lower byte value, among internal nodes the
one made earlier; and the rule's example. -/
def Obligations.TieBreak : Prop :=
  (∀ (w m : Nat) (v : Byte) (t u : Tree), before ⟨w, v.toNat, t⟩ ⟨w, 256 + m, u⟩ = true) ∧
  (∀ (w : Nat) (v v' : Byte) (t u : Tree), v < v' → before ⟨w, v.toNat, t⟩ ⟨w, v'.toNat, u⟩ = true) ∧
  (∀ (w m m' : Nat) (t u : Tree), m < m' → before ⟨w, 256 + m, t⟩ ⟨w, 256 + m', u⟩ = true) ∧
  ∀ freq : Table Count,
    (∀ b, entry freq b = if b = 0x61 then 1 else if b = 0x62 then 1 else if b = 0x63 then 2 else 0) →
      buildTree freq = some (.node (.leaf 0x63) (.node (.leaf 0x61) (.leaf 0x62)))

/-- R119, which the spec marks as an inference ("[derived: from rule R112]"): with every byte value counted once, the
codes are the eight bits of the value. -/
def Obligations.AllValuesOnce : Prop :=
  ∀ s : State, s.phase = .eCount → s.nsym = 256 → (∀ b, entry s.freq b = 1) →
    ∃ t, exec .build s = .next t ∧ t.phase = .eEncode ∧ (∀ b, entry t.code b = some (bits8 b)) ∧
      (ser t.tree).length = 2559 ∧ (onChannel .tree (emittedSince s t)).length = 328

/-- R116, R26: the derived table holds for every leaf the path from the root to it, 0 for left and 1 for right, of
1 to 255 bits in a tree of at most 255 internal nodes, and no other entry. -/
def Obligations.CodesArePaths : Prop :=
  ∀ t : Tree, isInternal t = true → (leaves t).Nodup →
    ∃ code, deriveCodes t [] noCodes = some code ∧
      (∀ b p, entry code b = some p ↔ follow t p = some (.leaf b)) ∧
      (∀ b, entry code b ≠ none ↔ b ∈ leaves t) ∧
      (∀ b p, entry code b = some p → 1 ≤ p.length ∧ p.length ≤ internals t)

/-- R117 (a), which the spec marks as an inference ("Properties of the derived table [derived]"): no derived code is a
prefix of another derived code. -/
def Obligations.CodesArePrefixFree : Prop :=
  ∀ (t : Tree) (code : Table (Option Bits)), deriveCodes t [] noCodes = some code →
    ∀ a b p q, entry code a = some p → entry code b = some q → p <+: q → a = b ∧ p = q

/-- R81, R80: the grammar of `ser`; no `ser(t)` is a prefix of another, so a decoder knows where the tree ends
without a length field (an inference the spec marks as its own: "`ser` is injective on trees ... [derived]"); tree and
count can be read back from the artifact. -/
def Obligations.SerializationEndsItself : Prop :=
  (∀ v : Byte, ser (.leaf v) = true :: bits8 v) ∧
  (∀ l r : Tree, ser (.node l r) = false :: (ser l ++ ser r)) ∧
  (∀ t u : Tree, ser t <+: ser u → t = u) ∧
  ∀ (n m : Count) (t u : Tree), treeArtifact n t = treeArtifact m u → n = m ∧ t = u

/-- R80: the length of the tree artifact: 8 + ceil((10*L - 1)/8) bytes, 11 for 2 leaves, 328 for 256. -/
def Obligations.TreeArtifactLayout : Prop :=
  ∀ (n : Count) (t : Tree),
    treeArtifact n t = be64 n ++ pack (ser t) ∧
    (treeArtifact n t).length = 8 + (10 * (leaves t).length - 1 + 7) / 8 ∧
    ((leaves t).length = 2 → (treeArtifact n t).length = 11) ∧
    ((leaves t).length = 256 → (treeArtifact n t).length = 328) ∧
    bitsOf (treeArtifact n t) = bitsOf (be64 n) ++ pad8 (ser t) ∧
    (be64 n).foldl appendByte 0 = n

/-! ## BitPacker -/

/-- R14, R54: bit `i` of a packed string, counted from 0 at the left, is bit `7 - i mod 8` of byte `i / 8`; the bits
past the string are 0; there are as many bytes as it takes. -/
def Obligations.PackedBits : Prop :=
  ∀ s : Bits, (pack s).length = (s.length + 7) / 8 ∧
    ∀ i, i < 8 * (pack s).length →
      ∃ b, (pack s)[i / 8]? = some b ∧ b.getLsbD (7 - i % 8) = s.getD i false

/-- R130: ENC. No bit is lost or moved between ACC, the code and the emitted bytes, and the number of bytes and of
pending bits is as stated. The example is the source's scenario. -/
def Obligations.EncRule : Prop :=
  (∀ b : Byte, decode (0x1300 ||| b.zeroExtend 16) = .ok (.enc b)) ∧
  (∀ (b : Byte) (s : State) (c : Bits),
    (s.phase = .eEncode → s.rem ≠ 0 → entry s.freq b ≠ 0 → entry s.code b = some c → s.acc.length ≤ 7 →
      ∃ (bytes : List Byte) (acc' : Bits), exec (.enc b) s = .next
          { s with acc := acc', rem := s.rem - 1, out := s.out ++ bytes.map (Transfer.mk .bits) } ∧
        bitsOf bytes ++ acc' = s.acc ++ c ∧ bytes.length = (s.acc.length + c.length) / 8 ∧
        acc'.length = (s.acc.length + c.length) % 8 ∧ (c.length ≤ 255 → bytes.length ≤ 32)) ∧
    (Inv s → s.phase = .eEncode → entry s.freq b ≠ 0 →
      ∃ c, entry s.code b = some c ∧ 1 ≤ c.length ∧ c.length ≤ 255) ∧
    (s.phase = .eEncode → s.rem = 0 → exec (.enc b) s = .next (raise .extraSymbol s)) ∧
    (s.phase = .eEncode → s.rem ≠ 0 → entry s.freq b = 0 →
      exec (.enc b) s = .next (raise .noCode s)) ∧
    (s.phase ≠ .eEncode → s.phase ≠ .fault → exec (.enc b) s = .next (raise .wrongPhase s))) ∧
  ∀ s : State, s.phase = .eEncode → s.rem = 5 → s.acc = [] → entry s.freq 0x41 ≠ 0 →
    entry s.freq 0x42 ≠ 0 → entry s.freq 0x43 ≠ 0 → entry s.code 0x41 = some [true] →
    entry s.code 0x42 = some [false, false] → entry s.code 0x43 = some [false, true] →
      sendAll (encs [0x41, 0x42, 0x41, 0x41, 0x43]) s =
        .next { s with acc := [true, false, false, true, true, false, true], rem := 0 }

/-- R131: FINISH. -/
def Obligations.FinishRule : Prop :=
  decode 0x1400 = .ok .finish ∧
  ∀ s : State,
    (s.phase = .eEncode → s.rem ≠ 0 → exec .finish s = .next (raise .missingSymbols s)) ∧
    (s.phase = .eEncode → s.rem = 0 → s.acc = [] → exec .finish s = .next { s with phase := .done }) ∧
    (s.phase = .eEncode → s.rem = 0 → s.acc ≠ [] → s.acc.length ≤ 7 → ∃ b, exec .finish s = .next
        { s with phase := .done, acc := [], out := s.out ++ [⟨.bits, b⟩] } ∧
      bits8 b = s.acc ++ List.replicate (8 - s.acc.length) false) ∧
    (s.phase = .eEncode → s.rem = 0 → s.acc = [true, false, false, true, true, false, true] →
      exec .finish s = .next { s with phase := .done, acc := [], out := s.out ++ [⟨.bits, 0x9A⟩] }) ∧
    (s.phase ≠ .eEncode → s.phase ≠ .fault → exec .finish s = .next (raise .wrongPhase s)) ∧
    (∀ t, s.phase = .eEncode → exec .finish s = .next t → t.phase ≠ .fault →
      doneFlag t = true ∧ (statusByte t).extractLsb' 0 3 = 5) ∧
    ∀ t, s.phase = .eCount → exec .build s = .next t → t.phase = .eEncode →
      exec .finish t = .next (raise .missingSymbols t)

/-- R132, R82, R204, inferences the spec marks as its own ("What a finished compress job has emitted [derived]"): a
compress job whose second pass is the sequence `es` ends in DONE exactly when the first pass
was not empty, the second has as many bytes, and every one occurred in the first; then BITS holds the packed codes
of `es` and TREE the tree artifact of the counts. -/
def Obligations.CompressJobOutput : Prop :=
  ∀ (ss es : List Byte) (s : State), resetValues s → ss.length < 2 ^ 64 →
    ((∃ t, sendAll (.estart :: counts ss ++ .build :: encs es ++ [.finish]) s = .next t ∧
        t.phase = .done) ↔
      (ss ≠ [] ∧ es.length = ss.length ∧ ∀ e ∈ es, e ∈ ss)) ∧
    ∀ t, sendAll (.estart :: counts ss ++ .build :: encs es ++ [.finish]) s = .next t →
      t.phase = .done →
      ∃ p, codesJoined t.code es = some p ∧ onChannel .bits (emittedSince s t) = pack p ∧
        onChannel .tree (emittedSince s t) = treeArtifact (BitVec.ofNat 64 ss.length) t.tree ∧
        (onChannel .bits (emittedSince s t)).length = (p.length + 7) / 8 ∧
        buildTree t.freq = some t.tree ∧ ∀ b, entry t.freq b = BitVec.ofNat 64 (ss.count b)

/-! ## Tree loader -/

/-- R140: DSTART. -/
def Obligations.DstartRule : Prop :=
  decode 0x2000 = .ok .dstart ∧
  (∀ s : State,
    (s.phase = .idle → exec .dstart s = .next { s with phase := .dTree }) ∧
    (s.phase ≠ .idle → s.phase ≠ .fault → exec .dstart s = .next (raise .wrongPhase s)) ∧
    (Inv s → s.phase = .idle → s.hcnt = 0 ∧ s.nsym = 0 ∧ s.pstk = [] ∧ s.pleaf = none ∧ s.nint = 0 ∧
      (∀ b, entry s.seen b = false) ∧ s.treeOk = false ∧ statusByte { s with phase := .dTree } = 0x03)) ∧
  ∃ t, exec .dstart State.reset = .next t ∧ t.phase = .dTree ∧ statusByte t = 0x03

/-- R141: LOADT. The loop over the bits of a byte ends when the tree is complete, or at a fault with the earlier
bits consumed. The example is the source's scenario. -/
def Obligations.LoadtRule : Prop :=
  (∀ b : Byte, decode (0x2100 ||| b.zeroExtend 16) = .ok (.loadt b)) ∧
  (∀ (b : Byte) (s : State),
    (s.phase = .dTree → s.hcnt < 8 →
      exec (.loadt b) s = .next { s with nsym := s.nsym * 256 + b.zeroExtend 64, hcnt := s.hcnt + 1 }) ∧
    (s.phase = .dTree → 8 ≤ s.hcnt → s.treeOk = true →
      exec (.loadt b) s = .next (raise .treeTrailing s)) ∧
    (s.phase = .dTree → 8 ≤ s.hcnt → s.treeOk = false → exec (.loadt b) s = .next (loadBits
      [b.getLsbD 7, b.getLsbD 6, b.getLsbD 5, b.getLsbD 4, b.getLsbD 3, b.getLsbD 2, b.getLsbD 1,
        b.getLsbD 0] s)) ∧
    (s.phase ≠ .dTree → s.phase ≠ .fault → exec (.loadt b) s = .next (raise .wrongPhase s)) ∧
    (Inv s → s.phase = .dTree → s.hcnt < 8 →
      (s.nsym * 256 + b.zeroExtend 64).toNat = s.nsym.toNat * 256 + b.toNat)) ∧
  (∀ (x : Bool) (xs : Bits) (s u : State) (c : Cause),
    loadBits [] s = s ∧ (s.treeOk = true → loadBits (x :: xs) s = s) ∧
    (s.treeOk = false → treeBit x s = .ok u → loadBits (x :: xs) s = loadBits xs u) ∧
    (s.treeOk = false → treeBit x s = .error c → loadBits (x :: xs) s = raise c s)) ∧
  ∃ t, sendAll (.dstart :: loadts [0, 0, 0, 0, 0, 0, 0, 5, 0x28, 0x54, 0x3A, 0x08]) State.reset =
      .next t ∧
    t.tree = .node (.node (.leaf 0x42) (.leaf 0x43)) (.leaf 0x41) ∧ t.treeOk = true ∧ t.nsym = 5 ∧
    t.hcnt = 8 ∧
    ∃ u, sendAll (.dstart :: loadts [0, 0, 0, 0, 0, 0, 0, 5, 0x28, 0x54, 0x3A]) State.reset = .next u ∧
      (loadBits [false, false, false, false] u).treeOk = false ∧
      (loadBits [false, false, false, false, true] u).treeOk = true

/-- R142: one bit of the serialized tree. A leaf tag finds the stack empty only as the tree's first bit, and the tree
stays within its bounds. -/
def Obligations.TreeBitRule : Prop :=
  ∀ (s : State),
    (Inv s → s.phase = .dTree → s.treeOk = false → s.pstk = [] →
      s.pleaf = none ∧ s.nint = 0 ∧ ∀ b, entry s.seen b = false) ∧
    (Inv s → s.phase ≠ .fault → s.treeOk = true → (leaves s.tree).length ≤ 256 ∧ internals s.tree ≤ 255) ∧
    (∀ k v x, s.pleaf = some ⟨k, v⟩ → k + 1 < 8 →
      treeBit x s = .ok { s with pleaf := some ⟨k + 1, 2 * v + if x then 1 else 0⟩ }) ∧
    (∀ k v x, s.pleaf = some ⟨k, v⟩ → 8 ≤ k + 1 → entry s.seen (2 * v + if x then 1 else 0) = true →
      treeBit x s = .error .treeDupLeaf) ∧
    (∀ k v x, s.pleaf = some ⟨k, v⟩ → 8 ≤ k + 1 → entry s.seen (2 * v + if x then 1 else 0) = false →
      treeBit x s = .ok (completeTree (.leaf (2 * v + if x then 1 else 0))
        { s with pleaf := none, seen := setEntry s.seen (2 * v + if x then 1 else 0) true })) ∧
    (s.pleaf = none → s.pstk = [] → treeBit true s = .error .treeRootLeaf) ∧
    (s.pleaf = none → s.pstk ≠ [] → treeBit true s = .ok { s with pleaf := some ⟨0, 0⟩ }) ∧
    (s.pleaf = none → s.nint = 255 → treeBit false s = .error .treeTooManyInternal) ∧
    (s.pleaf = none → s.nint ≠ 255 →
      treeBit false s = .ok { s with nint := s.nint + 1, pstk := .needLeft :: s.pstk })

/-- R143: a finished subtree closes every open node whose right subtree it is, and then either becomes the left
subtree of the innermost open node or is the whole tree; with an open node before it, the whole tree is Internal. -/
def Obligations.CompleteClosesNodes : Prop :=
  ∀ (t : Tree) (ls : List Tree) (st : List Frame) (s : State),
    (s.pstk = ls.map Frame.needRight ++ .needLeft :: st →
      completeTree t s = { s with pstk := .needRight (ls.foldl (fun u l => .node l u) t) :: st }) ∧
    (s.pstk = ls.map Frame.needRight →
      completeTree t s =
        { s with pstk := [], tree := ls.foldl (fun u l => .node l u) t, treeOk := true }) ∧
    (ls ≠ [] → isInternal (ls.foldl (fun u l => .node l u) t) = true)

/-- R144: TEND. -/
def Obligations.TendRule : Prop :=
  decode 0x2200 = .ok .tend ∧
  ∀ s : State,
    (s.phase = .dTree → s.hcnt < 8 ∨ s.treeOk = false → exec .tend s = .next (raise .treeTruncated s)) ∧
    (s.phase = .dTree → 8 ≤ s.hcnt → s.treeOk = true →
      exec .tend s = .next { s with rem := s.nsym, pos := s.tree, phase := .dBits } ∧
      statusByte { s with rem := s.nsym, pos := s.tree, phase := .dBits } = 0x24) ∧
    (s.phase ≠ .dTree → s.phase ≠ .fault → exec .tend s = .next (raise .wrongPhase s))

/-- R145, which the spec marks as an inference ("Tree serialization round trip [derived]"): the loader reads back the
tree artifact of every tree with an `Internal` root and distinct leaf values, and of every count; the loaded tree
derives the identical code table. Every tree BUILD makes is such a tree. -/
def Obligations.LoaderReadsBackTheArtifact : Prop :=
  (∀ freq : Table Count, (∃ b, entry freq b ≠ 0) →
    ∃ t, buildTree freq = some t ∧ isInternal t = true ∧ (leaves t).Nodup) ∧
  ∀ (n : Count) (t : Tree) (s : State), resetValues s → isInternal t = true → (leaves t).Nodup →
    ∃ u, sendAll (.dstart :: loadts (be64 n ++ pack (ser t)) ++ [.tend]) s = .next u ∧
      u.phase = .dBits ∧ u.tree = t ∧ u.nsym = n ∧ u.rem = n ∧ u.pos = t ∧
      deriveCodes u.tree [] noCodes = deriveCodes t [] noCodes

/-- R146, R84 (a) and (b), inferences the spec marks as its own ("What the loader accepts [derived]"): what it
accepts, and the tree it then holds; otherwise the job ends in FAULT with KIND = CorruptStream. -/
def Obligations.LoaderAcceptsExactly : Prop :=
  ∀ (bs : List Byte) (s : State), resetValues s →
    ∃ u, sendAll (.dstart :: loadts bs ++ [.tend]) s = .next u ∧
      (u.phase = .dBits ∨ (u.phase = .fault ∧ u.err.kind = 4)) ∧
      (u.phase = .dBits ↔ 9 ≤ bs.length ∧
        ∃ t pad, bitsOf (bs.drop 8) = ser t ++ pad ∧ pad.length < 8 ∧ loadable t) ∧
      (u.phase = .dBits → u.nsym = (bs.take 8).foldl appendByte 0 ∧
        ∃ pad, bitsOf (bs.drop 8) = ser u.tree ++ pad ∧ pad.length < 8)

/-! ## BitUnpacker -/

/-- R155: PUSHB. From a walk inside an `Internal` tree the bytes of the leaves reached leave on DATA, at most 8, each
counted by REM. The example is the source's scenario. -/
def Obligations.PushbRule : Prop :=
  (∀ b : Byte, decode (0x2300 ||| b.zeroExtend 16) = .ok (.pushb b)) ∧
  (∀ (b : Byte) (s : State),
    (s.phase = .dBits → s.rem = 0 → exec (.pushb b) s = .next (raise .bitsExtra s)) ∧
    (s.phase = .dBits → s.rem ≠ 0 → exec (.pushb b) s = .next (walkBits
      [b.getLsbD 7, b.getLsbD 6, b.getLsbD 5, b.getLsbD 4, b.getLsbD 3, b.getLsbD 2, b.getLsbD 1,
        b.getLsbD 0] s)) ∧
    (s.phase = .dBits → s.rem ≠ 0 → isInternal s.tree = true → isInternal s.pos = true →
      hasSubtree s.tree s.pos = true →
      ∃ (bytes : List Byte) (pos' : Tree), exec (.pushb b) s = .next
          { s with out := s.out ++ bytes.map (Transfer.mk .data), rem := s.rem - BitVec.ofNat 64 bytes.length,
                   pos := pos' } ∧
        bytes.length ≤ 8 ∧ bytes.length ≤ s.rem.toNat ∧ isInternal pos' = true ∧
        (bytes.length = s.rem.toNat → pos' = s.tree)) ∧
    (s.phase ≠ .dBits → s.phase ≠ .fault → exec (.pushb b) s = .next (raise .wrongPhase s))) ∧
  (∀ (x : Bool) (xs : Bits) (s : State) (n : Tree) (v : Byte),
    walkBits [] s = s ∧ (s.rem = 0 → walkBits (x :: xs) s = s) ∧
    (s.rem ≠ 0 → child s.pos x = none → walkBits (x :: xs) s = raise .walkOffTree s) ∧
    (s.rem ≠ 0 → child s.pos x = some n → isInternal n = true →
      walkBits (x :: xs) s = walkBits xs { s with pos := n }) ∧
    (s.rem ≠ 0 → child s.pos x = some (.leaf v) → walkBits (x :: xs) s = walkBits xs
      { s with out := s.out ++ [⟨.data, v⟩], rem := s.rem - 1, pos := s.tree })) ∧
  ∀ s : State, s.phase = .dBits → s.rem = 5 → s.pos = s.tree →
    s.tree = .node (.node (.leaf 0x42) (.leaf 0x43)) (.leaf 0x41) →
      exec (.pushb 0x9A) s = .next
        { s with
          rem := 0,
          out := s.out ++ [⟨.data, 0x41⟩, ⟨.data, 0x42⟩, ⟨.data, 0x41⟩, ⟨.data, 0x41⟩, ⟨.data, 0x43⟩] }

/-- R156: DEND. The example is the source's scenario. -/
def Obligations.DendRule : Prop :=
  decode 0x2400 = .ok .dend ∧
  (∀ s : State, s.phase = .dBits → s.rem = 5 → s.pos = s.tree → s.treeOk = true →
    s.tree = .node (.node (.leaf 0x42) (.leaf 0x43)) (.leaf 0x41) →
      ∃ t, sendAll [.pushb 0x9A, .dend] s = .next t ∧ t.phase = .done ∧ statusByte t = 0x2D ∧
        onChannel .data (emittedSince s t) = [0x41, 0x42, 0x41, 0x41, 0x43]) ∧
  ∀ s : State,
    (s.phase = .dBits → s.rem ≠ 0 → exec .dend s = .next (raise .bitsTruncated s)) ∧
    (s.phase = .dBits → s.rem = 0 → exec .dend s = .next { s with phase := .done }) ∧
    (s.phase ≠ .dBits → s.phase ≠ .fault → exec .dend s = .next (raise .wrongPhase s)) ∧
    (Inv s → s.phase = .dBits → s.rem = 0 → s.pos = s.tree ∧ statusByte { s with phase := .done } = 0x2D)

/-- R157, in part an inference the spec marks as its own ("a final byte whose padding bits are 1 decodes the same ...
[derived]"): once REM is 0 the rest of the byte is not looked at: two bytes that agree up to there do the same. -/
def Obligations.PaddingIsIgnored : Prop :=
  (∀ (xs ys zs : Bits) (s : State), (walkBits xs s).rem = 0 →
    walkBits (xs ++ ys) s = walkBits (xs ++ zs) s) ∧
  ∀ (a b : Byte) (k : Nat) (s : State), (bits8 a).take k = (bits8 b).take k →
    (walkBits ((bits8 a).take k) s).rem = 0 → exec (.pushb a) s = exec (.pushb b) s

/-- R159: a count of 0 is accepted by TEND; then DEND gives DONE with nothing emitted, and any PUSHB faults. No
compress job makes such an artifact. -/
def Obligations.CountZeroArtifact : Prop :=
  (∀ s : State, s.phase = .dTree → 8 ≤ s.hcnt → s.treeOk = true → s.nsym = 0 →
    ∃ t, exec .tend s = .next t ∧ t.phase = .dBits ∧ t.rem = 0 ∧
      exec .dend t = .next { t with phase := .done } ∧
      t.out = s.out ∧ ∀ b, exec (.pushb b) t = .next (raise .bitsExtra t)) ∧
  ∀ s t : State, s.phase = .eCount → exec .build s = .next t → t.phase = .eEncode →
    s.nsym ≠ 0 ∧ t.nsym ≠ 0

/-- R158, which the spec marks as an inference ("Round trip [derived]"): every non-empty byte sequence of fewer than
2^64 bytes is decoded from what compressing it emitted; the empty one ends in InvalidInput(EMPTY) and emits nothing.
-/
def Obligations.RoundTrip : Prop :=
  (∀ s : State, resetValues s → ∃ t, sendAll (compress []) s = .next t ∧ t.phase = .fault ∧
    t.err = errOf .empty ∧ t.out = s.out) ∧
  ∀ (bs : List Byte) (s : State), resetValues s → bs ≠ [] → bs.length < 2 ^ 64 →
    ∃ t u, sendAll (compress bs) s = .next t ∧ t.phase = .done ∧
      sendAll (decompress (onChannel .tree (emittedSince s t)) (onChannel .bits (emittedSince s t)))
        (clearBlock t) = .next u ∧
      u.phase = .done ∧ onChannel .data (emittedSince t u) = bs

/-- R84, which the spec marks as an inference ("exactly when all of these hold [derived]"): the pairs of artifacts
that decompress to DONE, and what they then decode to. -/
def Obligations.WellFormedPairs : Prop :=
  ∀ (tr bs : List Byte) (s : State), resetValues s →
    ∃ u, sendAll (decompress tr bs) s = .next u ∧
      (u.phase = .done ↔ 9 ≤ tr.length ∧
        ∃ t pad code vs p rest, bitsOf (tr.drop 8) = ser t ++ pad ∧ pad.length < 8 ∧ loadable t ∧
          deriveCodes t [] noCodes = some code ∧ vs.length = ((tr.take 8).foldl appendByte 0).toNat ∧
          codesJoined code vs = some p ∧ bitsOf bs = p ++ rest ∧ rest.length < 8) ∧
      (u.phase = .done → ∃ t pad code p rest, bitsOf (tr.drop 8) = ser t ++ pad ∧ loadable t ∧
          deriveCodes t [] noCodes = some code ∧
          codesJoined code (onChannel .data (emittedSince s u)) = some p ∧ bitsOf bs = p ++ rest ∧
          (onChannel .data (emittedSince s u)).length = ((tr.take 8).foldl appendByte 0).toNat)

/-! ## The whole machine -/

/-- R44, R22, R27, R28, R34: the invariant holds at reset. R44 is an inference the spec marks as its own ("Invariants
that hold between commands in every reachable state ... [derived]"). -/
def Obligations.InvariantAtReset : Prop := Inv State.reset

/-- R44, R22, R27, R28, R34: every step keeps the invariant. R44 is an inference the spec marks as its own
("Invariants that hold between commands in every reachable state ... [derived]"). -/
def Obligations.InvariantKept : Prop := ∀ s t : State, Inv s → step s = .next t → Inv t

/-- R73, R213: from every state of the invariant a step answers a next state: the model does not stop. R213 is an
inference the spec marks as its own ("Every command terminates ... [derived]"). -/
def Obligations.NoStepStops : Prop := ∀ s : State, Inv s → ∃ t, step s = .next t

/-- R21 to R34: which commands write which element. A command that goes through leaves every other element as it
was; one that faults changes, but for LOADT and PUSHB, PHASE and ERR alone (R100, R185). -/
def Obligations.WritersOfState : Prop :=
  ∀ (i : Instr) (s t : State), exec i s = .next t → i ≠ .clear →
    ((∀ b, i ≠ .count b) → t.freq = s.freq) ∧
    ((∀ b, i ≠ .count b) → (∀ b, i ≠ .loadt b) → t.nsym = s.nsym) ∧
    (i ≠ .build → (∀ b, i ≠ .enc b) → i ≠ .tend → (∀ b, i ≠ .pushb b) → t.rem = s.rem) ∧
    (i ≠ .build → t.code = s.code) ∧
    (i ≠ .build → (∀ b, i ≠ .loadt b) → t.tree = s.tree ∧ t.treeOk = s.treeOk) ∧
    ((∀ b, i ≠ .enc b) → i ≠ .finish → t.acc = s.acc) ∧
    ((∀ b, i ≠ .loadt b) → t.hcnt = s.hcnt ∧ t.pstk = s.pstk ∧ t.pleaf = s.pleaf ∧ t.nint = s.nint ∧
      t.seen = s.seen) ∧
    (i ≠ .tend → (∀ b, i ≠ .pushb b) → t.pos = s.pos) ∧
    (t.phase = s.phase ∨ t.phase = .fault ∨ i ∈ [.estart, .build, .finish, .dstart, .tend, .dend]) ∧
    (t.err = s.err ∨ t.phase = .fault) ∧
    (t.phase = .fault → (∀ b, i ≠ .loadt b) → (∀ b, i ≠ .pushb b) →
      { t with phase := s.phase, err := s.err } = s)

/-- R42, R53, R58, R52: a command adds transfers to the history and takes none back; only BUILD emits on TREE, ENC and
FINISH on BITS, PUSHB on DATA, and the rest of the host's side it does not touch. -/
def Obligations.OutputOnlyGrows : Prop :=
  ∀ (i : Instr) (s t : State), exec i s = .next t →
    t.port = s.port ∧ t.index = s.index ∧ t.held = s.held ∧ t.reads = s.reads ∧
    t.before = s.before ∧ t.freeCount = s.freeCount ∧
    ∃ ts, t.out = s.out ++ ts ∧ ∀ x ∈ ts,
      (x.ch = .tree ∧ i = .build) ∨ (x.ch = .bits ∧ (i = .finish ∨ ∃ b, i = .enc b)) ∨
        (x.ch = .data ∧ ∃ b, i = .pushb b)

/-- R57, R155, R44: how many bytes a command emits in a state of the invariant, and that the bytes on DATA are counted
by REM. -/
def Obligations.EmittedByteCounts : Prop :=
  ∀ (i : Instr) (s t : State), Inv s → exec i s = .next t →
    ∃ ts, t.out = s.out ++ ts ∧
      (i = .build → t.phase = .eEncode → 11 ≤ ts.length ∧ ts.length ≤ 328) ∧
      ((∃ b, i = .enc b) → ts.length ≤ 32) ∧ (i = .finish → ts.length ≤ 1) ∧
      ((∃ b, i = .pushb b) → ts.length ≤ 8 ∧ ts.length + t.rem.toNat = s.rem.toNat) ∧
      (i ≠ .build → i ≠ .finish → (∀ b, i ≠ .enc b) → (∀ b, i ≠ .pushb b) → ts = [])

/-- R202, R44: a successful ENC counts one symbol; FINISH and DEND report success only when none is left. -/
def Obligations.SuccessNeedsEverySymbol : Prop :=
  (∀ (b : Byte) (s t : State), exec (.enc b) s = .next t → s.phase ≠ .fault → t.phase ≠ .fault →
    t.rem.toNat + 1 = s.rem.toNat) ∧
  ∀ (i : Instr) (s t : State), exec i s = .next t → s.phase ≠ .done → t.phase = .done →
    (i = .finish ∧ s.phase = .eEncode ∨ i = .dend ∧ s.phase = .dBits) ∧ s.rem = 0 ∧ t.rem = 0
end

