-- ==== Sys2Proof/Laws/Bits.lean ====
section
/-!
SUPPORT. Bit strings and bytes: `byte_of` and `bits8` are inverse, `pack` is undone by reading the bits
(spec 00_scope R14).
-/

namespace Sys2Proof.Machine

@[simp] theorem length_bits8 (v : Byte) : (bits8 v).length = 8 := rfl

@[simp] theorem byteOf_bits8 (v : Byte) : byteOf (bits8 v) = v := by
  revert v; decide

theorem bits8_byteOf {s : Bits} (h : s.length = 8) : bits8 (byteOf s) = s := by
  match s, h with
  | [a, b, c, d, e, f, g, i], _ => revert a b c d e f g i; decide

/-- `shiftIn` is the number with one more bit, `2*v + x`. -/
theorem shiftIn_eq (v : Byte) (x : Bool) : shiftIn v x = 2 * v + if x then 1 else 0 := by
  revert v x; decide

theorem bitsOf_cons (b : Byte) (bs : List Byte) : bitsOf (b :: bs) = bits8 b ++ bitsOf bs := rfl

theorem bitsOf_append (a b : List Byte) : bitsOf (a ++ b) = bitsOf a ++ bitsOf b := by
  simp [bitsOf]

@[simp] theorem length_bitsOf (bs : List Byte) : (bitsOf bs).length = 8 * bs.length := by
  induction bs with
  | nil => rfl
  | cons b bs ih => rw [bitsOf_cons, List.length_append, length_bits8, ih, List.length_cons]; omega

theorem length_groups8 (n : Nat) (s : Bits) : (groups8 n s).length = n := by
  induction n generalizing s with
  | zero => rfl
  | succ n ih => simp [groups8, ih]

theorem bitsOf_groups8 (n : Nat) (s : Bits) (h : 8 * n = s.length) : bitsOf (groups8 n s) = s := by
  induction n generalizing s with
  | zero => exact (List.length_eq_zero_iff.1 (by omega)).symm
  | succ n ih =>
    rw [groups8, bitsOf_cons, ih _ (by simp; omega), bits8_byteOf (by simp; omega), List.take_append_drop]

theorem length_pad8 (s : Bits) : (pad8 s).length = 8 * ((s.length + 7) / 8) := by
  simp only [pad8, List.length_append, List.length_replicate]; omega

@[simp] theorem length_pack (s : Bits) : (pack s).length = (s.length + 7) / 8 := by
  rw [pack, length_groups8, length_pad8]; omega

/-- Reading the bits of a packed bit string gives it back, padded. -/
theorem bitsOf_pack (s : Bits) : bitsOf (pack s) = pad8 s :=
  bitsOf_groups8 _ _ (by rw [length_pad8]; omega)

theorem bits8_injective {a b : Byte} (h : bits8 a = bits8 b) : a = b := by
  rw [← byteOf_bits8 a, h, byteOf_bits8]

theorem bitsOf_injective {a b : List Byte} (h : bitsOf a = bitsOf b) : a = b := by
  have hl : a.length = b.length := by simpa using congrArg List.length h
  induction a generalizing b with
  | nil => exact (List.length_eq_zero_iff.1 hl.symm).symm
  | cons a as ih =>
    cases b with
    | nil => simp at hl
    | cons b bs =>
      rw [bitsOf_cons, bitsOf_cons] at h
      obtain ⟨h1, h2⟩ := List.append_inj h rfl
      rw [bits8_injective h1, ih h2 (by simpa using hl)]

/-- Packing what a byte sequence holds, and more bits, is that sequence and the packed rest. -/
theorem pack_bitsOf_append (bs : List Byte) (s : Bits) : pack (bitsOf bs ++ s) = bs ++ pack s := by
  apply bitsOf_injective
  rw [bitsOf_pack, bitsOf_append, bitsOf_pack, pad8, pad8, List.length_append, length_bitsOf,
    Nat.mul_add_mod, List.append_assoc]

@[simp] theorem pack_nil : pack [] = [] := rfl

theorem pack_short {s : Bits} (h0 : s ≠ []) (h : s.length ≤ 7) : pack s = [byteOf (pad8 s)] := by
  have h1 := List.length_pos_iff.2 h0
  have : (pad8 s).length = 8 := by rw [length_pad8]; omega
  rw [pack, this]
  simp [groups8, List.take_of_length_le this.le]

end Sys2Proof.Machine
end

