-- ==== Sys2Proof/Laws/State.lean ====
section
/-!
SUPPORT. One lemma per field per named update of the state, so that no later proof unfolds a record update.
-/

namespace Sys2Proof.Machine


@[simp] theorem raise_phase (c : Cause) (s : State) : (raise c s).phase = Phase.fault := rfl
@[simp] theorem raise_err (c : Cause) (s : State) : (raise c s).err = errOf c := rfl
@[simp] theorem raise_freq (c : Cause) (s : State) : (raise c s).freq = s.freq := rfl
@[simp] theorem raise_nsym (c : Cause) (s : State) : (raise c s).nsym = s.nsym := rfl
@[simp] theorem raise_rem (c : Cause) (s : State) : (raise c s).rem = s.rem := rfl
@[simp] theorem raise_code (c : Cause) (s : State) : (raise c s).code = s.code := rfl
@[simp] theorem raise_tree (c : Cause) (s : State) : (raise c s).tree = s.tree := rfl
@[simp] theorem raise_treeOk (c : Cause) (s : State) : (raise c s).treeOk = s.treeOk := rfl
@[simp] theorem raise_acc (c : Cause) (s : State) : (raise c s).acc = s.acc := rfl
@[simp] theorem raise_hcnt (c : Cause) (s : State) : (raise c s).hcnt = s.hcnt := rfl
@[simp] theorem raise_pstk (c : Cause) (s : State) : (raise c s).pstk = s.pstk := rfl
@[simp] theorem raise_pleaf (c : Cause) (s : State) : (raise c s).pleaf = s.pleaf := rfl
@[simp] theorem raise_nint (c : Cause) (s : State) : (raise c s).nint = s.nint := rfl
@[simp] theorem raise_seen (c : Cause) (s : State) : (raise c s).seen = s.seen := rfl
@[simp] theorem raise_pos (c : Cause) (s : State) : (raise c s).pos = s.pos := rfl
@[simp] theorem raise_port (c : Cause) (s : State) : (raise c s).port = s.port := rfl
@[simp] theorem raise_index (c : Cause) (s : State) : (raise c s).index = s.index := rfl
@[simp] theorem raise_out (c : Cause) (s : State) : (raise c s).out = s.out := rfl
@[simp] theorem raise_held (c : Cause) (s : State) : (raise c s).held = s.held := rfl
@[simp] theorem raise_reads (c : Cause) (s : State) : (raise c s).reads = s.reads := rfl
@[simp] theorem raise_before (c : Cause) (s : State) : (raise c s).before = s.before := rfl
@[simp] theorem raise_freeCount (c : Cause) (s : State) : (raise c s).freeCount = s.freeCount := rfl

@[simp] theorem emit_phase (ch : Channel) (b : Byte) (s : State) : (emit ch b s).phase = s.phase := rfl
@[simp] theorem emit_err (ch : Channel) (b : Byte) (s : State) : (emit ch b s).err = s.err := rfl
@[simp] theorem emit_freq (ch : Channel) (b : Byte) (s : State) : (emit ch b s).freq = s.freq := rfl
@[simp] theorem emit_nsym (ch : Channel) (b : Byte) (s : State) : (emit ch b s).nsym = s.nsym := rfl
@[simp] theorem emit_rem (ch : Channel) (b : Byte) (s : State) : (emit ch b s).rem = s.rem := rfl
@[simp] theorem emit_code (ch : Channel) (b : Byte) (s : State) : (emit ch b s).code = s.code := rfl
@[simp] theorem emit_tree (ch : Channel) (b : Byte) (s : State) : (emit ch b s).tree = s.tree := rfl
@[simp] theorem emit_treeOk (ch : Channel) (b : Byte) (s : State) : (emit ch b s).treeOk = s.treeOk := rfl
@[simp] theorem emit_acc (ch : Channel) (b : Byte) (s : State) : (emit ch b s).acc = s.acc := rfl
@[simp] theorem emit_hcnt (ch : Channel) (b : Byte) (s : State) : (emit ch b s).hcnt = s.hcnt := rfl
@[simp] theorem emit_pstk (ch : Channel) (b : Byte) (s : State) : (emit ch b s).pstk = s.pstk := rfl
@[simp] theorem emit_pleaf (ch : Channel) (b : Byte) (s : State) : (emit ch b s).pleaf = s.pleaf := rfl
@[simp] theorem emit_nint (ch : Channel) (b : Byte) (s : State) : (emit ch b s).nint = s.nint := rfl
@[simp] theorem emit_seen (ch : Channel) (b : Byte) (s : State) : (emit ch b s).seen = s.seen := rfl
@[simp] theorem emit_pos (ch : Channel) (b : Byte) (s : State) : (emit ch b s).pos = s.pos := rfl
@[simp] theorem emit_port (ch : Channel) (b : Byte) (s : State) : (emit ch b s).port = s.port := rfl
@[simp] theorem emit_index (ch : Channel) (b : Byte) (s : State) : (emit ch b s).index = s.index := rfl
@[simp] theorem emit_out (ch : Channel) (b : Byte) (s : State) : (emit ch b s).out = s.out ++ [⟨ch, b⟩] := rfl
@[simp] theorem emit_held (ch : Channel) (b : Byte) (s : State) : (emit ch b s).held = s.held := rfl
@[simp] theorem emit_reads (ch : Channel) (b : Byte) (s : State) : (emit ch b s).reads = s.reads := rfl
@[simp] theorem emit_before (ch : Channel) (b : Byte) (s : State) : (emit ch b s).before = s.before := rfl
@[simp] theorem emit_freeCount (ch : Channel) (b : Byte) (s : State) : (emit ch b s).freeCount = s.freeCount := rfl

@[simp] theorem emitAll_phase (ch : Channel) (bs : List Byte) (s : State) : (emitAll ch bs s).phase = s.phase := rfl
@[simp] theorem emitAll_err (ch : Channel) (bs : List Byte) (s : State) : (emitAll ch bs s).err = s.err := rfl
@[simp] theorem emitAll_freq (ch : Channel) (bs : List Byte) (s : State) : (emitAll ch bs s).freq = s.freq := rfl
@[simp] theorem emitAll_nsym (ch : Channel) (bs : List Byte) (s : State) : (emitAll ch bs s).nsym = s.nsym := rfl
@[simp] theorem emitAll_rem (ch : Channel) (bs : List Byte) (s : State) : (emitAll ch bs s).rem = s.rem := rfl
@[simp] theorem emitAll_code (ch : Channel) (bs : List Byte) (s : State) : (emitAll ch bs s).code = s.code := rfl
@[simp] theorem emitAll_tree (ch : Channel) (bs : List Byte) (s : State) : (emitAll ch bs s).tree = s.tree := rfl
@[simp] theorem emitAll_treeOk (ch : Channel) (bs : List Byte) (s : State) : (emitAll ch bs s).treeOk = s.treeOk := rfl
@[simp] theorem emitAll_acc (ch : Channel) (bs : List Byte) (s : State) : (emitAll ch bs s).acc = s.acc := rfl
@[simp] theorem emitAll_hcnt (ch : Channel) (bs : List Byte) (s : State) : (emitAll ch bs s).hcnt = s.hcnt := rfl
@[simp] theorem emitAll_pstk (ch : Channel) (bs : List Byte) (s : State) : (emitAll ch bs s).pstk = s.pstk := rfl
@[simp] theorem emitAll_pleaf (ch : Channel) (bs : List Byte) (s : State) : (emitAll ch bs s).pleaf = s.pleaf := rfl
@[simp] theorem emitAll_nint (ch : Channel) (bs : List Byte) (s : State) : (emitAll ch bs s).nint = s.nint := rfl
@[simp] theorem emitAll_seen (ch : Channel) (bs : List Byte) (s : State) : (emitAll ch bs s).seen = s.seen := rfl
@[simp] theorem emitAll_pos (ch : Channel) (bs : List Byte) (s : State) : (emitAll ch bs s).pos = s.pos := rfl
@[simp] theorem emitAll_port (ch : Channel) (bs : List Byte) (s : State) : (emitAll ch bs s).port = s.port := rfl
@[simp] theorem emitAll_index (ch : Channel) (bs : List Byte) (s : State) : (emitAll ch bs s).index = s.index := rfl
@[simp] theorem emitAll_out (ch : Channel) (bs : List Byte) (s : State) : (emitAll ch bs s).out = s.out ++ bs.map (Transfer.mk ch) := rfl
@[simp] theorem emitAll_held (ch : Channel) (bs : List Byte) (s : State) : (emitAll ch bs s).held = s.held := rfl
@[simp] theorem emitAll_reads (ch : Channel) (bs : List Byte) (s : State) : (emitAll ch bs s).reads = s.reads := rfl
@[simp] theorem emitAll_before (ch : Channel) (bs : List Byte) (s : State) : (emitAll ch bs s).before = s.before := rfl
@[simp] theorem emitAll_freeCount (ch : Channel) (bs : List Byte) (s : State) : (emitAll ch bs s).freeCount = s.freeCount := rfl

@[simp] theorem clearBlock_phase (s : State) : (clearBlock s).phase = State.reset.phase := rfl
@[simp] theorem clearBlock_err (s : State) : (clearBlock s).err = State.reset.err := rfl
@[simp] theorem clearBlock_freq (s : State) : (clearBlock s).freq = State.reset.freq := rfl
@[simp] theorem clearBlock_nsym (s : State) : (clearBlock s).nsym = State.reset.nsym := rfl
@[simp] theorem clearBlock_rem (s : State) : (clearBlock s).rem = State.reset.rem := rfl
@[simp] theorem clearBlock_code (s : State) : (clearBlock s).code = State.reset.code := rfl
@[simp] theorem clearBlock_tree (s : State) : (clearBlock s).tree = State.reset.tree := rfl
@[simp] theorem clearBlock_treeOk (s : State) : (clearBlock s).treeOk = State.reset.treeOk := rfl
@[simp] theorem clearBlock_acc (s : State) : (clearBlock s).acc = State.reset.acc := rfl
@[simp] theorem clearBlock_hcnt (s : State) : (clearBlock s).hcnt = State.reset.hcnt := rfl
@[simp] theorem clearBlock_pstk (s : State) : (clearBlock s).pstk = State.reset.pstk := rfl
@[simp] theorem clearBlock_pleaf (s : State) : (clearBlock s).pleaf = State.reset.pleaf := rfl
@[simp] theorem clearBlock_nint (s : State) : (clearBlock s).nint = State.reset.nint := rfl
@[simp] theorem clearBlock_seen (s : State) : (clearBlock s).seen = State.reset.seen := rfl
@[simp] theorem clearBlock_pos (s : State) : (clearBlock s).pos = State.reset.pos := rfl
@[simp] theorem clearBlock_port (s : State) : (clearBlock s).port = s.port := rfl
@[simp] theorem clearBlock_index (s : State) : (clearBlock s).index = s.index := rfl
@[simp] theorem clearBlock_out (s : State) : (clearBlock s).out = s.out := rfl
@[simp] theorem clearBlock_held (s : State) : (clearBlock s).held = s.held := rfl
@[simp] theorem clearBlock_reads (s : State) : (clearBlock s).reads = s.reads := rfl
@[simp] theorem clearBlock_before (s : State) : (clearBlock s).before = s.before := rfl
@[simp] theorem clearBlock_freeCount (s : State) : (clearBlock s).freeCount = s.freeCount := rfl

@[simp] theorem hardReset_phase (s : State) : (hardReset s).phase = State.reset.phase := rfl
@[simp] theorem hardReset_err (s : State) : (hardReset s).err = State.reset.err := rfl
@[simp] theorem hardReset_freq (s : State) : (hardReset s).freq = State.reset.freq := rfl
@[simp] theorem hardReset_nsym (s : State) : (hardReset s).nsym = State.reset.nsym := rfl
@[simp] theorem hardReset_rem (s : State) : (hardReset s).rem = State.reset.rem := rfl
@[simp] theorem hardReset_code (s : State) : (hardReset s).code = State.reset.code := rfl
@[simp] theorem hardReset_tree (s : State) : (hardReset s).tree = State.reset.tree := rfl
@[simp] theorem hardReset_treeOk (s : State) : (hardReset s).treeOk = State.reset.treeOk := rfl
@[simp] theorem hardReset_acc (s : State) : (hardReset s).acc = State.reset.acc := rfl
@[simp] theorem hardReset_hcnt (s : State) : (hardReset s).hcnt = State.reset.hcnt := rfl
@[simp] theorem hardReset_pstk (s : State) : (hardReset s).pstk = State.reset.pstk := rfl
@[simp] theorem hardReset_pleaf (s : State) : (hardReset s).pleaf = State.reset.pleaf := rfl
@[simp] theorem hardReset_nint (s : State) : (hardReset s).nint = State.reset.nint := rfl
@[simp] theorem hardReset_seen (s : State) : (hardReset s).seen = State.reset.seen := rfl
@[simp] theorem hardReset_pos (s : State) : (hardReset s).pos = State.reset.pos := rfl
@[simp] theorem hardReset_port (s : State) : (hardReset s).port = s.port := rfl
@[simp] theorem hardReset_index (s : State) : (hardReset s).index = s.index := rfl
@[simp] theorem hardReset_out (s : State) : (hardReset s).out = takenOut s := rfl
@[simp] theorem hardReset_held (s : State) : (hardReset s).held = s.held := rfl
@[simp] theorem hardReset_reads (s : State) : (hardReset s).reads = s.reads := rfl
@[simp] theorem hardReset_before (s : State) : (hardReset s).before = s.before := rfl
@[simp] theorem hardReset_freeCount (s : State) : (hardReset s).freeCount = s.freeCount := rfl

@[simp] theorem readStatus_phase (r : StatusReg) (s : State) : (readStatus r s).phase = s.phase := rfl
@[simp] theorem readStatus_err (r : StatusReg) (s : State) : (readStatus r s).err = s.err := rfl
@[simp] theorem readStatus_freq (r : StatusReg) (s : State) : (readStatus r s).freq = s.freq := rfl
@[simp] theorem readStatus_nsym (r : StatusReg) (s : State) : (readStatus r s).nsym = s.nsym := rfl
@[simp] theorem readStatus_rem (r : StatusReg) (s : State) : (readStatus r s).rem = s.rem := rfl
@[simp] theorem readStatus_code (r : StatusReg) (s : State) : (readStatus r s).code = s.code := rfl
@[simp] theorem readStatus_tree (r : StatusReg) (s : State) : (readStatus r s).tree = s.tree := rfl
@[simp] theorem readStatus_treeOk (r : StatusReg) (s : State) : (readStatus r s).treeOk = s.treeOk := rfl
@[simp] theorem readStatus_acc (r : StatusReg) (s : State) : (readStatus r s).acc = s.acc := rfl
@[simp] theorem readStatus_hcnt (r : StatusReg) (s : State) : (readStatus r s).hcnt = s.hcnt := rfl
@[simp] theorem readStatus_pstk (r : StatusReg) (s : State) : (readStatus r s).pstk = s.pstk := rfl
@[simp] theorem readStatus_pleaf (r : StatusReg) (s : State) : (readStatus r s).pleaf = s.pleaf := rfl
@[simp] theorem readStatus_nint (r : StatusReg) (s : State) : (readStatus r s).nint = s.nint := rfl
@[simp] theorem readStatus_seen (r : StatusReg) (s : State) : (readStatus r s).seen = s.seen := rfl
@[simp] theorem readStatus_pos (r : StatusReg) (s : State) : (readStatus r s).pos = s.pos := rfl
@[simp] theorem readStatus_port (r : StatusReg) (s : State) : (readStatus r s).port = s.port := rfl
@[simp] theorem readStatus_index (r : StatusReg) (s : State) : (readStatus r s).index = s.index := rfl
@[simp] theorem readStatus_out (r : StatusReg) (s : State) : (readStatus r s).out = s.out := rfl
@[simp] theorem readStatus_held (r : StatusReg) (s : State) : (readStatus r s).held = s.held := rfl
@[simp] theorem readStatus_reads (r : StatusReg) (s : State) : (readStatus r s).reads = s.reads ++ [(r, statusValue (readView s) r)] := rfl
@[simp] theorem readStatus_before (r : StatusReg) (s : State) : (readStatus r s).before = boundaryOf (readView s) := rfl
@[simp] theorem readStatus_freeCount (r : StatusReg) (s : State) : (readStatus r s).freeCount = 
    if s.phase = .fault ∨ outputPending s = true then s.freeCount + 1 else s.freeCount := rfl

@[simp] theorem takeAll_phase (s : State) : (takeAll s).phase = s.phase := rfl
@[simp] theorem takeAll_err (s : State) : (takeAll s).err = s.err := rfl
@[simp] theorem takeAll_freq (s : State) : (takeAll s).freq = s.freq := rfl
@[simp] theorem takeAll_nsym (s : State) : (takeAll s).nsym = s.nsym := rfl
@[simp] theorem takeAll_rem (s : State) : (takeAll s).rem = s.rem := rfl
@[simp] theorem takeAll_code (s : State) : (takeAll s).code = s.code := rfl
@[simp] theorem takeAll_tree (s : State) : (takeAll s).tree = s.tree := rfl
@[simp] theorem takeAll_treeOk (s : State) : (takeAll s).treeOk = s.treeOk := rfl
@[simp] theorem takeAll_acc (s : State) : (takeAll s).acc = s.acc := rfl
@[simp] theorem takeAll_hcnt (s : State) : (takeAll s).hcnt = s.hcnt := rfl
@[simp] theorem takeAll_pstk (s : State) : (takeAll s).pstk = s.pstk := rfl
@[simp] theorem takeAll_pleaf (s : State) : (takeAll s).pleaf = s.pleaf := rfl
@[simp] theorem takeAll_nint (s : State) : (takeAll s).nint = s.nint := rfl
@[simp] theorem takeAll_seen (s : State) : (takeAll s).seen = s.seen := rfl
@[simp] theorem takeAll_pos (s : State) : (takeAll s).pos = s.pos := rfl
@[simp] theorem takeAll_port (s : State) : (takeAll s).port = s.port := rfl
@[simp] theorem takeAll_index (s : State) : (takeAll s).index = s.index := rfl
@[simp] theorem takeAll_out (s : State) : (takeAll s).out = s.out := rfl
@[simp] theorem takeAll_held (s : State) : (takeAll s).held = none := rfl
@[simp] theorem takeAll_reads (s : State) : (takeAll s).reads = s.reads := rfl
@[simp] theorem takeAll_before (s : State) : (takeAll s).before = s.before := rfl
@[simp] theorem takeAll_freeCount (s : State) : (takeAll s).freeCount = s.freeCount := rfl

@[simp] theorem acceptWord_phase (rest : List HostEvent) (s : State) : (acceptWord rest s).phase = s.phase := rfl
@[simp] theorem acceptWord_err (rest : List HostEvent) (s : State) : (acceptWord rest s).err = s.err := rfl
@[simp] theorem acceptWord_port (rest : List HostEvent) (s : State) : (acceptWord rest s).port = rest := rfl
@[simp] theorem acceptWord_index (rest : List HostEvent) (s : State) : (acceptWord rest s).index = s.index + 1 := rfl
@[simp] theorem acceptWord_out (rest : List HostEvent) (s : State) : (acceptWord rest s).out = s.out := rfl
@[simp] theorem acceptWord_held (rest : List HostEvent) (s : State) : (acceptWord rest s).held = s.held := rfl
@[simp] theorem acceptWord_before (rest : List HostEvent) (s : State) : (acceptWord rest s).before = boundaryOf s := rfl

end Sys2Proof.Machine
end

