-- ==== Sys2Proof/Laws/Ops.lean ====
section
/-!
SUPPORT. What the shared operations can do: the dispatch check, output, fault entry, the tables.
-/

namespace Sys2Proof.Machine

/-! ## The dispatch check -/

theorem unlessFault_fault {s : State} (run : Result) (h : s.phase = .fault) :
    unlessFault s run = .next s := by simp [unlessFault, h]

theorem unlessFault_run {s : State} (run : Result) (h : s.phase ≠ .fault) :
    unlessFault s run = run := by simp [unlessFault, h]

theorem inPhase_fault {p : Phase} {s : State} (run : Result) (h : s.phase = .fault) :
    inPhase p s run = .next s := unlessFault_fault _ h

theorem inPhase_legal {p : Phase} {s : State} (run : Result) (hp : p ≠ .fault) (h : s.phase = p) :
    inPhase p s run = run := by simp [inPhase, unlessFault, h, hp]

theorem inPhase_wrong {p : Phase} {s : State} (run : Result) (hf : s.phase ≠ .fault)
    (h : s.phase ≠ p) : inPhase p s run = .next (raise .wrongPhase s) := by
  simp [inPhase, unlessFault, hf, h]

/-- Everything the dispatch check can do when it answers a next state. -/
theorem inPhase_cases {p : Phase} {s t : State} {run : Result} (h : inPhase p s run = .next t) :
    (s.phase = .fault ∧ t = s) ∨
    (s.phase ≠ .fault ∧ s.phase ≠ p ∧ t = raise .wrongPhase s) ∨
    (s.phase ≠ .fault ∧ s.phase = p ∧ run = .next t) := by
  unfold inPhase unlessFault at h
  split at h
  · next hf => exact .inl ⟨hf, by cases h; rfl⟩
  · next hf =>
    split at h
    · next hp => exact .inr (.inr ⟨hf, hp, h⟩)
    · next hp => exact .inr (.inl ⟨hf, hp, by cases h; rfl⟩)

/-! ## Tables -/

@[simp] theorem entry_setEntry_same {α : Type} (t : Table α) (b : Byte) (x : α) :
    entry (setEntry t b x) b = x := by simp [entry, setEntry]

theorem entry_setEntry_ne {α : Type} (t : Table α) {b c : Byte} (x : α) (h : c ≠ b) :
    entry (setEntry t b x) c = entry t c := by
  have : b.toNat ≠ c.toNat := fun hh => h (BitVec.eq_of_toNat_eq hh.symm)
  simp [entry, setEntry, this]

theorem entry_setEntry {α : Type} (t : Table α) (b c : Byte) (x : α) :
    entry (setEntry t b x) c = if c = b then x else entry t c := by
  split
  · next h => rw [h, entry_setEntry_same]
  · next h => exact entry_setEntry_ne t x h

@[simp] theorem entry_replicate {α : Type} (x : α) (b : Byte) :
    entry (Vector.replicate 256 x) b = x := by simp [entry]

/-- Two tables with the same entries are equal. -/
theorem table_ext {α : Type} {t u : Table α} (h : ∀ b, entry t b = entry u b) : t = u := by
  apply Vector.ext
  intro i hi
  have := h (BitVec.ofNat 8 i)
  simpa [entry, Nat.mod_eq_of_lt hi] using this

theorem setEntry_comm {α : Type} (t : Table α) {b c : Byte} (x y : α) (h : b ≠ c) :
    setEntry (setEntry t b x) c y = setEntry (setEntry t c y) b x := by
  apply table_ext
  intro d
  simp only [entry_setEntry]
  split <;> split <;> simp_all

theorem mem_allBytes (b : Byte) : b ∈ allBytes := by
  simp only [allBytes, List.mem_map, List.mem_range]
  exact ⟨b.toNat, b.isLt, by simp⟩

theorem nodup_allBytes : allBytes.Nodup := by
  rw [allBytes, List.nodup_map_iff_inj_on List.nodup_range]
  intro a ha b hb h
  have := congrArg BitVec.toNat h
  simpa [Nat.mod_eq_of_lt (List.mem_range.1 ha), Nat.mod_eq_of_lt (List.mem_range.1 hb)] using this

theorem length_allBytes : allBytes.length = 256 := by simp [allBytes]

/-- A list of distinct byte values has at most 256 members (R10). -/
theorem length_le_of_nodup {l : List Byte} (h : l.Nodup) : l.length ≤ 256 := by
  rw [← length_allBytes]
  exact (h.subperm fun b _ => mem_allBytes b).length_le

/-! ## Counts -/

theorem count_pos {n : Count} (h : n ≠ 0) : 1 ≤ n.toNat := by bv_omega

/-- A guarded decrement does not wrap (R25). -/
theorem count_pred {n : Count} (h : n ≠ 0) : (n - 1).toNat = n.toNat - 1 := by bv_omega

/-- An increment below the largest count does not wrap (R102). -/
theorem count_succ {n : Count} (h : n ≠ BitVec.allOnes 64) : (n + 1).toNat = n.toNat + 1 := by
  have : n.toNat ≠ 2 ^ 64 - 1 := fun e => h (BitVec.eq_of_toNat_eq (by simpa using e))
  bv_omega

/-! ## Output -/

theorem emitAll_nil (ch : Channel) (s : State) : emitAll ch [] s = s := by simp [emitAll]

theorem emitAll_emitAll (ch : Channel) (a b : List Byte) (s : State) :
    emitAll ch b (emitAll ch a s) = emitAll ch (a ++ b) s := by simp [emitAll]

theorem emit_eq_emitAll (ch : Channel) (b : Byte) (s : State) : emit ch b s = emitAll ch [b] s := rfl

end Sys2Proof.Machine
end

