-- ==== Sys2Proof/Laws/BitPacker.lean ====
section
/-!
SUPPORT. What ENC's loop does (spec 42_bit_packer R130): bits go through ACC, and whole bytes leave.
-/

namespace Sys2Proof.Machine

theorem packBits_nil (s : State) : packBits [] s = s := rfl

theorem packBits_cons (x : Bool) (c : Bits) (s : State) :
    packBits (x :: c) s = packBits c (packBit x s) := rfl

/-- One bit: some bytes on BITS and a new ACC, which together hold the old ACC and the bit. -/
theorem packBit_spec (x : Bool) (s : State) :
    ∃ bytes acc', packBit x s = { emitAll .bits bytes s with acc := acc' } ∧
      bitsOf bytes ++ acc' = s.acc ++ [x] ∧ (s.acc.length ≤ 7 → acc'.length ≤ 7) := by
  by_cases h : (s.acc ++ [x]).length = 8
  · exact ⟨[byteOf (s.acc ++ [x])], [], by rw [packBit, if_pos h]; rfl,
      by simp [bitsOf, bits8_byteOf h], by simp⟩
  · refine ⟨[], s.acc ++ [x], by rw [packBit, if_neg h, emitAll_nil], rfl, fun h7 => ?_⟩
    simp only [List.length_append, List.length_singleton] at h ⊢; omega

/-- ENC's loop: no bit is lost or moved, and at most 7 stay behind (R130). -/
theorem packBits_spec (c : Bits) (s : State) :
    ∃ bytes acc', packBits c s = { emitAll .bits bytes s with acc := acc' } ∧
      bitsOf bytes ++ acc' = s.acc ++ c ∧ (s.acc.length ≤ 7 → acc'.length ≤ 7) := by
  induction c generalizing s with
  | nil => exact ⟨[], s.acc, by simp [packBits_nil, emitAll], by simp [bitsOf], id⟩
  | cons x c ih =>
    obtain ⟨b1, a1, e1, h1, l1⟩ := packBit_spec x s
    obtain ⟨b2, a2, e2, h2, l2⟩ := ih (packBit x s)
    refine ⟨b1 ++ b2, a2, ?_, ?_, ?_⟩
    · rw [packBits_cons, e2, e1]; simp [emitAll]
    · rw [bitsOf_append, List.append_assoc, h2, e1, ← List.append_assoc]
      simp [h1]
    · intro h7
      exact l2 (by rw [e1]; exact l1 h7)

/-- How many bytes ENC emits and how many bits it leaves pending (R130). -/
theorem pack_counts {bytes : List Byte} {a a' c : Bits} (h : bitsOf bytes ++ a' = a ++ c)
    (ha' : a'.length ≤ 7) :
    bytes.length = (a.length + c.length) / 8 ∧ a'.length = (a.length + c.length) % 8 := by
  have := congrArg List.length h
  simp only [List.length_append, length_bitsOf] at this
  omega

end Sys2Proof.Machine
end

