-- ==== Sys2Proof/Laws/Trees.lean ====
section
/-!
SUPPORT. Trees: paths and leaves (spec 00_scope R15, R10), and that the serialization can be parsed in one
way only (30_encoding R81).
-/

namespace Sys2Proof.Machine

theorem leaves_ne_nil (t : Tree) : leaves t ≠ [] := by
  induction t with
  | leaf v => simp [leaves]
  | node l r hl hr => simp [leaves, hl]

/-- A strict tree has one leaf more than internal nodes (R10). -/
theorem length_leaves (t : Tree) : (leaves t).length = internals t + 1 := by
  induction t with
  | leaf v => rfl
  | node l r hl hr => simp only [leaves, List.length_append, hl, hr, internals]; omega

/-- The serialized tree of L leaves has 10*L - 1 bits (R10). -/
theorem length_ser (t : Tree) : (ser t).length + 1 = 10 * (leaves t).length := by
  induction t with
  | leaf v => rfl
  | node l r hl hr => simp only [ser, leaves, List.length_cons, List.length_append]; omega

theorem internals_pos {t : Tree} (h : isInternal t = true) : 1 ≤ internals t := by
  cases t with
  | leaf v => simp [isInternal] at h
  | node l r => simp [internals]

theorem follow_append (t : Tree) (p q : Bits) :
    follow t (p ++ q) = (follow t p).bind fun u => follow u q := by
  induction p generalizing t with
  | nil => rfl
  | cons x xs ih =>
    simp only [List.cons_append, follow]
    cases child t x with
    | none => rfl
    | some u => exact ih u

theorem follow_leaf {v : Byte} {p : Bits} {u : Tree} (h : follow (.leaf v) p = some u) :
    p = [] ∧ u = .leaf v := by
  cases p with
  | nil => simpa [follow, eq_comm] using h
  | cons x xs => simp [follow, child] at h

/-- A value is at a leaf exactly when some path leads to it. -/
theorem mem_leaves_iff (t : Tree) (v : Byte) : v ∈ leaves t ↔ ∃ p, follow t p = some (.leaf v) := by
  induction t with
  | leaf w =>
    constructor
    · intro h; exact ⟨[], by simpa [leaves, follow, eq_comm] using h⟩
    · rintro ⟨p, h⟩; have := (follow_leaf h).2; simp at this; simp [leaves, this]
  | node l r hl hr =>
    simp only [leaves, List.mem_append, hl, hr]
    constructor
    · rintro (⟨p, h⟩ | ⟨p, h⟩)
      · exact ⟨false :: p, h⟩
      · exact ⟨true :: p, h⟩
    · rintro ⟨p, h⟩
      match p, h with
      | false :: p, h => exact .inl ⟨p, h⟩
      | true :: p, h => exact .inr ⟨p, h⟩

/-- A path to a leaf is no longer than there are internal nodes (R10). -/
theorem length_path_le {t : Tree} {v : Byte} {p : Bits} (h : follow t p = some (.leaf v)) :
    p.length ≤ internals t := by
  induction t generalizing p with
  | leaf w => simp [(follow_leaf h).1]
  | node l r hl hr =>
    match p, h with
    | false :: p, h => have := hl (p := p) h; simp [internals]; omega
    | true :: p, h => have := hr (p := p) h; simp [internals]; omega

/-- No path to a leaf goes on to another: the codes are prefix-free (R117). -/
theorem path_prefix_free {t : Tree} {v w : Byte} {p q : Bits} (hp : follow t p = some (.leaf v))
    (hq : follow t (p ++ q) = some (.leaf w)) : q = [] ∧ w = v := by
  rw [follow_append, hp] at hq
  have := follow_leaf hq
  exact ⟨this.1, by simpa using this.2⟩

/-- With distinct leaves a value has one path. -/
theorem path_unique {t : Tree} (hn : (leaves t).Nodup) {v : Byte} {p q : Bits}
    (hp : follow t p = some (.leaf v)) (hq : follow t q = some (.leaf v)) : p = q := by
  induction t generalizing p q with
  | leaf w => rw [(follow_leaf hp).1, (follow_leaf hq).1]
  | node l r hl hr =>
    simp only [leaves] at hn
    obtain ⟨h1, h2, h3⟩ := List.nodup_append.1 hn
    match p, q, hp, hq with
    | false :: p, false :: q, hp, hq => rw [hl h1 (p := p) (q := q) hp hq]
    | true :: p, true :: q, hp, hq => rw [hr h2 (p := p) (q := q) hp hq]
    | false :: p, true :: q, hp, hq =>
      exact absurd rfl (h3 v ((mem_leaves_iff l v).2 ⟨p, hp⟩) v ((mem_leaves_iff r v).2 ⟨q, hq⟩))
    | true :: p, false :: q, hp, hq =>
      exact absurd rfl (h3 v ((mem_leaves_iff l v).2 ⟨q, hq⟩) v ((mem_leaves_iff r v).2 ⟨p, hp⟩))

theorem path_ne_nil {t : Tree} (ht : isInternal t = true) {v : Byte} {p : Bits}
    (h : follow t p = some (.leaf v)) : p ≠ [] := by
  rintro rfl
  simp only [follow, Option.some.injEq] at h
  subst h
  simp [isInternal] at ht

/-- The serialization says where the tree ends, and which tree it is (R81). -/
theorem ser_parse {t u : Tree} {x y : Bits} (h : ser t ++ x = ser u ++ y) : t = u ∧ x = y := by
  induction t generalizing u x y with
  | leaf v =>
    cases u with
    | leaf w =>
      simp only [ser, List.cons_append, List.cons.injEq, true_and] at h
      obtain ⟨h1, h2⟩ := List.append_inj h (by simp)
      exact ⟨by rw [bits8_injective h1], h2⟩
    | node l r => simp [ser] at h
  | node l r hl hr =>
    cases u with
    | leaf w => simp [ser] at h
    | node l' r' =>
      simp only [ser, List.cons_append, List.append_assoc, List.cons.injEq, true_and] at h
      obtain ⟨rfl, h'⟩ := hl h
      obtain ⟨rfl, h''⟩ := hr h'
      exact ⟨rfl, h''⟩

theorem hasSubtree_self (t : Tree) : hasSubtree t t = true := by cases t <;> simp [hasSubtree]

theorem hasSubtree_node {t l r : Tree} (h : hasSubtree t (.node l r) = true) :
    hasSubtree t l = true ∧ hasSubtree t r = true := by
  induction t with
  | leaf v => simp [hasSubtree] at h
  | node l' r' hl hr =>
    simp only [hasSubtree, Bool.or_eq_true, decide_eq_true_eq] at h ⊢
    rcases h with (h | h) | h
    · cases h; exact ⟨.inl (.inr (hasSubtree_self _)), .inr (hasSubtree_self _)⟩
    · exact ⟨.inl (.inr (hl h).1), .inl (.inr (hl h).2)⟩
    · exact ⟨.inr (hr h).1, .inr (hr h).2⟩

/-- A child of a subtree is a subtree (R34). -/
theorem hasSubtree_child {t u w : Tree} {x : Bool} (h : hasSubtree t u = true)
    (hc : child u x = some w) : hasSubtree t w = true := by
  cases u with
  | leaf v => simp [child] at hc
  | node l r =>
    cases x <;> simp only [child, Option.some.injEq] at hc <;> subst hc
    · exact (hasSubtree_node h).1
    · exact (hasSubtree_node h).2

end Sys2Proof.Machine
end

