-- ==== Sys2Proof/Laws/BitUnpacker.lean ====
section
/-!
SUPPORT. The tree walker (spec 44_bit_unpacker R155): what its loop can change, and that it reads a code of
the tree as its leaf.
-/

namespace Sys2Proof.Machine

theorem walkBits_stop {s : State} (h : s.rem = 0) (xs : Bits) : walkBits xs s = s := by
  cases xs <;> simp [walkBits, h]

theorem walkBits_cons {x : Bool} {s : State} {n : Tree} (h : s.rem ≠ 0) (hc : child s.pos x = some n)
    (xs : Bits) : walkBits (x :: xs) s = walkBits xs (arrive n s) := by
  rw [walkBits, if_neg h, hc]

theorem walkBits_cons_off {x : Bool} {s : State} (h : s.rem ≠ 0) (hc : child s.pos x = none)
    (xs : Bits) : walkBits (x :: xs) s = raise .walkOffTree s := by
  rw [walkBits, if_neg h, hc]

/-- An `Internal` node has both children (R15), so no walk falls off the tree from one. -/
theorem child_internal {t : Tree} (h : isInternal t = true) (x : Bool) :
    ∃ n, child t x = some n := by
  cases t with
  | leaf v => simp [isInternal] at h
  | node l r => cases x <;> simp [child]

/-- Arriving at a node from a walk inside an `Internal` tree: at most one byte leaves on DATA, REM counts it,
and POS is `Internal` again (R155, R34). -/
theorem arrive_cases (n : Tree) (s : State) :
    (∃ v, n = .leaf v ∧
      arrive n s = { s with out := s.out ++ [⟨.data, v⟩], rem := s.rem - 1, pos := s.tree }) ∨
    (isInternal n = true ∧ arrive n s = { s with pos := n }) := by
  cases n with
  | leaf v => exact .inl ⟨v, rfl, rfl⟩
  | node l r => exact .inr ⟨rfl, rfl⟩

/-- Everything PUSHB's loop can do from a walk inside an `Internal` tree (R155): bytes on DATA, each counted
by REM, and a new POS inside the tree, `Internal`, at the root when REM is 0. -/
theorem walkBits_spec (xs : Bits) (s : State) (ht : isInternal s.tree = true)
    (hp : isInternal s.pos = true) (hs : hasSubtree s.tree s.pos = true)
    (hr : s.rem = 0 → s.pos = s.tree) :
    ∃ (bytes : List Byte) (pos' : Tree), walkBits xs s =
        { s with out := s.out ++ bytes.map (Transfer.mk .data), rem := s.rem - BitVec.ofNat 64 bytes.length,
                 pos := pos' } ∧
      isInternal pos' = true ∧ hasSubtree s.tree pos' = true ∧ bytes.length ≤ xs.length ∧
      bytes.length ≤ s.rem.toNat ∧ (bytes.length = s.rem.toNat → pos' = s.tree) := by
  induction xs generalizing s with
  | nil =>
    exact ⟨[], s.pos, by simp [walkBits], hp, hs, by simp, by simp,
      fun h => hr (BitVec.eq_of_toNat_eq (by simpa using h.symm))⟩
  | cons x xs ih =>
    by_cases h0 : s.rem = 0
    · rw [walkBits_stop h0]
      exact ⟨[], s.pos, by simp, hp, hs, by simp, by simp, fun _ => hr h0⟩
    · obtain ⟨n, hn⟩ := child_internal hp x
      rw [walkBits_cons h0 hn]
      have hpos := count_pos h0
      rcases arrive_cases n s with ⟨v, rfl, e⟩ | ⟨hi, e⟩
      · have h1 : (s.rem - 1).toNat = s.rem.toNat - 1 := count_pred h0
        obtain ⟨bytes, pos', e', i1, i2, i3, i4, i5⟩ := ih
          { s with out := s.out ++ [⟨.data, v⟩], rem := s.rem - 1, pos := s.tree } ht ht
          (hasSubtree_self _) (fun _ => rfl)
        refine ⟨v :: bytes, pos', ?_, i1, i2, by simpa using i3, ?_, fun h => i5 ?_⟩
        · rw [e, e']
          simp only [List.append_assoc, List.map_cons, List.singleton_append, List.length_cons]
          congr 1
          rw [BitVec.sub_sub]
          congr 1
          apply BitVec.eq_of_toNat_eq
          simp [Nat.add_comm]
        · simp only [h1] at i4; simp only [List.length_cons]; omega
        · simp only [h1]; simp only [List.length_cons] at h; omega
      · obtain ⟨bytes, pos', e', i1, i2, i3, i4, i5⟩ := ih { s with pos := n } ht hi
          (hasSubtree_child hs hn) (fun h => absurd h h0)
        exact ⟨bytes, pos', by rw [e, e'], i1, i2, by simp; omega, i4, i5⟩

/-- The loop over two pieces, when the first does not leave the tree. -/
theorem walkBits_append {xs ys : Bits} {s : State} (h : (walkBits xs s).phase ≠ .fault) :
    walkBits (xs ++ ys) s = walkBits ys (walkBits xs s) := by
  induction xs generalizing s with
  | nil => rfl
  | cons x xs ih =>
    by_cases h0 : s.rem = 0
    · rw [walkBits_stop h0, walkBits_stop h0, walkBits_stop h0]
    · cases hc : child s.pos x with
      | none => rw [walkBits_cons_off h0 hc] at h; simp at h
      | some n =>
        rw [walkBits_cons h0 hc] at h
        rw [List.cons_append, walkBits_cons h0 hc, walkBits_cons h0 hc, ih h]

/-- Walking the path of a leaf emits its byte and returns to the root (R155). -/
theorem walkBits_path {p xs : Bits} {v : Byte} {s : State} (h0 : s.rem ≠ 0) (hp : p ≠ [])
    (h : follow s.pos p = some (.leaf v)) :
    walkBits (p ++ xs) s = walkBits xs
      { s with out := s.out ++ [⟨.data, v⟩], rem := s.rem - 1, pos := s.tree } := by
  induction p generalizing s with
  | nil => exact absurd rfl hp
  | cons x p ih =>
    cases hc : child s.pos x with
    | none => simp [follow, hc] at h
    | some n =>
      simp only [follow, hc, Option.bind_some] at h
      rw [List.cons_append, walkBits_cons h0 hc]
      by_cases hq : p = []
      · subst hq
        simp only [follow, Option.some.injEq] at h
        subst h
        rfl
      · rcases arrive_cases n s with ⟨w, rfl, -⟩ | ⟨-, e⟩
        · exact absurd (follow_leaf h).1 hq
        · rw [e, ih (s := { s with pos := n }) h0 hq h]

/-- Walking part of the way to a leaf emits nothing (R155). -/
theorem walkBits_part {p q : Bits} {v : Byte} {s : State} (hq : q ≠ [])
    (h : follow s.pos (p ++ q) = some (.leaf v)) :
    ∃ pos', walkBits p s = { s with pos := pos' } := by
  induction p generalizing s with
  | nil => exact ⟨s.pos, rfl⟩
  | cons x p ih =>
    by_cases h0 : s.rem = 0
    · exact ⟨s.pos, walkBits_stop h0 _⟩
    · cases hc : child s.pos x with
      | none => simp [follow, hc] at h
      | some n =>
        simp only [List.cons_append, follow, hc, Option.bind_some] at h
        rw [walkBits_cons h0 hc]
        rcases arrive_cases n s with ⟨w, rfl, -⟩ | ⟨-, e⟩
        · exact absurd (List.append_eq_nil_iff.1 (follow_leaf h).1).2 hq
        · rw [e]; exact ih (s := { s with pos := n }) h

end Sys2Proof.Machine
end

