-- ==== Sys2Proof/Laws/TreeBuilder.lean ====
section
/-!
SUPPORT. The queue and the merges of BUILD (spec 41 R111, R112): the order of extraction, and what the
built tree holds.
-/

namespace Sys2Proof.Machine

/-! ## The order of the queue -/

/-- No entry of the queue comes before an earlier one: its head is what ExtractMin returns (R112). -/
abbrev sortedQueue (q : List QEntry) : Prop := q.Pairwise fun a b => before b a = false

theorem before_iff (a b : QEntry) : before a b = true ↔ a.w < b.w ∨ (a.w = b.w ∧ a.seq < b.seq) := by
  simp [before]

theorem before_eq_false (a b : QEntry) :
    before a b = false ↔ b.w < a.w ∨ (a.w = b.w ∧ b.seq ≤ a.seq) := by
  rw [← Bool.not_eq_true, before_iff]; omega

theorem insertEntry_perm (e : QEntry) (q : List QEntry) : (insertEntry e q).Perm (e :: q) := by
  induction q with
  | nil => exact .refl _
  | cons a q ih =>
    simp only [insertEntry]
    split
    · exact .refl _
    · exact (ih.cons a).trans (.swap e a q)

theorem length_insertEntry (e : QEntry) (q : List QEntry) :
    (insertEntry e q).length = q.length + 1 := (insertEntry_perm e q).length_eq

theorem insertEntry_sorted (e : QEntry) {q : List QEntry} (h : sortedQueue q) :
    sortedQueue (insertEntry e q) := by
  induction q with
  | nil => simp [insertEntry]
  | cons a q ih =>
    obtain ⟨h1, h2⟩ := List.pairwise_cons.1 h
    simp only [insertEntry]
    split
    · next hb =>
      refine List.pairwise_cons.2 ⟨fun x hx => ?_, h⟩
      rw [before_iff] at hb
      rw [before_eq_false]
      rcases List.mem_cons.1 hx with rfl | hx
      · omega
      · have := (before_eq_false x a).1 (h1 x hx); omega
    · next hb =>
      refine List.pairwise_cons.2 ⟨fun x hx => ?_, ih h2⟩
      rcases List.mem_cons.1 ((insertEntry_perm e q).subset hx) with rfl | hx
      · simpa using hb
      · exact h1 x hx

theorem initQueue_perm (freq : Table Count) : (initQueue freq).Perm (initEntries freq) := by
  unfold initQueue
  induction initEntries freq with
  | nil => exact .refl _
  | cons e es ih => exact (insertEntry_perm e _).trans (ih.cons e)

theorem initQueue_sorted (freq : Table Count) : sortedQueue (initQueue freq) := by
  unfold initQueue
  induction initEntries freq with
  | nil => exact .nil
  | cons e es ih => exact insertEntry_sorted e ih

/-! ## What a queue holds -/

/-- The leaf values of the trees of a queue. -/
def queueLeaves (q : List QEntry) : List Byte := q.flatMap fun e => leaves e.t

/-- The sum of the weights of a queue. -/
def queueWeight (q : List QEntry) : Nat := (q.map QEntry.w).sum

/-- The internal nodes of the trees of a queue. -/
def queueInternals (q : List QEntry) : Nat := (q.map fun e => internals e.t).sum

/-- `Merge` (R112): L - 1 merges of L entries leave one entry, with the same leaves and weight, and with one
internal node more for each merge. -/
theorem mergeLoop_spec (fuel mseq : Nat) (q : List QEntry) (h : q.length = fuel + 1) :
    ∃ e, mergeLoop fuel mseq q = [e] ∧ (leaves e.t).Perm (queueLeaves q) ∧ e.w = queueWeight q ∧
      internals e.t = queueInternals q + fuel := by
  induction fuel generalizing mseq q with
  | zero =>
    obtain ⟨e, rfl⟩ := List.length_eq_one_iff.1 h
    exact ⟨e, by simp [mergeLoop], by simp [queueLeaves], by simp [queueWeight], by simp [queueInternals]⟩
  | succ n ih =>
    match q, h with
    | a :: b :: q, h =>
      have hp := insertEntry_perm (mergeEntry mseq a b) q
      obtain ⟨e, h1, h2, h3, h4⟩ := ih (mseq + 1) (insertEntry (mergeEntry mseq a b) q)
        (by rw [length_insertEntry]; simpa using h)
      refine ⟨e, h1, h2.trans ?_, ?_, ?_⟩
      · have := hp.flatMap_right fun (e : QEntry) => leaves e.t
        simpa [queueLeaves, mergeEntry, leaves] using this
      · rw [h3, queueWeight, (hp.map QEntry.w).sum_eq]
        simp [queueWeight, mergeEntry, Nat.add_assoc]
      · rw [h4, queueInternals, (hp.map fun e => internals e.t).sum_eq]
        simp [queueInternals, mergeEntry, internals]; omega

/-- The byte values of `InitQueue`, each once. -/
theorem nodup_present (freq : Table Count) : (present freq).Nodup := nodup_allBytes.filter _

theorem mem_present {freq : Table Count} {b : Byte} : b ∈ present freq ↔ entry freq b ≠ 0 := by
  simp [present, mem_allBytes]

theorem placeholder_ne (b : Byte) : placeholder b ≠ b := by
  unfold placeholder; split
  · next h => rw [h]; decide
  · next h => exact fun e => h e.symm

theorem queueLeaves_leafEntry (freq : Table Count) (vs : List Byte) :
    queueLeaves (vs.map (leafEntry freq)) = vs := by
  induction vs with
  | nil => rfl
  | cons v vs ih =>
    simp only [queueLeaves, List.map_cons, List.flatMap_cons] at ih ⊢
    rw [ih]; rfl

theorem queueInternals_leafEntry (freq : Table Count) (vs : List Byte) :
    queueInternals (vs.map (leafEntry freq)) = 0 := by
  induction vs with
  | nil => rfl
  | cons v vs ih => simpa [queueInternals, leafEntry, internals] using ih

/-- The entries of `InitQueue` for one distinct value and for more (R111). -/
theorem initEntries_cases (freq : Table Count) :
    (∃ b, present freq = [b] ∧ initEntries freq =
      [⟨0, (placeholder b).toNat, .leaf (placeholder b)⟩, leafEntry freq b]) ∨
    ((∀ b, present freq ≠ [b]) ∧ initEntries freq = (present freq).map (leafEntry freq)) := by
  unfold initEntries
  split
  · next b h => exact .inl ⟨b, h, rfl⟩
  · next h => exact .inr ⟨h, rfl⟩

/-- After `InitQueue` on a table that is not empty: at least two entries, distinct leaves, every value that
occurred among them, no internal node (R111). -/
theorem initEntries_spec {freq : Table Count} (h : ∃ b, entry freq b ≠ 0) :
    2 ≤ (initEntries freq).length ∧ (queueLeaves (initEntries freq)).Nodup ∧
      (∀ b, entry freq b ≠ 0 → b ∈ queueLeaves (initEntries freq)) ∧
      queueInternals (initEntries freq) = 0 := by
  obtain ⟨b0, h0⟩ := h
  rcases initEntries_cases freq with ⟨b, hp, he⟩ | ⟨hp, he⟩
  · rw [he]
    refine ⟨by simp, ?_, fun c hc => ?_, by simp [queueInternals, leafEntry, internals]⟩
    · simpa [queueLeaves, leafEntry, leaves] using placeholder_ne b
    · have : c ∈ present freq := mem_present.2 hc
      rw [hp] at this
      simp_all [queueLeaves, leafEntry, leaves]
  · rw [he]
    refine ⟨?_, ?_, fun c hc => ?_, queueInternals_leafEntry _ _⟩
    · rw [List.length_map]
      match hq : present freq with
      | [] => exact absurd (mem_present.2 h0) (by simp [hq])
      | [b] => exact absurd hq (hp b)
      | _ :: _ :: _ => simp
    · rw [queueLeaves_leafEntry]; exact nodup_present freq
    · rw [queueLeaves_leafEntry]; exact mem_present.2 hc

/-- The tree BUILD makes from a table that is not empty: `Internal` at its root, distinct leaves, every value
that occurred at a leaf, at most 255 internal nodes (R112, R116, R10). -/
theorem buildTree_spec {freq : Table Count} (h : ∃ b, entry freq b ≠ 0) :
    ∃ t, buildTree freq = some t ∧ isInternal t = true ∧ (leaves t).Nodup ∧
      (∀ b, entry freq b ≠ 0 → b ∈ leaves t) ∧ internals t ≤ 255 := by
  obtain ⟨h1, h2, h3, h4⟩ := initEntries_spec h
  have hq := initQueue_perm freq
  have hlen : (initQueue freq).length = ((initQueue freq).length - 1) + 1 := by
    have := hq.length_eq; omega
  obtain ⟨e, e1, e2, -, e4⟩ := mergeLoop_spec _ 0 _ hlen
  have hl : (leaves e.t).Perm (queueLeaves (initEntries freq)) :=
    e2.trans (hq.flatMap_right fun (e : QEntry) => leaves e.t)
  have hn := hl.nodup_iff.2 h2
  refine ⟨e.t, by simp [buildTree, merge, e1], ?_, hn, fun b hb => hl.mem_iff.2 (h3 b hb), ?_⟩
  · have : 1 ≤ internals e.t := by have := hq.length_eq; omega
    cases ht : e.t with
    | leaf v => rw [ht] at this; simp [internals] at this
    | node l r => rfl
  · have := length_le_of_nodup hn
    rw [length_leaves] at this; omega

end Sys2Proof.Machine
end

