-- ==== Sys2Proof/Laws/CodeTable.lean ====
section
/-!
SUPPORT. The derived code table (spec 41 R116) and what BUILD leaves behind (R110).
-/

namespace Sys2Proof.Machine

/-- `DeriveCodes` records at every leaf the path to it, and touches no other entry (R116). -/
theorem deriveCodes_spec (t : Tree) (path : Bits) (tab : Table (Option Bits))
    (h : isInternal t = true ∨ path ≠ []) :
    ∃ tab', deriveCodes t path tab = some tab' ∧
      (∀ b, b ∉ leaves t → entry tab' b = entry tab b) ∧
      (∀ b, b ∈ leaves t → ∃ p, follow t p = some (.leaf b) ∧ entry tab' b = some (path ++ p)) := by
  induction t generalizing path tab with
  | leaf v =>
    have hp : path ≠ [] := by simpa [isInternal] using h
    refine ⟨setEntry tab v (some path), by simp [deriveCodes, hp], fun b hb => ?_, fun b hb => ?_⟩
    · exact entry_setEntry_ne _ _ (by simpa [leaves] using hb)
    · have : b = v := by simpa [leaves] using hb
      subst this
      exact ⟨[], rfl, by simp⟩
  | node l r hl hr =>
    obtain ⟨t1, e1, o1, p1⟩ := hl (path ++ [false]) tab (.inr (by simp))
    obtain ⟨t2, e2, o2, p2⟩ := hr (path ++ [true]) t1 (.inr (by simp))
    refine ⟨t2, by simp [deriveCodes, e1, e2], fun b hb => ?_, fun b hb => ?_⟩
    · simp only [leaves, List.mem_append, not_or] at hb
      rw [o2 b hb.2, o1 b hb.1]
    · by_cases hb2 : b ∈ leaves r
      · obtain ⟨p, hp, he⟩ := p2 b hb2
        exact ⟨true :: p, hp, by simp [he]⟩
      · obtain ⟨p, hp, he⟩ := p1 b (by simpa [leaves, hb2] using hb)
        exact ⟨false :: p, hp, by simp [o2 b hb2, he]⟩

/-- The code table BUILD makes of an `Internal` tree: an entry for every leaf, the path to it (R26, R116). -/
theorem deriveCodes_root {t : Tree} (h : isInternal t = true) :
    ∃ tab, deriveCodes t [] noCodes = some tab ∧
      (∀ b p, entry tab b = some p → follow t p = some (.leaf b)) ∧
      (∀ b, entry tab b ≠ none ↔ b ∈ leaves t) := by
  obtain ⟨tab, e, o, p⟩ := deriveCodes_spec t [] noCodes (.inl h)
  refine ⟨tab, e, fun b q hq => ?_, fun b => ⟨fun hb => ?_, fun hb => ?_⟩⟩
  · by_cases hb : b ∈ leaves t
    · obtain ⟨p', hp, he⟩ := p b hb
      simp only [he, List.nil_append, Option.some.injEq] at hq
      exact hq ▸ hp
    · rw [o b hb] at hq; simp [noCodes] at hq
  · by_contra hn
    exact hb (by rw [o b hn]; simp [noCodes])
  · obtain ⟨p', hp, he⟩ := p b hb
    simp [he]

/-- BUILD on a table that is not empty answers the state of R110. -/
theorem buildBody_spec {s : State} (hn : s.nsym ≠ 0) (h : ∃ b, entry s.freq b ≠ 0) :
    ∃ t code, buildTree s.freq = some t ∧ deriveCodes t [] noCodes = some code ∧ isInternal t = true ∧
      buildBody s = .next
        { emitAll .tree (treeArtifact s.nsym t) s with
          tree := t, code := code, treeOk := true, rem := s.nsym, phase := .eEncode } := by
  obtain ⟨t, ht, hi, -⟩ := buildTree_spec h
  obtain ⟨code, hc, -⟩ := deriveCodes_root hi
  refine ⟨t, code, ht, hc, hi, ?_⟩
  rw [buildBody, if_neg hn, ht]
  simp [finishBuild, hi, hc]

theorem length_be64 (n : Count) : (be64 n).length = 8 := rfl

/-- The length of the tree artifact (30_encoding R80). -/
theorem length_treeArtifact (n : Count) (t : Tree) :
    (treeArtifact n t).length = 8 + (10 * (leaves t).length - 1 + 7) / 8 := by
  have := length_ser t
  simp only [treeArtifact, List.length_append, length_be64, length_pack]
  omega

end Sys2Proof.Machine
end

