-- ==== Sys2Proof/Laws/Decode.lean ====
section
/-!
SUPPORT. The two fields of a command word (spec 30_encoding R70).
-/

namespace Sys2Proof

@[simp] theorem opField_wordOf (op a : Byte) : opField (wordOf op a) = op := by
  apply BitVec.eq_of_getLsbD_eq
  intro i hi
  have h1 : 8 + i < 16 := by omega
  simp [opField, wordOf, hi, h1]

@[simp] theorem argField_wordOf (op a : Byte) : argField (wordOf op a) = a := by
  apply BitVec.eq_of_getLsbD_eq
  intro i hi
  have h1 : i < 16 := by omega
  simp [argField, wordOf, hi, h1]

/-- A word is its two fields. -/
theorem wordOf_fields (w : CmdWord) : wordOf (opField w) (argField w) = w := by
  apply BitVec.eq_of_getLsbD_eq
  intro i hi
  by_cases h : i < 8
  · simp [opField, argField, wordOf, BitVec.getLsbD_extractLsb', h, hi]
  · have h2 : i - 8 < 8 := by omega
    have h3 : 8 + (i - 8) = i := by omega
    simp [opField, argField, wordOf, BitVec.getLsbD_extractLsb', h, h2, h3, hi]

end Sys2Proof
end

