-- ==== Sys2Proof/Laws/TreeLoader.lean ====
section
/-!
SUPPORT. The tree loader (spec 43_tree_loader R141 to R143): it reads back what `ser` writes, and it
completes a tree only on the serialization of that tree.
-/

namespace Sys2Proof.Machine

/-! ## The bits of an unfinished tree -/

/-- The bits read so far for the open nodes on the stack, top first. -/
def stackBits : List Frame → Bits
  | [] => []
  | .needLeft :: st => stackBits st ++ [false]
  | .needRight l :: st => stackBits st ++ false :: ser l

/-- The bits read so far for an open leaf: its tag and `k` value bits. -/
def leafBits : Option PartialLeaf → Bits
  | none => []
  | some p => true :: (bits8 p.v).drop (8 - p.k)

/-- `Complete` on a stack (R143): the bits read so far are those of the stack it leaves, or of the tree. -/
theorem complete_bits (t : Tree) (st : List Frame) :
    (∃ st', complete t st = (st', none) ∧ stackBits st' = stackBits st ++ ser t) ∨
    (∃ u, complete t st = ([], some u) ∧ ser u = stackBits st ++ ser t) := by
  induction st generalizing t with
  | nil => exact .inr ⟨t, rfl, rfl⟩
  | cons f st ih =>
    cases f with
    | needLeft => exact .inl ⟨.needRight t :: st, rfl, by simp [stackBits]⟩
    | needRight l =>
      rcases ih (.node l t) with ⟨st', h1, h2⟩ | ⟨u, h1, h2⟩
      · exact .inl ⟨st', h1, by simp [h2, stackBits, ser]⟩
      · exact .inr ⟨u, h1, by simp [h2, stackBits, ser]⟩

/-- Everything `Complete` can do to the state (R143). -/
theorem completeTree_cases (t : Tree) (s : State) :
    (∃ st, complete t s.pstk = (st, none) ∧ completeTree t s = { s with pstk := st } ∧
      stackBits st = stackBits s.pstk ++ ser t) ∨
    (∃ u, complete t s.pstk = ([], some u) ∧
      completeTree t s = { s with pstk := [], tree := u, treeOk := true } ∧
      ser u = stackBits s.pstk ++ ser t) := by
  rcases complete_bits t s.pstk with ⟨st, h1, h2⟩ | ⟨u, h1, h2⟩
  · exact .inl ⟨st, h1, by simp [completeTree, h1], h2⟩
  · exact .inr ⟨u, h1, by simp [completeTree, h1], h2⟩

theorem completeTree_left {t : Tree} {s : State} {st : List Frame} (h : s.pstk = .needLeft :: st) :
    completeTree t s = { s with pstk := .needRight t :: st } := by simp [completeTree, h, complete]

theorem completeTree_right {t l : Tree} {s : State} {st : List Frame}
    (h : s.pstk = .needRight l :: st) :
    completeTree t s = completeTree (.node l t) { s with pstk := st } := by
  simp [completeTree, h, complete]

/-- Everything one tree bit can do (R142). -/
theorem treeBit_cases (x : Bool) (s : State) :
    (∃ p, s.pleaf = some p ∧ p.k + 1 < 8 ∧
      treeBit x s = .ok { s with pleaf := some ⟨p.k + 1, shiftIn p.v x⟩ }) ∨
    (∃ p, s.pleaf = some p ∧ ¬ p.k + 1 < 8 ∧ entry s.seen (shiftIn p.v x) = true ∧
      treeBit x s = .error .treeDupLeaf) ∨
    (∃ p, s.pleaf = some p ∧ ¬ p.k + 1 < 8 ∧ entry s.seen (shiftIn p.v x) = false ∧
      treeBit x s = .ok (completeTree (.leaf (shiftIn p.v x))
        { s with seen := setEntry s.seen (shiftIn p.v x) true, pleaf := none })) ∨
    (s.pleaf = none ∧ x = true ∧ s.pstk = [] ∧ treeBit x s = .error .treeRootLeaf) ∨
    (s.pleaf = none ∧ x = true ∧ s.pstk ≠ [] ∧ treeBit x s = .ok { s with pleaf := some ⟨0, 0⟩ }) ∨
    (s.pleaf = none ∧ x = false ∧ s.nint = 255 ∧ treeBit x s = .error .treeTooManyInternal) ∨
    (s.pleaf = none ∧ x = false ∧ s.nint ≠ 255 ∧
      treeBit x s = .ok { s with nint := s.nint + 1, pstk := .needLeft :: s.pstk }) := by
  unfold treeBit
  cases hp : s.pleaf with
  | some p =>
    by_cases hk : p.k + 1 < 8
    · exact .inl ⟨p, rfl, hk, by simp [hk]⟩
    · cases hs : entry s.seen (shiftIn p.v x) with
      | true => exact .inr (.inl ⟨p, rfl, hk, hs, by simp [hk, hs]⟩)
      | false => exact .inr (.inr (.inl ⟨p, rfl, hk, hs, by simp [hk, hs]⟩))
  | none =>
    cases x with
    | true =>
      by_cases hs : s.pstk = []
      · exact .inr (.inr (.inr (.inl ⟨rfl, rfl, hs, by simp [hs]⟩)))
      · exact .inr (.inr (.inr (.inr (.inl ⟨rfl, rfl, hs, by simp [hs]⟩))))
    | false =>
      by_cases hn : s.nint = 255
      · exact .inr (.inr (.inr (.inr (.inr (.inl ⟨rfl, rfl, hn, by simp [hn]⟩)))))
      · exact .inr (.inr (.inr (.inr (.inr (.inr ⟨rfl, rfl, hn, by simp [hn]⟩)))))

/-! ## The loop -/

theorem loadBits_done {s : State} (h : s.treeOk = true) (xs : Bits) : loadBits xs s = s := by
  cases xs <;> simp [loadBits, h]

theorem loadBits_cons_ok {x : Bool} {s s' : State} (ht : s.treeOk = false) (hb : treeBit x s = .ok s')
    (xs : Bits) : loadBits (x :: xs) s = loadBits xs s' := by simp [loadBits, ht, hb]

theorem loadBits_cons_error {x : Bool} {s : State} {c : Cause} (ht : s.treeOk = false)
    (hb : treeBit x s = .error c) (xs : Bits) : loadBits (x :: xs) s = raise c s := by
  simp [loadBits, ht, hb]

/-- An induction along the loop (R141): what every tree bit keeps, and what a fault makes of it, holds after
the loop. -/
theorem loadBits_induct {P Q : State → Prop} (xs : Bits) (s : State) (h0 : P s)
    (hok : ∀ x s s', P s → s.treeOk = false → treeBit x s = .ok s' → P s')
    (hbad : ∀ x s c, P s → s.treeOk = false → treeBit x s = .error c → Q (raise c s)) :
    P (loadBits xs s) ∨ Q (loadBits xs s) := by
  induction xs generalizing s with
  | nil => exact .inl h0
  | cons x xs ih =>
    cases ht : s.treeOk with
    | true => rw [loadBits_done ht]; exact .inl h0
    | false =>
      cases hb : treeBit x s with
      | error c => rw [loadBits_cons_error ht hb]; exact .inr (hbad x s c h0 ht hb)
      | ok s' => rw [loadBits_cons_ok ht hb]; exact ih s' (hok x s s' h0 ht hb)

theorem treeBit_phase {x : Bool} {s s' : State} (h : treeBit x s = .ok s') : s'.phase = s.phase := by
  rcases treeBit_cases x s with ⟨p, -, -, e⟩ | ⟨p, -, -, -, e⟩ | ⟨p, -, -, -, e⟩ | ⟨-, -, -, e⟩ |
    ⟨-, -, -, e⟩ | ⟨-, -, -, e⟩ | ⟨-, -, -, e⟩ <;> rw [e] at h <;> cases h <;> try rfl
  rcases completeTree_cases (.leaf (shiftIn p.v x))
    { s with seen := setEntry s.seen (shiftIn p.v x) true, pleaf := none } with
    ⟨st, -, e, -⟩ | ⟨u, -, e, -⟩ <;> rw [e]

/-- The loop over two pieces, when the first raises no fault. -/
theorem loadBits_append {xs ys : Bits} {s : State} (h : (loadBits xs s).phase ≠ .fault) :
    loadBits (xs ++ ys) s = loadBits ys (loadBits xs s) := by
  induction xs generalizing s with
  | nil => rfl
  | cons x xs ih =>
    cases ht : s.treeOk with
    | true => rw [loadBits_done ht, loadBits_done ht, loadBits_done ht]
    | false =>
      cases hb : treeBit x s with
      | error c => simp [loadBits_cons_error ht hb] at h
      | ok s' =>
        rw [loadBits_cons_ok ht hb] at h
        rw [List.cons_append, loadBits_cons_ok ht hb, loadBits_cons_ok ht hb, ih h]

/-! ## Reading back a serialized tree -/

/-- SEEN with the values of `ls` marked. -/
def markSeen (ls : List Byte) (seen : Table Bool) : Table Bool :=
  ls.foldl (fun t b => setEntry t b true) seen

theorem entry_markSeen (ls : List Byte) (seen : Table Bool) (b : Byte) :
    entry (markSeen ls seen) b = true ↔ b ∈ ls ∨ entry seen b = true := by
  induction ls generalizing seen with
  | nil => simp [markSeen]
  | cons a ls ih =>
    rw [markSeen, List.foldl_cons, ← markSeen, ih, entry_setEntry]
    by_cases h : b = a <;> simp [h]

theorem markSeen_append (a b : List Byte) (seen : Table Bool) :
    markSeen (a ++ b) seen = markSeen b (markSeen a seen) := by simp [markSeen]

/-- The value bits of a leaf (R142): the last one finishes it. -/
theorem loadBits_value (ys xs : Bits) (k : Nat) (w : Byte) (s : State) (hk : k + ys.length = 8)
    (hy : ys ≠ []) (ht : s.treeOk = false) (hp : s.pleaf = some ⟨k, w⟩)
    (hs : entry s.seen (ys.foldl shiftIn w) = false) :
    loadBits (ys ++ xs) s =
      loadBits xs (completeTree (.leaf (ys.foldl shiftIn w))
        { s with seen := setEntry s.seen (ys.foldl shiftIn w) true, pleaf := none }) := by
  induction ys generalizing k w s with
  | nil => exact absurd rfl hy
  | cons y ys ih =>
    simp only [List.length_cons] at hk
    by_cases h : ys = []
    · subst h
      simp only [List.foldl_cons, List.foldl_nil] at hs ⊢
      have hk1 : ¬ k + 1 < 8 := by simp at hk; omega
      exact loadBits_cons_ok ht (by simp [treeBit, hp, hk1, hs]) xs
    · have := List.length_pos_iff.2 h
      have hk1 : k + 1 < 8 := by omega
      have h1 : treeBit y s = .ok { s with pleaf := some ⟨k + 1, shiftIn w y⟩ } := by
        simp only [treeBit, hp, if_pos hk1]
      rw [List.cons_append, loadBits_cons_ok ht h1]
      exact ih (k + 1) (shiftIn w y) { s with pleaf := some ⟨k + 1, shiftIn w y⟩ } (by omega) h ht rfl hs

/-- The loader on a serialized subtree (R142, R143): its leaves are marked, its internal nodes counted, and
it is attached to the innermost open node. -/
theorem loadBits_ser (t : Tree) (xs : Bits) (s : State) (ht : s.treeOk = false) (hp : s.pleaf = none)
    (hroot : isInternal t = true ∨ s.pstk ≠ []) (hn : (leaves t).Nodup)
    (hs : ∀ b ∈ leaves t, entry s.seen b = false) (hi : s.nint + internals t ≤ 255) :
    loadBits (ser t ++ xs) s =
      loadBits xs (completeTree t
        { s with nint := s.nint + internals t, seen := markSeen (leaves t) s.seen }) := by
  induction t generalizing xs s with
  | leaf v =>
    have hst : s.pstk ≠ [] := by simpa [isInternal] using hroot
    have h1 : treeBit true s = .ok { s with pleaf := some ⟨0, 0⟩ } := by simp [treeBit, hp, hst]
    have hv : (bits8 v).foldl shiftIn 0 = v := byteOf_bits8 v
    rw [ser, List.cons_append, loadBits_cons_ok ht h1, loadBits_value (bits8 v) xs 0 0
      { s with pleaf := some ⟨0, 0⟩ } rfl (by simp [bits8]) ht rfl
      (by rw [hv]; exact hs v (by simp [leaves])), hv]
    simp [internals, leaves, markSeen, ← hp]
  | node l r hl hr =>
    simp only [internals] at hi
    simp only [leaves] at hn hs
    obtain ⟨hn1, hn2, hn3⟩ := List.nodup_append.1 hn
    have h1 : treeBit false s = .ok { s with nint := s.nint + 1, pstk := .needLeft :: s.pstk } := by
      have : s.nint ≠ 255 := by omega
      simp [treeBit, hp, this]
    rw [ser, List.cons_append, loadBits_cons_ok ht h1, List.append_assoc,
      hl _ { s with nint := s.nint + 1, pstk := .needLeft :: s.pstk } ht hp (.inr (by simp)) hn1
      (fun b hb => hs b (List.mem_append_left _ hb)) (by show s.nint + 1 + _ ≤ _; omega)]
    rw [completeTree_left rfl, hr _ { s with
        nint := s.nint + 1 + internals l, pstk := .needRight l :: s.pstk,
        seen := markSeen (leaves l) s.seen } ht hp (.inr (by simp)) hn2 (fun b hb => ?_)
        (by show s.nint + 1 + _ + _ ≤ _; omega), completeTree_right rfl]
    · rw [leaves, markSeen_append, internals,
        show s.nint + (internals l + internals r + 1) = s.nint + 1 + internals l + internals r by omega]
    · rw [← Bool.not_eq_true, entry_markSeen, not_or]
      exact ⟨fun h => hn3 b h b hb rfl, by simp [hs b (List.mem_append_right _ hb)]⟩

/-! ## Only a serialized tree completes -/

/-- The bits read since a state with no open node and no open leaf: those of what is open, or, once the tree
is complete, its serialization. -/
def consumed (s : State) : Bits :=
  if s.treeOk then ser s.tree else stackBits s.pstk ++ leafBits s.pleaf

/-- The open leaf is one of R31. -/
def leafInRange (s : State) : Prop := ∀ p, s.pleaf = some p → p.k ≤ 7

theorem leafBits_shift (k : Nat) (v : Byte) (x : Bool) (hk : k ≤ 7) :
    (bits8 (shiftIn v x)).drop (8 - (k + 1)) = (bits8 v).drop (8 - k) ++ [x] := by
  have h8 : ∀ v : Byte, ∀ x : Bool, bits8 (shiftIn v x) = (bits8 v).drop 1 ++ [x] := by decide
  rw [h8, List.drop_append_of_le_length (by simp), List.drop_drop,
    show 1 + (8 - (k + 1)) = 8 - k by omega]

/-- A tree bit that raises no fault is added to the bits read. -/
theorem treeBit_consumed {x : Bool} {s s' : State} (ht : s.treeOk = false) (hk : leafInRange s)
    (h : treeBit x s = .ok s') : consumed s' = consumed s ++ [x] ∧ leafInRange s' := by
  rcases treeBit_cases x s with ⟨p, hp, hk1, e⟩ | ⟨p, -, -, -, e⟩ | ⟨p, hp, hk1, -, e⟩ | ⟨-, -, -, e⟩ |
    ⟨hp, hx, -, e⟩ | ⟨-, -, -, e⟩ | ⟨hp, hx, -, e⟩ <;> rw [e] at h <;> cases h
  · constructor
    · have := leafBits_shift p.k p.v x (by omega)
      simp only [consumed, ht, hp, leafBits, this]
      simp
    · intro q hq; simp only [Option.some.injEq] at hq; subst hq; simp; omega
  · have h7 : p.k = 7 := by have := hk p hp; omega
    have hb : ser (.leaf (shiftIn p.v x)) = leafBits s.pleaf ++ [x] := by
      have := leafBits_shift 7 p.v x (le_refl 7)
      rw [show 8 - (7 + 1) = 0 from rfl, List.drop_zero] at this
      simp [ser, hp, leafBits, h7, this]
    rcases completeTree_cases (.leaf (shiftIn p.v x))
      { s with seen := setEntry s.seen (shiftIn p.v x) true, pleaf := none } with
      ⟨st, -, e, hst⟩ | ⟨u, -, e, hst⟩ <;> rw [e]
    · exact ⟨by simp [consumed, ht, hst, hb, leafBits], by simp [leafInRange]⟩
    · exact ⟨by simp [consumed, ht, hst, hb], by simp [leafInRange]⟩
  · exact ⟨by simp [consumed, ht, hp, hx, leafBits], by intro q hq; cases hq; simp⟩
  · exact ⟨by simp [consumed, ht, hp, hx, leafBits, stackBits],
      by intro q hq; simp [hp] at hq⟩

/-- The loop without a fault reads a first piece of its bits: all of them unless the tree completes, and at least
one if there is one and the tree is not complete before. -/
theorem loadBits_consumed (xs : Bits) (s : State) (hk : leafInRange s) (hp : s.phase ≠ .fault)
    (h : (loadBits xs s).phase ≠ .fault) :
    leafInRange (loadBits xs s) ∧
    ∃ zs ys, xs = zs ++ ys ∧ consumed (loadBits xs s) = consumed s ++ zs ∧
      ((loadBits xs s).treeOk = false → ys = []) ∧ (s.treeOk = false → xs ≠ [] → zs ≠ []) := by
  induction xs generalizing s with
  | nil => exact ⟨hk, [], [], by simp [loadBits]⟩
  | cons x xs ih =>
    cases ht : s.treeOk with
    | true => rw [loadBits_done ht]; exact ⟨hk, [], x :: xs, by simp [ht]⟩
    | false =>
      cases hb : treeBit x s with
      | error c => simp [loadBits_cons_error ht hb] at h
      | ok s' =>
        rw [loadBits_cons_ok ht hb] at h ⊢
        obtain ⟨h1, h2⟩ := treeBit_consumed ht hk hb
        obtain ⟨h5, zs, ys, h3, h4, h6, -⟩ := ih s' h2 (by rw [treeBit_phase hb]; exact hp) h
        exact ⟨h5, x :: zs, ys, by rw [h3]; rfl, by rw [h4, h1]; simp, h6, by simp⟩

end Sys2Proof.Machine
end

