-- ==== Sys2Proof/Laws/Exec.lean ====
section
/-!
SUPPORT. Everything a command can do when it answers a next state, once per command: nothing (in FAULT), a fault,
or its own effect. Later proofs take these apart and unfold no meaning.
-/

namespace Sys2Proof.Machine

/-! ## The frames of the two loops -/

/-- What LOADT's loop leaves alone (R141 to R143). -/
theorem treeBit_frame {x : Bool} {s u : State} (h : treeBit x s = .ok u) :
    u = { s with
      nint := u.nint, pstk := u.pstk, pleaf := u.pleaf, seen := u.seen, tree := u.tree,
      treeOk := u.treeOk } := by
  rcases treeBit_cases x s with ⟨p, -, -, e⟩ | ⟨p, -, -, -, e⟩ | ⟨p, -, -, -, e⟩ | ⟨-, -, -, e⟩ |
    ⟨-, -, -, e⟩ | ⟨-, -, -, e⟩ | ⟨-, -, -, e⟩ <;> rw [e] at h <;> cases h <;> try rfl
  rcases completeTree_cases (.leaf (shiftIn p.v x))
    { s with seen := setEntry s.seen (shiftIn p.v x) true, pleaf := none } with
    ⟨st, -, e, -⟩ | ⟨w, -, e, -⟩ <;> rw [e]

/-- The fault of a tree bit is one of three (R183). -/
theorem treeBit_cause {x : Bool} {s : State} {c : Cause} (h : treeBit x s = .error c) :
    c = .treeRootLeaf ∨ c = .treeTooManyInternal ∨ c = .treeDupLeaf := by
  rcases treeBit_cases x s with ⟨p, -, -, e⟩ | ⟨p, -, -, -, e⟩ | ⟨p, -, -, -, e⟩ | ⟨-, -, -, e⟩ |
    ⟨-, -, -, e⟩ | ⟨-, -, -, e⟩ | ⟨-, -, -, e⟩ <;> rw [e] at h <;> cases h <;> simp

/-- LOADT's loop: the tree under construction changes, and nothing else unless a bit faults (R141). -/
theorem loadBits_frame (xs : Bits) (s : State) :
    ∃ u : State, u = { s with
        nint := u.nint, pstk := u.pstk, pleaf := u.pleaf, seen := u.seen, tree := u.tree,
        treeOk := u.treeOk } ∧
      (loadBits xs s = u ∨ ∃ c, loadBits xs s = raise c u ∧
        (c = .treeRootLeaf ∨ c = .treeTooManyInternal ∨ c = .treeDupLeaf)) := by
  rcases loadBits_induct (xs := xs) (s := s)
    (P := fun v => v = { s with
        nint := v.nint, pstk := v.pstk, pleaf := v.pleaf, seen := v.seen, tree := v.tree,
        treeOk := v.treeOk })
    (Q := fun v => ∃ u c, v = raise c u ∧ u = { s with
        nint := u.nint, pstk := u.pstk, pleaf := u.pleaf, seen := u.seen, tree := u.tree,
        treeOk := u.treeOk } ∧ (c = .treeRootLeaf ∨ c = .treeTooManyInternal ∨ c = .treeDupLeaf))
    rfl
    (fun x v w hv _ hw => by rw [treeBit_frame hw, hv])
    (fun x v c hv _ hc => ⟨v, c, rfl, hv, treeBit_cause hc⟩) with h | ⟨u, c, h1, h2, h3⟩
  · exact ⟨_, h, .inl rfl⟩
  · exact ⟨u, h2, .inr ⟨c, h1, h3⟩⟩

/-- PUSHB's loop: bytes on DATA, REM and POS change, and nothing else unless the walk falls off (R155). -/
theorem walkBits_frame (xs : Bits) (s : State) :
    ∃ (bytes : List Byte) (rem' : Count) (pos' : Tree),
      (walkBits xs s =
          { s with out := s.out ++ bytes.map (Transfer.mk .data), rem := rem', pos := pos' } ∨
        walkBits xs s = raise .walkOffTree
          { s with out := s.out ++ bytes.map (Transfer.mk .data), rem := rem', pos := pos' }) := by
  induction xs generalizing s with
  | nil => exact ⟨[], s.rem, s.pos, .inl (by simp [walkBits])⟩
  | cons x xs ih =>
    by_cases h0 : s.rem = 0
    · exact ⟨[], s.rem, s.pos, .inl (by simp [walkBits_stop h0])⟩
    · cases hc : child s.pos x with
      | none => exact ⟨[], s.rem, s.pos, .inr (by simp [walkBits_cons_off h0 hc])⟩
      | some n =>
        rw [walkBits_cons h0 hc]
        rcases arrive_cases n s with ⟨v, rfl, e⟩ | ⟨-, e⟩
        · obtain ⟨bytes, r, p, h⟩ := ih (arrive (.leaf v) s)
          refine ⟨v :: bytes, r, p, ?_⟩
          rw [e] at h ⊢
          simpa using h
        · obtain ⟨bytes, r, p, h⟩ := ih (arrive n s)
          refine ⟨bytes, r, p, ?_⟩
          rw [e] at h ⊢
          simpa using h

/-! ## One lemma per command -/

theorem execIofail_cases {s t : State} (h : execIofail s = .next t) :
    (s.phase = .fault ∧ t = s) ∨ (s.phase ≠ .fault ∧ t = raise .ioError s) := by
  by_cases hf : s.phase = .fault
  · rw [execIofail, unlessFault_fault _ hf] at h; cases h; exact .inl ⟨hf, rfl⟩
  · rw [execIofail, unlessFault_run _ hf] at h; cases h; exact .inr ⟨hf, rfl⟩

theorem execEstart_cases {s t : State} (h : execEstart s = .next t) :
    (s.phase = .fault ∧ t = s) ∨
    (s.phase ≠ .fault ∧ s.phase ≠ .idle ∧ t = raise .wrongPhase s) ∨
    (s.phase = .idle ∧ t = { s with phase := .eCount }) := by
  rcases inPhase_cases h with h | h | ⟨-, hp, h⟩
  · exact .inl h
  · exact .inr (.inl h)
  · cases h; exact .inr (.inr ⟨hp, rfl⟩)

theorem execCount_cases {b : Byte} {s t : State} (h : execCount b s = .next t) :
    (s.phase = .fault ∧ t = s) ∨
    (s.phase ≠ .fault ∧ s.phase ≠ .eCount ∧ t = raise .wrongPhase s) ∨
    (s.phase = .eCount ∧ s.nsym = maxCount ∧ t = raise .lengthOverflow s) ∨
    (s.phase = .eCount ∧ s.nsym ≠ maxCount ∧
      t = { s with freq := setEntry s.freq b (entry s.freq b + 1), nsym := s.nsym + 1 }) := by
  rcases inPhase_cases h with h | h | ⟨-, hp, h⟩
  · exact .inl h
  · exact .inr (.inl h)
  · cases h
    by_cases hn : s.nsym = maxCount
    · exact .inr (.inr (.inl ⟨hp, hn, by rw [countByte, if_pos hn]⟩))
    · exact .inr (.inr (.inr ⟨hp, hn, by rw [countByte, if_neg hn]⟩))

theorem finishBuild_cases (u : Tree) (s : State) :
    finishBuild u s = raise .emptyCode s ∨
    ∃ code, isInternal u = true ∧ deriveCodes u [] noCodes = some code ∧
      finishBuild u s = { emitAll .tree (treeArtifact s.nsym u) s with
        tree := u, code := code, treeOk := true, rem := s.nsym, phase := .eEncode } := by
  cases hi : isInternal u with
  | false => exact .inl (by simp [finishBuild, hi])
  | true =>
    obtain ⟨code, hc, -⟩ := deriveCodes_root hi
    exact .inr ⟨code, rfl, hc, by simp [finishBuild, hi, hc]⟩

theorem execBuild_cases {s t : State} (h : execBuild s = .next t) :
    (s.phase = .fault ∧ t = s) ∨
    (s.phase ≠ .fault ∧ s.phase ≠ .eCount ∧ t = raise .wrongPhase s) ∨
    (s.phase = .eCount ∧ s.nsym = 0 ∧ t = raise .empty s) ∨
    (s.phase = .eCount ∧ s.nsym ≠ 0 ∧ t = raise .emptyCode s) ∨
    (s.phase = .eCount ∧ s.nsym ≠ 0 ∧ ∃ u code, buildTree s.freq = some u ∧ isInternal u = true ∧
      deriveCodes u [] noCodes = some code ∧
      t = { emitAll .tree (treeArtifact s.nsym u) s with
        tree := u, code := code, treeOk := true, rem := s.nsym, phase := .eEncode }) := by
  rcases inPhase_cases h with h | h | ⟨-, hp, h⟩
  · exact .inl h
  · exact .inr (.inl h)
  · by_cases hn : s.nsym = 0
    · rw [buildBody, if_pos hn] at h; cases h; exact .inr (.inr (.inl ⟨hp, hn, rfl⟩))
    · rw [buildBody, if_neg hn] at h
      cases hb : buildTree s.freq with
      | none => rw [hb] at h; cases h
      | some u =>
        rw [hb] at h
        cases h
        rcases finishBuild_cases u s with e | ⟨code, hi, hc, e⟩
        · exact .inr (.inr (.inr (.inl ⟨hp, hn, e⟩)))
        · exact .inr (.inr (.inr (.inr ⟨hp, hn, u, code, rfl, hi, hc, e⟩)))

theorem execEnc_cases {b : Byte} {s t : State} (h : execEnc b s = .next t) :
    (s.phase = .fault ∧ t = s) ∨
    (s.phase ≠ .fault ∧ s.phase ≠ .eEncode ∧ t = raise .wrongPhase s) ∨
    (s.phase = .eEncode ∧ s.rem = 0 ∧ t = raise .extraSymbol s) ∨
    (s.phase = .eEncode ∧ s.rem ≠ 0 ∧ entry s.freq b = 0 ∧ t = raise .noCode s) ∨
    (s.phase = .eEncode ∧ s.rem ≠ 0 ∧ entry s.freq b ≠ 0 ∧ ∃ c bytes acc', entry s.code b = some c ∧
      t = { s with acc := acc', rem := s.rem - 1, out := s.out ++ bytes.map (Transfer.mk .bits) } ∧
      bitsOf bytes ++ acc' = s.acc ++ c ∧ (s.acc.length ≤ 7 → acc'.length ≤ 7)) := by
  rcases inPhase_cases h with h | h | ⟨-, hp, h⟩
  · exact .inl h
  · exact .inr (.inl h)
  · by_cases hr : s.rem = 0
    · rw [encodeByte, if_pos hr] at h; cases h; exact .inr (.inr (.inl ⟨hp, hr, rfl⟩))
    · rw [encodeByte, if_neg hr] at h
      by_cases hf : entry s.freq b = 0
      · rw [if_pos hf] at h; cases h; exact .inr (.inr (.inr (.inl ⟨hp, hr, hf, rfl⟩)))
      · rw [if_neg hf] at h
        cases hc : entry s.code b with
        | none => rw [hc] at h; cases h
        | some c =>
          rw [hc] at h
          cases h
          obtain ⟨bytes, acc', e, h1, h2⟩ := packBits_spec c s
          exact .inr (.inr (.inr (.inr ⟨hp, hr, hf, c, bytes, acc', rfl, by rw [e]; rfl, h1, h2⟩)))

theorem execFinish_cases {s t : State} (h : execFinish s = .next t) :
    (s.phase = .fault ∧ t = s) ∨
    (s.phase ≠ .fault ∧ s.phase ≠ .eEncode ∧ t = raise .wrongPhase s) ∨
    (s.phase = .eEncode ∧ s.rem ≠ 0 ∧ t = raise .missingSymbols s) ∨
    (s.phase = .eEncode ∧ s.rem = 0 ∧ s.acc = [] ∧ t = { s with phase := .done }) ∨
    (s.phase = .eEncode ∧ s.rem = 0 ∧ s.acc ≠ [] ∧
      t = { s with phase := .done, acc := [], out := s.out ++ [⟨.bits, byteOf (pad8 s.acc)⟩] }) := by
  rcases inPhase_cases h with h | h | ⟨-, hp, h⟩
  · exact .inl h
  · exact .inr (.inl h)
  · cases h
    by_cases hr : s.rem = 0
    · have hr' : ¬ s.rem ≠ 0 := fun e => e hr
      by_cases ha : s.acc = []
      · exact .inr (.inr (.inr (.inl ⟨hp, hr, ha, by rw [finishPack, if_neg hr', flushAcc, if_pos ha]⟩)))
      · exact .inr (.inr (.inr (.inr ⟨hp, hr, ha, by rw [finishPack, if_neg hr', flushAcc, if_neg ha]; rfl⟩)))
    · exact .inr (.inr (.inl ⟨hp, hr, by rw [finishPack, if_pos hr]⟩))

theorem execDstart_cases {s t : State} (h : execDstart s = .next t) :
    (s.phase = .fault ∧ t = s) ∨
    (s.phase ≠ .fault ∧ s.phase ≠ .idle ∧ t = raise .wrongPhase s) ∨
    (s.phase = .idle ∧ t = { s with phase := .dTree }) := by
  rcases inPhase_cases h with h | h | ⟨-, hp, h⟩
  · exact .inl h
  · exact .inr (.inl h)
  · cases h; exact .inr (.inr ⟨hp, rfl⟩)

theorem execLoadt_cases {b : Byte} {s t : State} (h : execLoadt b s = .next t) :
    (s.phase = .fault ∧ t = s) ∨
    (s.phase ≠ .fault ∧ s.phase ≠ .dTree ∧ t = raise .wrongPhase s) ∨
    (s.phase = .dTree ∧ s.hcnt < 8 ∧
      t = { s with nsym := appendByte s.nsym b, hcnt := s.hcnt + 1 }) ∨
    (s.phase = .dTree ∧ 8 ≤ s.hcnt ∧ s.treeOk = true ∧ t = raise .treeTrailing s) ∨
    (s.phase = .dTree ∧ 8 ≤ s.hcnt ∧ s.treeOk = false ∧ t = loadBits (bits8 b) s) := by
  rcases inPhase_cases h with h | h | ⟨-, hp, h⟩
  · exact .inl h
  · exact .inr (.inl h)
  · cases h
    by_cases hh : s.hcnt < 8
    · exact .inr (.inr (.inl ⟨hp, hh, by rw [loadByte, if_pos hh]⟩))
    · cases ht : s.treeOk with
      | true => exact .inr (.inr (.inr (.inl ⟨hp, by omega, rfl, by simp [loadByte, hh, ht]⟩)))
      | false => exact .inr (.inr (.inr (.inr ⟨hp, by omega, rfl, by simp [loadByte, hh, ht]⟩)))

theorem execTend_cases {s t : State} (h : execTend s = .next t) :
    (s.phase = .fault ∧ t = s) ∨
    (s.phase ≠ .fault ∧ s.phase ≠ .dTree ∧ t = raise .wrongPhase s) ∨
    (s.phase = .dTree ∧ (s.hcnt < 8 ∨ s.treeOk = false) ∧ t = raise .treeTruncated s) ∨
    (s.phase = .dTree ∧ 8 ≤ s.hcnt ∧ s.treeOk = true ∧
      t = { s with rem := s.nsym, pos := s.tree, phase := .dBits }) := by
  rcases inPhase_cases h with h | h | ⟨-, hp, h⟩
  · exact .inl h
  · exact .inr (.inl h)
  · cases h
    by_cases hh : s.hcnt < 8 ∨ s.treeOk = false
    · exact .inr (.inr (.inl ⟨hp, hh, by rw [endTree, if_pos hh]⟩))
    · refine .inr (.inr (.inr ⟨hp, by omega, ?_, by rw [endTree, if_neg hh]⟩))
      simpa using fun e => hh (.inr e)

theorem execPushb_cases {b : Byte} {s t : State} (h : execPushb b s = .next t) :
    (s.phase = .fault ∧ t = s) ∨
    (s.phase ≠ .fault ∧ s.phase ≠ .dBits ∧ t = raise .wrongPhase s) ∨
    (s.phase = .dBits ∧ s.rem = 0 ∧ t = raise .bitsExtra s) ∨
    (s.phase = .dBits ∧ s.rem ≠ 0 ∧ t = walkBits (bits8 b) s) := by
  rcases inPhase_cases h with h | h | ⟨-, hp, h⟩
  · exact .inl h
  · exact .inr (.inl h)
  · cases h
    by_cases hr : s.rem = 0
    · exact .inr (.inr (.inl ⟨hp, hr, by rw [pushByte, if_pos hr]⟩))
    · exact .inr (.inr (.inr ⟨hp, hr, by rw [pushByte, if_neg hr]⟩))

theorem execDend_cases {s t : State} (h : execDend s = .next t) :
    (s.phase = .fault ∧ t = s) ∨
    (s.phase ≠ .fault ∧ s.phase ≠ .dBits ∧ t = raise .wrongPhase s) ∨
    (s.phase = .dBits ∧ s.rem ≠ 0 ∧ t = raise .bitsTruncated s) ∨
    (s.phase = .dBits ∧ s.rem = 0 ∧ t = { s with phase := .done }) := by
  rcases inPhase_cases h with h | h | ⟨-, hp, h⟩
  · exact .inl h
  · exact .inr (.inl h)
  · cases h
    by_cases hr : s.rem = 0
    · exact .inr (.inr (.inr ⟨hp, hr, by rw [endBits, if_neg (fun e => e hr)]⟩))
    · exact .inr (.inr (.inl ⟨hp, hr, by rw [endBits, if_pos hr]⟩))

end Sys2Proof.Machine
end

