-- ==== Sys2Proof/Laws/HostPort.lean ====
section
/-!
SUPPORT. What a step can do: wait, run a word, or let another event of the host happen.
-/

namespace Sys2Proof.Machine

/-- Which event `firstOther` finds: the first after words only (the words and the events behind it stay). -/
theorem firstOther_eq_some {es left : List HostEvent} {e : HostEvent} (h : firstOther es = some (e, left)) :
    ∃ (ws : List CmdWord) (rest : List HostEvent), es = ws.map .word ++ e :: rest ∧
      left = ws.map .word ++ rest ∧ ∀ w, e ≠ .word w := by
  induction es generalizing left with
  | nil => cases h
  | cons x xs ih =>
    cases x with
    | word w =>
      simp only [firstOther, Option.map_eq_some_iff, Prod.mk.injEq] at h
      obtain ⟨⟨_, _⟩, h1, rfl, rfl⟩ := h
      obtain ⟨ws, rest, rfl, rfl, hw⟩ := ih h1
      exact ⟨w :: ws, rest, rfl, rfl, hw⟩
    | _ => cases h; exact ⟨[], xs, rfl, rfl, by simp⟩

/-- With words alone there is no other event. -/
@[simp] theorem firstOther_words (ws : List CmdWord) : firstOther (ws.map .word) = none := by
  induction ws with
  | nil => rfl
  | cons w ws ih => simp [firstOther, ih]

/-- Words before an event do not hide it. -/
theorem firstOther_append (ws : List CmdWord) {e : HostEvent} (he : ∀ w, e ≠ .word w) (rest : List HostEvent) :
    firstOther (ws.map .word ++ e :: rest) = some (e, ws.map .word ++ rest) := by
  induction ws with
  | nil => cases e <;> first | rfl | exact absurd rfl (he _)
  | cons w ws ih => simp [firstOther, ih]

/-- The events left when `e` happens behind the words `ws` that wait: reset loses the first of them (R201). -/
def leftBehind (ws : List CmdWord) (e : HostEvent) (rest : List HostEvent) : List HostEvent :=
  match e with
  | .reset _ => (ws.drop 1).map .word ++ rest
  | .word _ | .read _ | .stopTaking | .takeOne | .takeAll => ws.map .word ++ rest

/-- An event that is no word happens: at once when it is the next event, and also behind words that wait. -/
theorem step_other {s : State} {ws : List CmdWord} {e : HostEvent} {rest : List HostEvent}
    (hp : s.port = ws.map .word ++ e :: rest) (he : ∀ w, e ≠ .word w) (hw : ws = [] ∨ outputPending s = true) :
    step s = .next (hostDoes e { s with port := leftBehind ws e rest }) := by
  cases ws with
  | nil =>
    simp only [List.map_nil, List.nil_append] at hp
    cases e <;> first | exact absurd rfl (he _) | simp [step, hp, serve, leftBehind]
  | cons w ws =>
    have ho : outputPending s = true := by simpa using hw
    simp only [List.map_cons, List.cons_append] at hp
    simp only [step, hp, serve, ho, if_true, stalled, firstOther_append ws he rest]
    cases e <;> rfl

/-- A word that the block can take is run. -/
theorem step_word {s : State} {w : CmdWord} {rest : List HostEvent} (hp : s.port = .word w :: rest)
    (ho : outputPending s = false) : step s = runWord w (acceptWord rest s) := by
  simp [step, hp, serve, ho]

/-- Everything a step that answers a next state can have done. -/
theorem step_cases {s t : State} (h : step s = .next t) :
    (t = s ∧ ∃ ws : List CmdWord, s.port = ws.map .word ∧ (ws = [] ∨ outputPending s = true)) ∨
    (∃ w rest, s.port = .word w :: rest ∧ outputPending s = false ∧ runWord w (acceptWord rest s) = .next t) ∨
    ∃ (ws : List CmdWord) (e : HostEvent) (rest : List HostEvent), s.port = ws.map .word ++ e :: rest ∧
      (∀ w, e ≠ .word w) ∧ (ws = [] ∨ outputPending s = true) ∧
      t = hostDoes e { s with port := leftBehind ws e rest } := by
  cases hp : s.port with
  | nil => simp only [step, hp, waitForHost] at h; cases h; exact .inl ⟨rfl, [], rfl, .inl rfl⟩
  | cons e rest =>
    by_cases he : ∀ w, e ≠ .word w
    · rw [step_other (ws := []) (by simpa using hp) he (.inl rfl)] at h
      cases h
      exact .inr (.inr ⟨[], e, rest, rfl, he, .inl rfl, rfl⟩)
    · push Not at he
      obtain ⟨w, rfl⟩ := he
      cases ho : outputPending s with
      | false => exact .inr (.inl ⟨w, rest, rfl, rfl, (step_word hp ho).symm.trans h⟩)
      | true =>
        cases hf : firstOther rest with
        | none =>
          simp only [step, hp, serve, ho, if_true, stalled, hf] at h
          cases h
          refine .inl ⟨rfl, ?_⟩
          have : ∀ es : List HostEvent, firstOther es = none → ∃ ws : List CmdWord, es = ws.map .word := by
            intro es
            induction es with
            | nil => exact fun _ => ⟨[], rfl⟩
            | cons x xs ih =>
              intro hx
              cases x with
              | word v =>
                obtain ⟨ws, rfl⟩ := ih (by simpa [firstOther] using hx)
                exact ⟨v :: ws, rfl⟩
              | _ => cases hx
          obtain ⟨ws, rfl⟩ := this rest hf
          exact ⟨w :: ws, rfl, .inr rfl⟩
        | some p =>
          obtain ⟨e, left⟩ := p
          obtain ⟨ws, rest', rfl, rfl, he⟩ := firstOther_eq_some hf
          have hp' : s.port = (w :: ws).map .word ++ e :: rest' := hp
          rw [step_other hp' he (.inr ho)] at h
          cases h
          exact .inr (.inr ⟨w :: ws, e, rest', rfl, he, .inr rfl, rfl⟩)

/-- What a read while bytes are being taken shows: the registers before the command or after it (R60, R211). -/
theorem readView_cases (s : State) :
    (outputPending s = false ∧ readView s = s) ∨
    (outputPending s = true ∧ (readView s = s ∨ readView s = beforeCommand s)) := by
  cases ho : outputPending s <;> simp [readView, ho]
  cases Config.freeBoundary s.freeCount <;> simp

/-- Once the boundary kept is the present one, a read shows the present value: reads do not go back (R60). -/
theorem readView_of_before {s : State} (h : s.before = boundaryOf s) : readView s = s := by
  have hb : beforeCommand s = s := by cases s; simp_all [beforeCommand, boundaryOf]
  simp [readView, hb]

/-- A read keeps the boundary it has shown. -/
theorem boundaryOf_readView (s : State) :
    boundaryOf (readView s) = boundaryOf s ∨ boundaryOf (readView s) = s.before := by
  rcases readView_cases s with ⟨-, h⟩ | ⟨-, h | h⟩ <;> simp [h, boundaryOf, beforeCommand]

end Sys2Proof.Machine
end

