-- ==== Sys2Proof/Laws/PerInstr.lean ====
section
/-!
SUPPORT. Statements about every command as syntax, one lemma per constructor.
-/

/-- The word of the command is legal (spec 30_encoding R74), the row that selects it bears the command's mnemonic
(R72), its argument field is the operand, and 0x00 where there is none (R71); the operand is one byte. -/
def Sys2Proof.Laws.EncodedLegal.Statement (i : Sys2Proof.Instr) : Prop :=
  Sys2Proof.legalWord (Sys2Proof.encode i) = true ∧
    (Sys2Proof.commandTable.filter fun r => r.selects (Sys2Proof.encode i)).map Sys2Proof.Row.mnemonic =
      [i.mnemonic] ∧
    Sys2Proof.argField (Sys2Proof.encode i) = i.operand.getD 0 ∧ i.wellFormed = true

theorem Sys2Proof.Laws.EncodedLegal.clear : Sys2Proof.Laws.EncodedLegal.Statement .clear := by
  unfold Sys2Proof.Laws.EncodedLegal.Statement; decide

theorem Sys2Proof.Laws.EncodedLegal.iofail : Sys2Proof.Laws.EncodedLegal.Statement .iofail := by
  unfold Sys2Proof.Laws.EncodedLegal.Statement; decide

theorem Sys2Proof.Laws.EncodedLegal.estart : Sys2Proof.Laws.EncodedLegal.Statement .estart := by
  unfold Sys2Proof.Laws.EncodedLegal.Statement; decide

theorem Sys2Proof.Laws.EncodedLegal.count (arg : Sys2Proof.Byte) :
    Sys2Proof.Laws.EncodedLegal.Statement (.count arg) := by
  unfold Sys2Proof.Laws.EncodedLegal.Statement; revert arg; decide +kernel

theorem Sys2Proof.Laws.EncodedLegal.build : Sys2Proof.Laws.EncodedLegal.Statement .build := by
  unfold Sys2Proof.Laws.EncodedLegal.Statement; decide

theorem Sys2Proof.Laws.EncodedLegal.enc (arg : Sys2Proof.Byte) :
    Sys2Proof.Laws.EncodedLegal.Statement (.enc arg) := by
  unfold Sys2Proof.Laws.EncodedLegal.Statement; revert arg; decide +kernel

theorem Sys2Proof.Laws.EncodedLegal.finish : Sys2Proof.Laws.EncodedLegal.Statement .finish := by
  unfold Sys2Proof.Laws.EncodedLegal.Statement; decide

theorem Sys2Proof.Laws.EncodedLegal.dstart : Sys2Proof.Laws.EncodedLegal.Statement .dstart := by
  unfold Sys2Proof.Laws.EncodedLegal.Statement; decide

theorem Sys2Proof.Laws.EncodedLegal.loadt (arg : Sys2Proof.Byte) :
    Sys2Proof.Laws.EncodedLegal.Statement (.loadt arg) := by
  unfold Sys2Proof.Laws.EncodedLegal.Statement; revert arg; decide +kernel

theorem Sys2Proof.Laws.EncodedLegal.tend : Sys2Proof.Laws.EncodedLegal.Statement .tend := by
  unfold Sys2Proof.Laws.EncodedLegal.Statement; decide

theorem Sys2Proof.Laws.EncodedLegal.pushb (arg : Sys2Proof.Byte) :
    Sys2Proof.Laws.EncodedLegal.Statement (.pushb arg) := by
  unfold Sys2Proof.Laws.EncodedLegal.Statement; revert arg; decide +kernel

theorem Sys2Proof.Laws.EncodedLegal.dend : Sys2Proof.Laws.EncodedLegal.Statement .dend := by
  unfold Sys2Proof.Laws.EncodedLegal.Statement; decide
end

