-- ==== Sys2Proof/Laws/Runs.lean ====
section
/-!
SUPPORT. Runs of command lists (spec 20_memory R60): one command at a time, in pieces, and in FAULT.
-/

namespace Sys2Proof.Machine

theorem sendAll_nil (s : State) : sendAll [] s = .next s := rfl

theorem sendAll_cons {i : Instr} {s t : State} (h : exec i s = .next t) (is : List Instr) :
    sendAll (i :: is) s = sendAll is t := by simp [sendAll, h]

/-- A run in two pieces, when the first answers a next state. -/
theorem sendAll_append {is js : List Instr} {s t : State} (h : sendAll is s = .next t) :
    sendAll (is ++ js) s = sendAll js t := by
  induction is generalizing s with
  | nil => cases h; rfl
  | cons i is ih =>
    simp only [sendAll, List.cons_append] at h ⊢
    split at h
    · exact ih h
    · cases h
    · cases h

/-- In FAULT a command that is not CLEAR is discarded, and so is a list of them (R168). -/
theorem sendAll_fault {s : State} (hp : s.phase = .fault) {is : List Instr} (h : ∀ i ∈ is, i ≠ .clear) :
    sendAll is s = .next s := by
  induction is with
  | nil => rfl
  | cons i is ih =>
    have hi : exec i s = .next s := by
      have hne := h i (by simp)
      cases i <;> first
        | exact absurd rfl hne
        | exact inPhase_fault _ hp
        | exact unlessFault_fault _ hp
    rw [sendAll_cons hi]
    exact ih fun j hj => h j (by simp [hj])

end Sys2Proof.Machine
end

