-- ==== Sys2Proof/Tests/Slice0.lean ====
section
/-!
SUPPORT. Tests: expected values from spec 95_test_vectors (V and P numbers) and the rules' own examples; and, for
every statement with hypotheses, a witness that meets them (`witness_<statement>`).
-/

open Sys2Proof Sys2Proof.Machine

namespace Sys2Proof.Tests

/-! ## Small states -/

def nextOf : Result → Option State
  | .next t => some t
  | .fault _ | .refused _ => none

theorem next_of {i : Instr} {s : State} {P : State → Bool} (h : (nextOf (exec i s)).any P = true) :
    ∃ t, exec i s = .next t ∧ P t = true := by
  cases hr : exec i s <;> simp_all [nextOf]

/-- A table with the listed entries and `d` elsewhere. -/
def tableOf {α : Type} (d : α) (l : List (Byte × α)) : Table α :=
  l.foldl (fun t p => setEntry t p.1 p.2) (Vector.replicate 256 d)

def abaac : List Byte := [0x41, 0x42, 0x41, 0x41, 0x43]
def treeV1 : Tree := .node (.node (.leaf 0x42) (.leaf 0x43)) (.leaf 0x41)
def artifactV1 : List Byte := [0, 0, 0, 0, 0, 0, 0, 5, 0x28, 0x54, 0x3A, 0x08]

def idle : State := { State.reset with index := 1 }
def failed : State := { State.reset with phase := .fault, err := ⟨4, 7⟩ }
def finished : State := { State.reset with phase := .done, treeOk := true, tree := treeV1, nsym := 5 }
def counting : State := { State.reset with phase := .eCount }
def counted : State :=
  { counting with freq := tableOf 0 [(0x41, 3), (0x42, 1), (0x43, 1)], nsym := 5 }
def built : State :=
  { counted with
    phase := .eEncode, tree := treeV1, treeOk := true, rem := 5,
    code := tableOf none [(0x41, some [true]), (0x42, some [false, false]), (0x43, some [false, true])] }
def packed : State := { built with rem := 0, acc := [true, false, false, true, true, false, true] }
def oneSymbol : State := { counting with freq := tableOf 0 [(0x41, 4)], nsym := 4 }
def loading : State := { State.reset with phase := .dTree }
def header7 : State := { loading with hcnt := 7 }
def header8 : State := { loading with hcnt := 8, nsym := 5 }
def loaded : State :=
  { header8 with
    tree := treeV1, treeOk := true, nint := 2,
    seen := tableOf false [(0x41, true), (0x42, true), (0x43, true)] }
def walking : State := { loaded with phase := .dBits, rem := 5, pos := treeV1 }
def walked : State := { walking with rem := 0 }
def pending : State := { State.reset with out := [⟨.data, 0x41⟩, ⟨.data, 0x42⟩], held := some 1 }

/-! ## Encodings: the well-formedness checks, and words written out from the table -/

theorem test_wellFormed_refuses :
    legalWord 0x1201 = false ∧ legalWord 0x0000 = false ∧ legalWord 0x0101 = false ∧
      legalWord 0xFFFF = false ∧ legalWord 0x1200 = true ∧ (Instr.count 0xFF).wellFormed = true := by decide

theorem test_decode_refuses :
    decode 0x0000 = .error (.unknownOpcode 0x00) ∧ decode 0xFFFF = .error (.unknownOpcode 0xFF) ∧
      decode 0x1201 = .error (.argumentNotZero 0x12 0x01) ∧
      decode 0x0101 = .error (.argumentNotZero 0x01 0x01) := by decide

theorem test_decode_clear : decode 0b0000000100000000 = .ok .clear := by decide
theorem test_decode_iofail : decode 0b0000001000000000 = .ok .iofail := by decide
theorem test_decode_estart : decode 0b0001000000000000 = .ok .estart := by decide
theorem test_decode_count : decode 0b0001000111111111 = .ok (.count 0xFF) := by decide
theorem test_decode_build : decode 0b0001001000000000 = .ok .build := by decide
theorem test_decode_enc : decode 0b0001001101000001 = .ok (.enc 0x41) := by decide
theorem test_decode_finish : decode 0b0001010000000000 = .ok .finish := by decide
theorem test_decode_dstart : decode 0b0010000000000000 = .ok .dstart := by decide
theorem test_decode_loadt : decode 0b0010000100101000 = .ok (.loadt 0x28) := by decide
theorem test_decode_tend : decode 0b0010001000000000 = .ok .tend := by decide
theorem test_decode_pushb : decode 0b0010001110011010 = .ok (.pushb 0x9A) := by decide
theorem test_decode_dend : decode 0b0010010000000000 = .ok .dend := by decide

/-- R76. -/
theorem test_asm : asmText (.count 0x41) = "COUNT 0x41" ∧ asmText .build = "BUILD" ∧
    asmText (.pushb 0x9A) = "PUSHB 0x9A" := by decide

theorem test_decodeTableWord : decodeTableWord 16 0x2128 = some (.loadt 0x28) ∧
    decodeTableWord 16 0x1201 = none := by decide

/-- The very next step runs the word, also where an event or an untaken byte stood before it. -/
theorem test_withFetchWord :
    (nextOf (step (State.reset.withFetchWord 16 0x1000))).map (fun t => (t.phase, t.port, t.index)) =
        some (.eCount, [], 1) ∧
      (nextOf (step ({ pending with port := [.takeOne] }.withFetchWord 16 0x2000))).map
        (fun t => (t.phase, t.port)) = some (.dTree, [.takeOne]) := by decide

/-! ## One step each -/

/-- R165: from FAULT with ERR = (4, 7). -/
theorem test_clear : (nextOf (exec .clear failed)).map (fun t => (t.phase, t.err, errByte t)) =
    some (.idle, ⟨0, 0⟩, 0x00) := by decide

/-- P6, command 7. -/
theorem test_iofail_done : (nextOf (exec .iofail finished)).map (fun t => (t.phase, errByte t, doneFlag t)) =
    some (.fault, 0x01, false) := by decide

/-- V16: discarded in FAULT. -/
theorem test_iofail_fault : (nextOf (exec .iofail failed)).map (fun t => t.err) = some ⟨4, 7⟩ := by decide

/-- R101. -/
theorem test_estart : (nextOf (exec .estart State.reset)).map (fun t => (t.phase, statusByte t)) =
    some (.eCount, 0x01) := by decide

/-- V16: a second ESTART. -/
theorem test_estart_again : (nextOf (exec .estart counting)).map (fun t => (t.phase, errByte t)) =
    some (.fault, 0x15) := by decide

/-- V12. -/
theorem test_count : (nextOf (exec (.count 0xFF) { counting with nsym := 1 })).map
    (fun t => (entry t.freq 0xFF, entry t.freq 0x00, t.nsym)) = some (1, 0, 2) := by decide

/-- V12, at the largest count. -/
theorem test_count_overflow : (nextOf (exec (.count 0x41)
    { counting with nsym := 0xFFFFFFFFFFFFFFFF })).map (fun t => (errByte t, entry t.freq 0x41, t.nsym)) =
      some (0x12, 0, 0xFFFFFFFFFFFFFFFF) := by decide

/-- V1: the tree, the codes, the artifact. -/
theorem test_build :
    (nextOf (exec .build counted)).map (fun t => (t.tree, t.phase)) = some (treeV1, .eEncode) ∧
      (nextOf (exec .build counted)).map (fun t => (entry t.code 0x41, entry t.code 0x43, t.rem)) =
        some (some [true], some [false, true], 5) ∧
      (nextOf (exec .build counted)).map (fun t => onChannel .tree t.out) = some artifactV1 := by decide +kernel

/-- V7: the placeholder, for the byte 0x00. -/
theorem test_build_one : (nextOf (exec .build { oneSymbol with freq := tableOf 0 [(0x00, 3)], nsym := 3 })).map
    (fun t => (t.tree, onChannel .tree t.out)) =
      some (.node (.leaf 0x01) (.leaf 0x00), [0, 0, 0, 0, 0, 0, 0, 3, 0x40, 0x60, 0x00]) := by decide +kernel

/-- V11: a code of 9 bits into an accumulator that holds one bit. -/
theorem test_enc : (nextOf (exec (.enc 0x01)
    { built with
      acc := [false], freq := tableOf 0 [(0x01, 1)], code := tableOf none [(0x01, some (List.replicate 9 true))] })).map
    (fun t => (onChannel .bits t.out, t.acc, t.rem)) = some ([0x7F], [true, true], 4) := by decide +kernel

/-- V13: the placeholder value has a code and no count. -/
theorem test_enc_noCode : (nextOf (exec (.enc 0x00)
    { built with freq := tableOf 0 [(0x41, 2)], code := tableOf none [(0x00, some [false])] })).map
    (fun t => (errByte t, t.rem)) = some (0x13, 5) := by decide

/-- P1, command 12. -/
theorem test_finish : (nextOf (exec .finish packed)).map
    (fun t => (onChannel .bits t.out, t.acc, t.phase, statusByte t)) = some ([0x9A], [], .done, 0x2D) := by decide

/-- V13: the pending bit is not flushed. -/
theorem test_finish_missing : (nextOf (exec .finish { built with rem := 1, acc := [false] })).map
    (fun t => (errByte t, t.out, t.acc)) = some (0x23, [], [false]) := by decide

/-- R140. -/
theorem test_dstart : (nextOf (exec .dstart State.reset)).map (fun t => (t.phase, statusByte t)) =
    some (.dTree, 0x03) := by decide

/-- V16: DSTART in E_COUNT. -/
theorem test_dstart_wrong : (nextOf (exec .dstart counting)).map (fun t => t.err) = some ⟨5, 2⟩ := by decide

/-- P2, command 9: two internal tags, a leaf tag and five value bits. -/
theorem test_loadt : (nextOf (exec (.loadt 0x28) header8)).map (fun t => (t.nint, t.pleaf, t.pstk.length)) =
    some (2, some ⟨5, 0b01000⟩, 2) := by decide

/-- P2, command 12: the last leaf closes the root and three bits are padding; all of them may be 1 (V14). -/
theorem test_loadt_last : (nextOf (exec (.loadt 0x0F)
    { header8 with
      pstk := [.needRight (.node (.leaf 0x42) (.leaf 0x43))], pleaf := some ⟨3, 0b010⟩, nint := 2 })).map
    (fun t => (t.tree, t.treeOk, t.pstk, t.phase)) = some (treeV1, true, [], .dTree) := by decide

/-- P2, command 13. -/
theorem test_tend : (nextOf (exec .tend loaded)).map (fun t => (t.rem, t.pos, t.phase, statusByte t)) =
    some (5, treeV1, .dBits, 0x24) := by decide

/-- V14: HCNT = 3. -/
theorem test_tend_short : (nextOf (exec .tend { loading with hcnt := 3 })).map (fun t => errByte t) =
    some 0x2C := by decide

/-- P2, command 14. -/
theorem test_pushb : (nextOf (exec (.pushb 0x9A) walking)).map (fun t => (onChannel .data t.out, t.rem, t.pos)) =
    some (abaac, 0, treeV1) := by decide

/-- P5, command 14: the sixth symbol is half walked. -/
theorem test_pushb_half : (nextOf (exec (.pushb 0x9A) { walking with rem := 6 })).map
    (fun t => (onChannel .data t.out, t.rem, t.pos)) =
      some (abaac, 1, .node (.leaf 0x42) (.leaf 0x43)) := by decide

/-- P2, command 15. -/
theorem test_dend : (nextOf (exec .dend walked)).map (fun t => (t.phase, statusByte t)) =
    some (.done, 0x2D) := by decide

/-- V15. -/
theorem test_dend_truncated : (nextOf (exec .dend { walking with rem := 1 })).map (fun t => errByte t) =
    some 0x3C := by decide

/-- R65, R210: an untaken byte holds the next word back. -/
theorem test_stalled : (nextOf (step { pending with port := [.word 0x0100] })).map (fun t => t.port) =
    some [.word 0x0100] := by decide

/-- R211: a status read is answered while a word waits for untaken bytes; the word stays. -/
theorem test_stalled_read : (nextOf (step { pending with port := [.word 0x0100, .read .status] })).map
    (fun t => (t.reads.length, t.port, t.index, t.out.length)) = some (1, [.word 0x0100], 0, 2) := by decide

/-- 93 U18: hardware reset gets a stuck block out; the waiting word is lost (R201). -/
theorem test_stalled_reset : (nextOf (step { pending with port := [.word 0x0100, .reset none, .word 0x1000] })).map
    (fun t => (t.port, outputPending t, t.out)) = some ([.word 0x1000], false, [⟨.data, 0x41⟩]) := by decide

/-- R65: taking the last byte lets the waiting word in. -/
theorem test_stalled_take : (nextOf (step { pending with port := [.word 0x0100, .takeOne] })).map
    (fun t => (t.port, outputPending t, takenOut t)) =
      some ([.word 0x0100], false, [⟨.data, 0x41⟩, ⟨.data, 0x42⟩]) := by decide

/-- R60: with a byte of the command taken, the boundary before it is no longer shown. -/
theorem test_take_forgets : (nextOf (step { pending with nsym := 7, out := pending.out ++ [⟨.data, 0x43⟩], port := [.takeOne] })).map
    (fun t => (outputPending t, t.before.nsym)) = some (true, 7) := by decide

/-! ## States of the invariant -/

theorem freq_counted (b : Byte) : entry counted.freq b =
    if b = 0x41 then 3 else if b = 0x42 then 1 else if b = 0x43 then 1 else 0 := by
  simp only [counted, tableOf, List.foldl, entry_setEntry]
  by_cases h1 : b = 0x41 <;> by_cases h2 : b = 0x42 <;> by_cases h3 : b = 0x43 <;> simp_all [entry]

theorem code_built (b : Byte) : entry built.code b =
    if b = 0x41 then some [true] else if b = 0x42 then some [false, false]
    else if b = 0x43 then some [false, true] else none := by
  simp only [built, tableOf, List.foldl, entry_setEntry]
  by_cases h1 : b = 0x41 <;> by_cases h2 : b = 0x42 <;> by_cases h3 : b = 0x43 <;> simp_all [entry]

theorem freqSum_counted : freqSum counted.freq = 5 := by decide +kernel

theorem freqSum_zero : freqSum State.reset.freq = 0 := by
  simp [freqSum, State.reset]

theorem inv_idle : Inv idle := by
  refine ⟨by decide, .inl rfl, ?_, ?_, ?_, ?_, ?_, ?_, ?_, ?_, ?_, ?_⟩
  · show atReset idle
    rfl
  all_goals simp [idle, State.reset]

theorem inv_counting : Inv counting := by
  refine ⟨by decide, .inl rfl, ?_, ?_, ?_, ?_, ?_, ?_, ?_, ?_, ?_, ?_⟩
  · show _ ∧ _
    exact ⟨freqSum_zero.symm, rfl, rfl, rfl, rfl, rfl, rfl, rfl, rfl, rfl⟩
  all_goals simp [counting, State.reset]

theorem inv_counted : Inv counted := by
  refine ⟨by decide, .inl rfl, ?_, ?_, ?_, ?_, ?_, ?_, ?_, ?_, ?_, ?_⟩
  · show _ ∧ _
    exact ⟨freqSum_counted.symm, rfl, rfl, rfl, rfl, rfl, rfl, rfl, rfl, rfl⟩
  all_goals simp [counted, counting, State.reset]

theorem codes_built : codesOf treeV1 built.code := by
  refine ⟨fun b p hp => ?_, fun b => ?_⟩
  · rw [code_built] at hp
    split at hp
    · subst_vars; cases hp; decide
    · split at hp
      · subst_vars; cases hp; decide
      · split at hp
        · subst_vars; cases hp; decide
        · cases hp
  · rw [code_built]
    by_cases h1 : b = 0x41 <;> by_cases h2 : b = 0x42 <;> by_cases h3 : b = 0x43 <;> simp_all [treeV1, leaves]

theorem code_of_counted (b : Byte) (h : entry counted.freq b ≠ 0) : entry built.code b ≠ none := by
  rw [freq_counted] at h
  rw [code_built]
  by_cases h1 : b = 0x41 <;> by_cases h2 : b = 0x42 <;> by_cases h3 : b = 0x43 <;> simp_all

theorem inv_built : Inv built := by
  refine ⟨by decide, .inl rfl, ?_, fun _ _ => by decide, ?_, ?_, fun _ => codes_built, ?_, ?_, ?_, ?_, ?_⟩
  · show _ ∧ _
    exact ⟨by decide, freqSum_counted.symm, rfl, code_of_counted, by decide, by decide⟩
  all_goals simp [built, counted, counting, State.reset]

theorem inv_packed : Inv packed := by
  refine ⟨by decide, .inl rfl, ?_, fun _ _ => by decide, ?_, ?_, fun _ => codes_built, ?_, ?_, ?_, ?_, ?_⟩
  · show _ ∧ _
    exact ⟨by decide, freqSum_counted.symm, rfl, code_of_counted, by decide, by decide⟩
  all_goals simp [packed, built, counted, counting, State.reset]

theorem inv_header7 : Inv header7 := by
  refine ⟨by decide, .inl rfl, ?_, ?_, ?_, ?_, ?_, fun _ => ?_, ?_, ?_, ?_, ?_⟩
  · show _ ∧ _
    exact ⟨fun b => entry_replicate 0 b, by decide, fun _ => ⟨rfl, rfl, rfl, rfl⟩, by decide, by decide,
      by decide⟩
  all_goals simp [header7, loading, State.reset, loaderFacts, stackLeaves, stackInternals]

theorem inv_header8 : Inv header8 := by
  refine ⟨by decide, .inl rfl, ?_, ?_, ?_, ?_, ?_, fun _ => ?_, ?_, ?_, ?_, ?_⟩
  · show _ ∧ _
    exact ⟨fun b => entry_replicate 0 b, by decide, fun _ => ⟨rfl, rfl, rfl, rfl⟩, by decide, by decide,
      by decide⟩
  all_goals simp [header8, loading, State.reset, loaderFacts, stackLeaves, stackInternals]

theorem inv_walking : Inv walking := by
  refine ⟨by decide, .inl rfl, ?_, fun _ _ => by decide, ?_, ?_, ?_, ?_, ?_, fun _ => by decide, ?_, ?_⟩
  · show _ ∧ _
    exact ⟨rfl, rfl, by decide, by decide⟩
  all_goals simp [walking, loaded, header8, loading, State.reset]

theorem inv_walked : Inv walked := by
  refine ⟨by decide, .inl rfl, ?_, fun _ _ => by decide, ?_, ?_, ?_, ?_, ?_, fun _ => by decide, ?_, ?_⟩
  · show _ ∧ _
    exact ⟨rfl, rfl, by decide, by decide⟩
  all_goals simp [walked, walking, loaded, header8, loading, State.reset]

theorem reset_values_idle : resetValues idle := by
  simp [resetValues, idle, State.reset]

/-! ## Witnesses: for each statement with hypotheses, concrete values that meet them, clause by clause -/

theorem witness_DecodeOfEncode :
    decode 0x1141 = .ok (.count 0x41) ∧ ∀ i : Instr, (0x1201 : CmdWord) ≠ encode i := by
  refine ⟨by decide, fun i h => ?_⟩
  have h2 : opField 0x1201 = opField (encode i) := congrArg opField h
  have h3 : argField 0x1201 = argField (encode i) := congrArg argField h
  cases i <;> simp only [encode, opField_wordOf, argField_wordOf] at h2 h3 <;>
    first | exact absurd h2 (by decide) | exact absurd h3 (by decide)

theorem witness_CommandTableSelects :
    (⟨"BUILD", .z, 0x1200, 0xFFFF⟩ : Row) ∈ commandTable ∧ (0x1200 : CmdWord) &&& 0xFFFF = 0x1200 ∧
      (⟨"COUNT", .b, 0x1100, 0xFF00⟩ : Row) ∈ commandTable ∧ (0x11FF : CmdWord) &&& 0xFF00 = 0x1100 := by decide

theorem witness_IllegalWords :
    legalWord 0x1201 = false ∧ legalWord 0x2500 = false ∧ idle.phase ≠ .fault ∧ failed.phase = .fault := by
  decide

theorem witness_DispatchOfWord :
    failed.phase = .fault ∧ (0x0101 : CmdWord) ≠ 0x0100 ∧ idle.phase ≠ .fault ∧
      (∀ r ∈ commandTable, (0x0101 : CmdWord) &&& r.mask ≠ r.matchBits) ∧
      decode 0x1141 = .ok (.count 0x41) ∧ legalIn (.count 0x41) idle.phase = false ∧
      legalIn (.count 0x41) counting.phase = true ∧ counting.phase ≠ .fault := by decide

theorem witness_StepRunsDecodedCommand :
    ∃ s : State, s.port = .word 0x1000 :: [] ∧ outputPending s = false ∧ decode 0x1000 = .ok .estart :=
  ⟨{ idle with port := [.word 0x1000] }, by decide⟩

theorem witness_StepTakesIllegalWord :
    (∃ s : State, s.port = .word 0x1201 :: [] ∧ outputPending s = false ∧
      decode 0x1201 = .error (.argumentNotZero 0x12 0x01) ∧ s.phase = .fault) ∧
    ∃ s : State, s.port = .word 0x1201 :: [] ∧ outputPending s = false ∧ s.phase ≠ .fault :=
  ⟨⟨{ failed with port := [.word 0x1201] }, by decide⟩, ⟨{ idle with port := [.word 0x1201] }, by decide⟩⟩

theorem witness_HostAndBlockWait :
    (idle.port = ([] : List CmdWord).map HostEvent.word) ∧
    (∃ s : State, s.port = [0x0100].map HostEvent.word ∧ outputPending s = true) ∧
    (∃ s : State, s.port = [0x0100].map HostEvent.word ++ .takeAll :: [] ∧ outputPending s = true) ∧
    (∃ s : State, s.port = [0x0100].map HostEvent.word ++ .takeOne :: [] ∧ outputPending s = true) ∧
    (∃ s : State, s.port = ([] : List CmdWord).map HostEvent.word ++ .takeOne :: [] ∧ outputPending s = false) ∧
    (∃ s : State, s.port = [0x0100].map HostEvent.word ++ .stopTaking :: [] ∧ outputPending s = true) ∧
    ∃ s : State, s.port = ([] : List CmdWord).map HostEvent.word ++ .stopTaking :: [] ∧ s.held = none :=
  ⟨rfl, ⟨{ pending with port := [.word 0x0100] }, by decide⟩,
    ⟨{ pending with port := [.word 0x0100, .takeAll] }, by decide⟩,
    ⟨{ pending with port := [.word 0x0100, .takeOne] }, by decide⟩, ⟨{ idle with port := [.takeOne] }, by decide⟩,
    ⟨{ pending with port := [.word 0x0100, .stopTaking] }, by decide⟩,
    ⟨{ idle with port := [.stopTaking] }, by decide⟩⟩

theorem witness_StatusReadHasNoEffect :
    (∃ s : State, s.port = ([] : List CmdWord).map HostEvent.word ++ .read .nsym :: [] ∧ outputPending s = false ∧
      s.phase = .fault) ∧
    (∃ s : State, s.port = [0x0100].map HostEvent.word ++ .read .rem :: [] ∧ outputPending s = true) ∧
    ∃ s : State, s.port = [0x0100].map HostEvent.word ++ .read .rem :: [] ∧ outputPending s = true ∧
      s.before = ⟨s.phase, s.err, s.nsym, s.rem, s.treeOk⟩ :=
  ⟨⟨{ failed with port := [.read .nsym] }, by decide⟩,
    ⟨{ pending with nsym := 7, port := [.word 0x0100, .read .rem] }, by decide⟩,
    ⟨{ pending with port := [.word 0x0100, .read .rem] }, by decide⟩⟩

theorem witness_StatusRegisterFields : Inv idle ∧ Inv packed ∧ idle.phase ≠ .fault := ⟨inv_idle, inv_packed, by decide⟩

theorem witness_StatusExactness : failed.phase = .fault ∧ finished.phase ≠ .fault := by decide

theorem witness_ResetAndClearValues : resetValues idle ∧
    ∃ s : State, s.port = .reset none :: [] ∧ s.phase = .fault :=
  ⟨reset_values_idle, { failed with port := [.reset none] }, by decide⟩

theorem witness_HardwareReset :
    (∃ s : State, s.port = .reset none :: [] ∧ outputPending s = true) ∧
    (∃ s : State, s.port = .reset (some 0x1000) :: [] ∧ outputPending s = false) ∧
    ∃ s : State, s.port = .word 0x1000 :: [0x1141].map HostEvent.word ++ .reset none :: [] ∧
      outputPending s = true :=
  ⟨⟨{ pending with port := [.reset none] }, by decide⟩, ⟨{ built with port := [.reset (some 0x1000)] }, by decide⟩,
    ⟨{ pending with port := [.word 0x1000, .word 0x1141, .reset none] }, by decide⟩⟩

theorem witness_ClearRule :
    (Inv idle ∧ idle.phase = .idle) ∧ (Instr.estart ≠ .clear ∧ failed.phase = .fault) ∧
      ∃ t, Instr.iofail ≠ .clear ∧ finished.phase = .done ∧ exec .iofail finished = .next t :=
  ⟨⟨inv_idle, rfl⟩, by decide, _, by decide, rfl, rfl⟩

theorem witness_IofailRule : idle.phase ≠ .fault ∧ failed.phase = .fault ∧
    ∃ t, finished.phase ≠ .fault ∧ exec .iofail finished = .next t := ⟨by decide, rfl, _, by decide, rfl⟩

theorem witness_FaultDiscardsWords : failed.phase = .fault ∧ Instr.dend ≠ .clear ∧ (0x0101 : CmdWord) ≠ 0x0100 := by
  decide

theorem witness_FaultCodes : Inv idle := inv_idle

theorem witness_FaultsOfTheTable :
    ∃ t, built.phase ≠ .fault ∧ exec .finish built = .next t ∧ t.phase = .fault := ⟨_, by decide, rfl, rfl⟩

theorem witness_OnlyClearOrResetLeavesFault :
    (∃ s t, s.phase = .fault ∧ s.port = [.word 0x0100] ∧ step s = .next t) ∧
    (∃ s t, s.phase = .fault ∧ s.port = [.word 0x0100, .reset none] ∧ outputPending s = true ∧ step s = .next t) ∧
    ∃ s t, s.phase = .fault ∧ s.port = [.word 0x2000] ∧ step s = .next t :=
  ⟨⟨{ failed with port := [.word 0x0100] }, _, rfl, rfl, rfl⟩,
    ⟨{ pending with phase := .fault, err := ⟨4, 7⟩, port := [.word 0x0100, .reset none] }, _, rfl, rfl, rfl, rfl⟩,
    ⟨{ failed with port := [.word 0x2000] }, _, rfl, rfl, rfl⟩⟩

theorem witness_EstartRule :
    (Inv idle ∧ idle.phase = .idle) ∧ counting.phase ≠ .idle ∧ counting.phase ≠ .fault := ⟨⟨inv_idle, rfl⟩, by decide⟩

theorem witness_CountRule :
    (counted.phase = .eCount ∧ counted.nsym ≠ BitVec.allOnes 64) ∧
    (∃ s : State, s.phase = .eCount ∧ s.nsym = BitVec.allOnes 64 - 1 ∧ s.nsym ≠ BitVec.allOnes 64) ∧
    (∃ s : State, s.phase = .eCount ∧ s.nsym = BitVec.allOnes 64) ∧ idle.phase ≠ .eCount ∧ idle.phase ≠ .fault :=
  ⟨by decide, ⟨{ counting with nsym := BitVec.allOnes 64 - 1 }, by decide⟩,
    ⟨{ counting with nsym := BitVec.allOnes 64 }, by decide⟩, by decide⟩

theorem witness_CountRule_order :
    List.Perm abaac [0x41, 0x41, 0x41, 0x42, 0x43] ∧ counting.phase = .eCount ∧
      counting.nsym.toNat + abaac.length < 2 ^ 64 := by decide

theorem witness_CountAdditionsDoNotWrap : ∃ t, Inv counted ∧ counted.phase = .eCount ∧
    counted.nsym ≠ BitVec.allOnes 64 ∧ exec (.count 0x41) counted = .next t :=
  ⟨_, inv_counted, rfl, by decide, rfl⟩

theorem witness_CountingIsByMultiset :
    counting.phase = .eCount ∧ counting.nsym.toNat + abaac.length < 2 ^ 64 := by decide

theorem witness_BuildRule :
    (counting.phase = .eCount ∧ counting.nsym = 0) ∧
    (counted.phase = .eCount ∧ counted.nsym ≠ 0 ∧ counted.nsym = 5 ∧ ∃ b, entry counted.freq b ≠ 0) ∧
    (∀ b, entry counted.freq b = if b = 0x41 then 3 else if b = 0x42 then 1 else if b = 0x43 then 1 else 0) ∧
    Inv counted ∧ idle.phase ≠ .eCount ∧ idle.phase ≠ .fault :=
  ⟨by decide, ⟨rfl, by decide, rfl, 0x41, by decide⟩, freq_counted, inv_counted, by decide⟩

theorem witness_BuildRule_next : ∃ t, counted.phase = .eCount ∧ exec .build counted = .next t ∧ t.phase = .eEncode := by
  have ⟨t, h, hp⟩ := next_of (i := .build) (s := counted) (P := fun t => decide (t.phase = .eEncode))
    (by decide +kernel)
  exact ⟨t, rfl, h, by simpa using hp⟩

theorem freq_oneSymbol (v : Byte) : entry oneSymbol.freq v ≠ 0 ↔ v = 0x41 := by
  simp only [oneSymbol, tableOf, List.foldl, entry_setEntry]
  by_cases h : v = 0x41 <;> simp_all [entry]

theorem witness_InitialQueue :
    (2 ≤ (present counted.freq).length ∧ ∃ b, entry counted.freq b ≠ 0) ∧
      ∀ v, entry oneSymbol.freq v ≠ 0 ↔ v = 0x41 :=
  ⟨⟨by decide +kernel, 0x41, by decide⟩, freq_oneSymbol⟩

theorem witness_MergeTakesTheTwoSmallest :
    ∃ a b c : QEntry, [a, b, c].Pairwise (fun x y => before x y = true) ∧ (∀ e ∈ [a, b, c], e.seq < 256 + 0) ∧
      [a, b, c] ≠ [] ∧ ∀ x ∈ [a, b, c], internals x.t = 0 :=
  ⟨⟨1, 0x42, .leaf 0x42⟩, ⟨1, 0x43, .leaf 0x43⟩, ⟨3, 0xFF, .leaf 0xFF⟩, by decide⟩

theorem witness_BuiltTreeShape :
    (∃ b, entry counted.freq b ≠ 0) ∧ entry counted.freq 0x42 ≠ 0 ∧ 2 ≤ (present counted.freq).length :=
  ⟨⟨0x41, by decide⟩, by decide, by decide +kernel⟩

theorem witness_OneSymbolTree :
    oneSymbol.phase = .eCount ∧ oneSymbol.nsym ≠ 0 ∧ ∀ v, entry oneSymbol.freq v ≠ 0 ↔ v = 0x41 :=
  ⟨rfl, by decide, freq_oneSymbol⟩

theorem witness_TieBreak :
    ((0x61 : Byte) < 0x62) ∧ (0 : Nat) < 1 ∧ ∃ freq : Table Count,
      ∀ b, entry freq b = if b = 0x61 then 1 else if b = 0x62 then 1 else if b = 0x63 then 2 else 0 := by
  refine ⟨by decide, by decide, tableOf 0 [(0x61, 1), (0x62, 1), (0x63, 2)], fun b => ?_⟩
  simp only [tableOf, List.foldl, entry_setEntry]
  by_cases h1 : b = 0x61 <;> by_cases h2 : b = 0x62 <;> by_cases h3 : b = 0x63 <;> simp_all [entry]

theorem witness_AllValuesOnce :
    ∃ s : State, s.phase = .eCount ∧ s.nsym = 256 ∧ ∀ b, entry s.freq b = 1 :=
  ⟨{ counting with freq := Vector.replicate 256 1, nsym := 256 }, rfl, rfl, fun b => entry_replicate 1 b⟩

theorem witness_CodesArePaths : isInternal treeV1 = true ∧ (leaves treeV1).Nodup := by decide

theorem witness_CodesArePrefixFree :
    ∃ code, deriveCodes treeV1 [] noCodes = some code ∧ entry code 0x41 = some [true] ∧ [true] <+: [true] :=
  ⟨_, rfl, by decide, List.prefix_refl _⟩

theorem witness_SerializationEndsItself :
    ser treeV1 <+: ser treeV1 ∧ treeArtifact 5 treeV1 = treeArtifact 5 treeV1 := ⟨List.prefix_refl _, rfl⟩

/-- A tree with `n + 1` leaves. -/
def vine : Nat → Tree
  | 0 => .leaf 0
  | n + 1 => .node (.leaf 0) (vine n)

theorem witness_TreeArtifactLayout : (leaves (vine 1)).length = 2 ∧ (leaves (vine 255)).length = 256 := by
  decide +kernel

theorem witness_PackedBits : 7 < 8 * (pack [true, false, false, true, true, false, true]).length := by decide

theorem witness_EncRule :
    (built.phase = .eEncode ∧ built.rem ≠ 0 ∧ entry built.freq 0x42 ≠ 0 ∧
      entry built.code 0x42 = some [false, false] ∧ built.acc.length ≤ 7) ∧
    (∃ s : State, s.phase = .eEncode ∧ s.rem = 1 ∧ entry s.freq 0x42 ≠ 0 ∧
      entry s.code 0x42 = some [false, false] ∧ s.acc.length = 7) ∧
    Inv built ∧ (packed.phase = .eEncode ∧ packed.rem = 0) ∧
    (built.rem ≠ 0 ∧ entry built.freq 0x44 = 0) ∧ (idle.phase ≠ .eEncode ∧ idle.phase ≠ .fault) ∧
    built.rem = 5 ∧ built.acc = [] ∧ entry built.freq 0x41 ≠ 0 ∧ entry built.freq 0x43 ≠ 0 ∧
    entry built.code 0x41 = some [true] ∧ entry built.code 0x43 = some [false, true] :=
  ⟨by decide, ⟨{ packed with rem := 1 }, by decide⟩, inv_built, by decide, by decide, by decide, by decide⟩

theorem witness_FinishRule :
    (built.phase = .eEncode ∧ built.rem ≠ 0) ∧
    (∃ s : State, s.phase = .eEncode ∧ s.rem = 0 ∧ s.acc = []) ∧
    (packed.phase = .eEncode ∧ packed.rem = 0 ∧ packed.acc ≠ [] ∧ packed.acc.length ≤ 7 ∧
      packed.acc = [true, false, false, true, true, false, true]) ∧
    (idle.phase ≠ .eEncode ∧ idle.phase ≠ .fault) ∧
    (∃ t, packed.phase = .eEncode ∧ exec .finish packed = .next t ∧ t.phase ≠ .fault) ∧
    ∃ t, counted.phase = .eCount ∧ exec .build counted = .next t ∧ t.phase = .eEncode :=
  ⟨by decide, ⟨{ built with rem := 0 }, by decide⟩, by decide, by decide, ⟨_, rfl, rfl, by decide⟩,
    witness_BuildRule_next⟩

theorem next_all {is : List Instr} {s : State} {P : State → Bool} (h : (nextOf (sendAll is s)).any P = true) :
    ∃ t, sendAll is s = .next t ∧ P t = true := by
  cases hr : sendAll is s <;> simp_all [nextOf]

theorem witness_CompressJobOutput :
    resetValues idle ∧ ([0x41] : List Byte).length < 2 ^ 64 ∧
      ∃ t, sendAll (.estart :: counts [0x41] ++ .build :: encs [0x41] ++ [.finish]) idle = .next t ∧
        t.phase = .done := by
  refine ⟨reset_values_idle, by decide, ?_⟩
  have ⟨t, h, hp⟩ := next_all (s := idle) (P := fun t => decide (t.phase = .done))
    (is := .estart :: counts [0x41] ++ .build :: encs [0x41] ++ [.finish]) (by decide +kernel)
  exact ⟨t, h, by simpa using hp⟩

theorem witness_DstartRule :
    (Inv idle ∧ idle.phase = .idle) ∧ finished.phase ≠ .idle ∧ finished.phase ≠ .fault := ⟨⟨inv_idle, rfl⟩, by decide⟩

theorem witness_LoadtRule :
    (Inv header7 ∧ header7.phase = .dTree ∧ header7.hcnt = 7 ∧ header7.hcnt < 8) ∧
    (loaded.phase = .dTree ∧ 8 ≤ loaded.hcnt ∧ loaded.treeOk = true) ∧
    (header8.phase = .dTree ∧ header8.hcnt = 8 ∧ 8 ≤ header8.hcnt ∧ header8.treeOk = false) ∧
    (idle.phase ≠ .dTree ∧ idle.phase ≠ .fault) ∧
    (∃ u, header8.treeOk = false ∧ treeBit false header8 = .ok u) ∧
    treeBit true header8 = .error .treeRootLeaf :=
  ⟨⟨inv_header7, by decide⟩, by decide, by decide, by decide, ⟨_, rfl, rfl⟩, rfl⟩

theorem witness_TreeBitRule_bounds :
    (Inv header8 ∧ header8.phase = .dTree ∧ header8.treeOk = false ∧ header8.pstk = []) ∧
      Inv walking ∧ walking.phase ≠ .fault ∧ walking.treeOk = true :=
  ⟨⟨inv_header8, by decide⟩, inv_walking, by decide⟩

theorem witness_TreeBitRule :
    (∃ s : State, s.pleaf = some ⟨6, 0x20⟩ ∧ 6 + 1 < 8) ∧
    (∃ s : State, s.pleaf = some ⟨7, 0x20⟩ ∧ 8 ≤ 7 + 1 ∧ entry s.seen (2 * 0x20 + if true then 1 else 0) = true) ∧
    (∃ s : State, s.pleaf = some ⟨7, 0x20⟩ ∧ 8 ≤ 7 + 1 ∧ entry s.seen (2 * 0x20 + if true then 1 else 0) = false) ∧
    (header8.pleaf = none ∧ header8.pstk = []) ∧
    (∃ s : State, s.pleaf = none ∧ s.pstk ≠ []) ∧
    (∃ s : State, s.pleaf = none ∧ s.nint = 255) ∧ ∃ s : State, s.pleaf = none ∧ s.nint = 254 ∧ s.nint ≠ 255 :=
  ⟨⟨{ header8 with pleaf := some ⟨6, 0x20⟩ }, by decide⟩, ⟨{ loaded with pleaf := some ⟨7, 0x20⟩ }, by decide⟩,
    ⟨{ header8 with pleaf := some ⟨7, 0x20⟩ }, by decide⟩, by decide,
    ⟨{ header8 with pstk := [.needLeft] }, by decide⟩, ⟨{ header8 with nint := 255 }, by decide⟩,
    ⟨{ header8 with nint := 254 }, by decide⟩⟩

theorem witness_CompleteClosesNodes :
    (∃ s : State, s.pstk = [Tree.leaf 0x42].map Frame.needRight ++ .needLeft :: []) ∧
    (∃ s : State, s.pstk = [Tree.leaf 0x42, .leaf 0x43].map Frame.needRight) ∧
    [Tree.leaf 0x42] ≠ [] ∧ ∃ s : State, s.pstk = ([] : List Tree).map Frame.needRight :=
  ⟨⟨{ header8 with pstk := [.needRight (.leaf 0x42), .needLeft] }, rfl⟩,
    ⟨{ header8 with pstk := [.needRight (.leaf 0x42), .needRight (.leaf 0x43)] }, rfl⟩, by decide, ⟨header8, rfl⟩⟩

theorem witness_TendRule :
    (header7.phase = .dTree ∧ (header7.hcnt < 8 ∨ header7.treeOk = false)) ∧
    (header8.phase = .dTree ∧ (header8.hcnt < 8 ∨ header8.treeOk = false)) ∧
    (loaded.phase = .dTree ∧ 8 ≤ loaded.hcnt ∧ loaded.treeOk = true) ∧
    idle.phase ≠ .dTree ∧ idle.phase ≠ .fault := by decide

theorem witness_LoaderReadsBackTheArtifact :
    (∃ b, entry counted.freq b ≠ 0) ∧ resetValues idle ∧ isInternal treeV1 = true ∧ (leaves treeV1).Nodup :=
  ⟨⟨0x41, by decide⟩, reset_values_idle, by decide⟩

theorem witness_LoaderAcceptsExactly :
    resetValues idle ∧ ∃ u, sendAll (.dstart :: loadts artifactV1 ++ [.tend]) idle = .next u ∧ u.phase = .dBits := by
  refine ⟨reset_values_idle, ?_⟩
  have ⟨t, h, hp⟩ := next_all (s := idle) (P := fun t => decide (t.phase = .dBits))
    (is := .dstart :: loadts artifactV1 ++ [.tend]) (by decide +kernel)
  exact ⟨t, h, by simpa using hp⟩

theorem witness_PushbRule :
    (walked.phase = .dBits ∧ walked.rem = 0) ∧
    (walking.phase = .dBits ∧ walking.rem ≠ 0 ∧ isInternal walking.tree = true ∧ isInternal walking.pos = true ∧
      hasSubtree walking.tree walking.pos = true) ∧
    (idle.phase ≠ .dBits ∧ idle.phase ≠ .fault) ∧
    (∃ s : State, s.rem ≠ 0 ∧ child s.pos true = none) ∧
    child walking.pos false = some (.node (.leaf 0x42) (.leaf 0x43)) ∧
    isInternal (.node (.leaf 0x42) (.leaf 0x43)) = true ∧ child walking.pos true = some (.leaf 0x41) ∧
    (walking.rem = 5 ∧ walking.pos = walking.tree ∧
      walking.tree = .node (.node (.leaf 0x42) (.leaf 0x43)) (.leaf 0x41)) :=
  ⟨by decide, by decide, by decide, ⟨{ walking with pos := .leaf 0x41 }, by decide⟩, by decide⟩

theorem witness_DendRule :
    (walking.phase = .dBits ∧ walking.rem ≠ 0 ∧ walking.rem = 5 ∧ walking.pos = walking.tree ∧
      walking.treeOk = true ∧ walking.tree = .node (.node (.leaf 0x42) (.leaf 0x43)) (.leaf 0x41)) ∧ (Inv walked ∧ walked.phase = .dBits ∧ walked.rem = 0) ∧
      idle.phase ≠ .dBits ∧ idle.phase ≠ .fault := ⟨by decide, ⟨inv_walked, by decide⟩, by decide⟩

theorem witness_PaddingIsIgnored :
    (walkBits ((bits8 0x9A).take 7) walking).rem = 0 ∧ (bits8 0x9A).take 7 = (bits8 0x9B).take 7 := by decide

theorem witness_CountZeroArtifact :
    (∃ s : State, s.phase = .dTree ∧ 8 ≤ s.hcnt ∧ s.treeOk = true ∧ s.nsym = 0) ∧
    ∃ t, counted.phase = .eCount ∧ exec .build counted = .next t ∧ t.phase = .eEncode :=
  ⟨⟨{ loaded with nsym := 0 }, by decide⟩, witness_BuildRule_next⟩

theorem witness_RoundTrip : resetValues idle ∧ abaac ≠ [] ∧ abaac.length < 2 ^ 64 :=
  ⟨reset_values_idle, by decide⟩

theorem witness_WellFormedPairs :
    resetValues idle ∧ ∃ u, sendAll (decompress artifactV1 [0x9A]) idle = .next u ∧ u.phase = .done := by
  refine ⟨reset_values_idle, ?_⟩
  have ⟨t, h, hp⟩ := next_all (s := idle) (P := fun t => decide (t.phase = .done))
    (is := decompress artifactV1 [0x9A]) (by decide +kernel)
  exact ⟨t, h, by simpa using hp⟩

theorem witness_InvariantKept : ∃ s t : State, Inv s ∧ step s = .next t :=
  ⟨idle, _, inv_idle, rfl⟩

theorem witness_NoStepStops : Inv built ∧ Inv walking := ⟨inv_built, inv_walking⟩

theorem witness_WritersOfState :
    (∃ t, exec (.count 0x41) counting = .next t ∧ Instr.count 0x41 ≠ .clear ∧ t.phase ≠ .fault) ∧
    ∃ t, exec .tend header7 = .next t ∧ Instr.tend ≠ .clear ∧ t.phase = .fault :=
  ⟨⟨_, rfl, by decide⟩, ⟨_, rfl, by decide⟩⟩

theorem witness_OutputOnlyGrows : ∃ t, exec (.enc 0x41) built = .next t ∧ t.phase ≠ .fault := ⟨_, rfl, by decide⟩

theorem witness_EmittedByteCounts :
    (∃ t, Inv counted ∧ exec .build counted = .next t ∧ t.phase = .eEncode) ∧
    (∃ t, Inv built ∧ exec (.enc 0x41) built = .next t) ∧ (∃ t, Inv packed ∧ exec .finish packed = .next t) ∧
    (∃ t, Inv walking ∧ exec (.pushb 0x9A) walking = .next t) ∧
    ∃ t, Inv header7 ∧ exec .tend header7 = .next t := by
  refine ⟨?_, ⟨_, inv_built, rfl⟩, ⟨_, inv_packed, rfl⟩, ⟨_, inv_walking, rfl⟩, ⟨_, inv_header7, rfl⟩⟩
  have ⟨t, _, h, hp⟩ := witness_BuildRule_next
  exact ⟨t, inv_counted, h, hp⟩

theorem witness_SuccessNeedsEverySymbol :
    (∃ t, exec (.enc 0x41) built = .next t ∧ built.phase ≠ .fault ∧ t.phase ≠ .fault) ∧
    (∃ t, exec .finish packed = .next t ∧ packed.phase ≠ .done ∧ t.phase = .done) ∧
    ∃ t, exec .dend walked = .next t ∧ walked.phase ≠ .done ∧ t.phase = .done :=
  ⟨⟨_, rfl, by decide⟩, ⟨_, rfl, by decide⟩, ⟨_, rfl, by decide⟩⟩

end Sys2Proof.Tests
end

section
/-!
# The state: status registers and reset (spec 10_state R37, R38, R43)

Settles O10 and O12. The fields of STATUS and ERRREG are read off the concatenations `statusByte` and `errByte` one by
one; reset is proved for `State.reset`, and `clearBlock` and `hardReset` take their elements from it.
-/

namespace Sys2Proof.Machine

/-! ## What a status read shows outside FAULT -/

/-- R39: outside FAULT, STATUS.TREE_OK is the flag. -/
theorem shownTreeOk_of_ne_fault {s : State} (h : s.phase ≠ .fault) : shownTreeOk s = s.treeOk := if_neg h

/-- R39: outside FAULT, a count register is the count. -/
theorem shownCount_of_ne_fault {s : State} (h : s.phase ≠ .fault) (n : Count) : shownCount s n = n := if_neg h

theorem doneFlag_eq_true_iff {s : State} : doneFlag s = true ↔ s.phase = .done := decide_eq_true_iff

theorem faultedFlag_eq_true_iff {s : State} : faultedFlag s = true ↔ s.phase = .fault := decide_eq_true_iff

/-! ## The fields of STATUS (R37) and ERRREG (R38) -/

/-- R37: bits 2:0 are PHASE. -/
theorem statusByte_phaseField (s : State) : (statusByte s).extractLsb' 0 3 = phaseCode s.phase :=
  BitVec.extractLsb'_append_eq_right

/-- R37: the bits above PHASE are DONE, FAULTED, TREE_OK as a read shows it, and zeros. -/
theorem statusByte_getLsbD_add_three (s : State) (i : Nat) :
    (statusByte s).getLsbD (3 + i) = [doneFlag s, faultedFlag s, shownTreeOk s].getD i false := by
  have above : (statusByte s).getLsbD (3 + i) =
      (((0#2).concat (shownTreeOk s)).concat (faultedFlag s) |>.concat (doneFlag s)).getLsbD i :=
    BitVec.getLsbD_append.trans (by simp; rfl)
  rw [above]
  match i with
  | 0 | 1 | 2 | i + 3 => simp

/-- R37: bits 7:6 read as 0. -/
theorem statusByte_highField (s : State) : (statusByte s).extractLsb' 6 2 = 0 := by
  apply BitVec.eq_of_getLsbD_eq
  intro i _
  have high : (statusByte s).getLsbD (6 + i) = false := by
    simpa [← Nat.add_assoc] using statusByte_getLsbD_add_three s (3 + i)
  simp [high]

/-- R38: bits 2:0 are KIND. -/
theorem errByte_kindField (s : State) : (errByte s).extractLsb' 0 3 = s.err.kind :=
  BitVec.extractLsb'_append_eq_right

/-- R38: bits 6:3 are SUB. -/
theorem errByte_subField (s : State) : (errByte s).extractLsb' 3 4 = s.err.sub :=
  (BitVec.extractLsb'_append_eq_of_le le_rfl).trans BitVec.extractLsb'_append_eq_right

/-- R38: bit 7 reads as 0. -/
theorem errByte_bit7 (s : State) : (errByte s).getLsbD 7 = false :=
  BitVec.getLsbD_append.trans (BitVec.getLsbD_append.trans rfl)

/-- R176: the kinds of the fault table are 1 to 5. -/
theorem errOf_kind_ne_six_seven (c : Cause) : (errOf c).kind ≠ 6 ∧ (errOf c).kind ≠ 7 := by
  cases c <;> decide

/-- R22, R38: under the invariant ERR is (0, 0) or a fault of the table, so KIND is never 6 or 7. -/
theorem Inv.kind_ne_six_seven {s : State} (h : Inv s) : s.err.kind ≠ 6 ∧ s.err.kind ≠ 7 := by
  rcases h.errCause with he | ⟨c, he⟩
  · rw [he]; decide
  · rw [he]; exact errOf_kind_ne_six_seven c

/-- Settles O10, field by field; KIND by the invariant's list of faults. -/
theorem statusRegisterFields : Obligations.StatusRegisterFields := by
  intro s
  refine ⟨rfl, rfl, statusByte_phaseField s, ?done, ?faulted, ?treeOk, statusByte_highField s, errByte_kindField s,
    errByte_subField s, errByte_bit7 s, ?kind, rfl, rfl, rfl, rfl, rfl, rfl, rfl⟩
  case done => rw [statusByte_getLsbD_add_three s 0]; exact doneFlag_eq_true_iff
  case faulted => rw [statusByte_getLsbD_add_three s 1]; exact faultedFlag_eq_true_iff
  case treeOk => exact fun h => (statusByte_getLsbD_add_three s 2).trans (shownTreeOk_of_ne_fault h)
  case kind => exact fun h => errByte_kindField s ▸ h.kind_ne_six_seven

/-! ## Reset (R43) -/

theorem resetValues_reset : resetValues State.reset := by
  simp [resetValues, State.reset]

/-- R165: CLEAR takes every element of the block from the reset state. -/
theorem resetValues_clearBlock (s : State) : resetValues (clearBlock s) := resetValues_reset

/-- R200: so does hardware reset. -/
theorem resetValues_hardReset (s : State) : resetValues (hardReset s) := resetValues_reset

/-- A reset event at the head of the port resets the block at once, output pending or not (R201). -/
theorem step_reset {s : State} {l : Option CmdWord} {rest : List HostEvent} (hp : s.port = .reset l :: rest) :
    step s = .next (hardReset { s with port := rest }) :=
  step_other (ws := []) hp (by simp) (.inl rfl)

section
variable {s : State} (h : resetValues s)
include h

theorem statusByte_of_resetValues : statusByte s = 0x00 := by
  obtain ⟨hphase, -, -, -, -, -, htreeOk, -⟩ := h
  simp [statusByte, shownTreeOk, faultedFlag, doneFlag, phaseCode, hphase, htreeOk]

theorem errByte_of_resetValues : errByte s = 0x00 := by
  obtain ⟨-, herr, -⟩ := h
  simp [errByte, herr]

/-- The reset phase is IDLE, so registers 2 and 3 read as they are (R39). -/
theorem counts_of_resetValues : statusValue s .nsym = .wide 0 ∧ statusValue s .rem = .wide 0 := by
  obtain ⟨hphase, -, -, hnsym, hrem, -⟩ := h
  have hne : s.phase ≠ .fault := by simp [hphase]
  simp [statusValue, shownCount_of_ne_fault hne, hnsym, hrem]

theorem flags_of_resetValues : doneFlag s = false ∧ faultedFlag s = false := by
  obtain ⟨hphase, -⟩ := h
  simp [doneFlag, faultedFlag, hphase]

end

/-- Settles O12: CLEAR ends in `clearBlock` and a reset event in `hardReset`, which both hold the reset values; what
the registers and outputs read follows from the reset values alone. -/
theorem resetAndClearValues : Obligations.ResetAndClearValues := by
  refine ⟨resetValues_reset, ?clear, ?resetEvent, ?readings⟩
  case clear => exact fun s => ⟨clearBlock s, rfl, resetValues_clearBlock s⟩
  case resetEvent => exact fun s l rest hp => ⟨_, step_reset hp, resetValues_hardReset _⟩
  case readings =>
    intro s h
    obtain ⟨hnsym, hrem⟩ := counts_of_resetValues h
    exact ⟨statusByte_of_resetValues h, errByte_of_resetValues h, hnsym, hrem, flags_of_resetValues h⟩

end Sys2Proof.Machine
end

section
/-!
# Command words: legal, decoded, dispatched (spec 30_encoding R70 to R74)

Settles O3 and O4. A row of the table looks at the two fields of a word only, and legality and the counts follow from
that. `decode` is inverted once: a word that decodes is the word of the command it decodes to.
-/

namespace Sys2Proof

/-! ## The table, by the two fields of a word (R70 to R72) -/

theorem eq_wordOf_iff {w : CmdWord} {op a : Byte} : w = wordOf op a ↔ opField w = op ∧ argField w = a := by
  constructor
  · rintro rfl
    simp
  · rintro ⟨rfl, rfl⟩
    exact (wordOf_fields w).symm

/-- The mask of format B keeps the opcode. -/
theorem opField_and_opMask (w : CmdWord) : opField (w &&& 0xFF00) = opField w := by
  rw [opField, BitVec.extractLsb'_and]
  exact BitVec.and_allOnes

/-- The mask of format B clears the argument. -/
theorem argField_and_opMask (w : CmdWord) : argField (w &&& 0xFF00) = 0 := by
  rw [argField, BitVec.extractLsb'_and]
  exact BitVec.and_zero

/-- The opcode of a row (R70). -/
def Row.opcode (r : Row) : Byte := opField r.matchBits

/-- R71: match and mask of each row, from its opcode and its format. -/
theorem row_shape : ∀ r ∈ commandTable, r.matchBits = wordOf r.opcode 0 ∧
    (r.format = .z → r.mask = 0xFFFF) ∧ (r.format = .b → r.mask = 0xFF00) := by
  decide

/-- R71, R72: a row selects a word by its opcode and, in format Z, by a zero argument. -/
theorem selects_iff {r : Row} (hr : r ∈ commandTable) (w : CmdWord) :
    w &&& r.mask = r.matchBits ↔ opField w = r.opcode ∧ (r.format = .z → argField w = 0) := by
  obtain ⟨hmatch, hz, hb⟩ := row_shape r hr
  rw [hmatch, eq_wordOf_iff]
  cases hf : r.format with
  | z =>
    have hall : w &&& 0xFFFF = w := BitVec.and_allOnes
    simp only [hz hf, hall, forall_const]
  | b => simp only [hb hf, opField_and_opMask, argField_and_opMask, and_true, reduceCtorEq, false_implies]

theorem legalWord_iff_selected {w : CmdWord} :
    legalWord w = true ↔ ∃ r ∈ commandTable, w &&& r.mask = r.matchBits := by
  simp [legalWord, Row.selects]

/-- The opcodes of a format, in the table's order. -/
def opcodes (f : Format) : List Byte := (commandTable.filter fun r => r.format = f).map Row.opcode

theorem opcodes_z : opcodes .z = [0x01, 0x02, 0x10, 0x12, 0x14, 0x20, 0x22, 0x24] := by decide

theorem opcodes_b : opcodes .b = [0x11, 0x13, 0x21, 0x23] := by decide

theorem mem_opcodes {f : Format} {op : Byte} :
    op ∈ opcodes f ↔ ∃ r ∈ commandTable, r.format = f ∧ r.opcode = op := by
  simp [opcodes, and_assoc]

/-- R74: a word is legal by a format-Z opcode with the argument 0x00, or by a format-B opcode. -/
theorem legalWord_iff_fields {w : CmdWord} :
    legalWord w = true ↔ (opField w ∈ opcodes .z ∧ argField w = 0) ∨ opField w ∈ opcodes .b := by
  rw [legalWord_iff_selected, mem_opcodes, mem_opcodes]
  constructor
  · rintro ⟨r, hr, hsel⟩
    obtain ⟨hop, harg⟩ := (selects_iff hr w).1 hsel
    cases hf : r.format with
    | z => exact .inl ⟨⟨r, hr, hf, hop.symm⟩, harg hf⟩
    | b => exact .inr ⟨r, hr, hf, hop.symm⟩
  · rintro (⟨⟨r, hr, -, hop⟩, harg⟩ | ⟨r, hr, hf, hop⟩)
    · exact ⟨r, hr, (selects_iff hr w).2 ⟨hop.symm, fun _ => harg⟩⟩
    · exact ⟨r, hr, (selects_iff hr w).2 ⟨hop.symm, by simp [hf]⟩⟩

/-- R72: the twelve opcodes are those of the two formats. -/
theorem mem_twelve_iff : ∀ op : Byte,
    op ∈ [0x01, 0x02, 0x10, 0x11, 0x12, 0x13, 0x14, 0x20, 0x21, 0x22, 0x23, 0x24] ↔
      op ∈ opcodes .z ∨ op ∈ opcodes .b := by
  rw [opcodes_z, opcodes_b]
  decide

/-- R72: no opcode is of both formats. -/
theorem not_mem_opcodes_b_of_mem_z {op : Byte} (h : op ∈ opcodes .z) : op ∉ opcodes .b := by
  rw [opcodes_z] at h
  rw [opcodes_b]
  revert op
  decide

/-! ## How many words are legal (R74) -/

/-- The fields of the legal words: 8 x 1 + 4 x 256 pairs. -/
def legalFields : List (Byte × Byte) := opcodes .z ×ˢ [0] ++ opcodes .b ×ˢ Machine.allBytes

/-- The legal words. -/
def legalWordList : List CmdWord := legalFields.map fun p => wordOf p.1 p.2

theorem mem_legalFields {op a : Byte} :
    (op, a) ∈ legalFields ↔ (op ∈ opcodes .z ∧ a = 0) ∨ op ∈ opcodes .b := by
  simp [legalFields, Machine.mem_allBytes]

theorem mem_legalWordList {w : CmdWord} : w ∈ legalWordList ↔ legalWord w = true := by
  simp only [legalWordList, List.mem_map, Prod.exists, eq_comm (b := w), eq_wordOf_iff, legalWord_iff_fields,
    mem_legalFields]
  constructor
  · rintro ⟨op, a, h, rfl, rfl⟩
    exact h
  · exact fun h => ⟨_, _, h, rfl, rfl⟩

theorem length_legalWordList : legalWordList.length = 1032 := by
  simp [legalWordList, legalFields, opcodes_z, opcodes_b, Machine.length_allBytes]

theorem nodup_legalFields : legalFields.Nodup := by
  have hz : (opcodes .z).Nodup := by decide
  have hb : (opcodes .b).Nodup := by decide
  refine List.Nodup.append (hz.product (List.nodup_singleton 0)) (hb.product Machine.nodup_allBytes) ?_
  rintro ⟨op, a⟩ h h'
  exact not_mem_opcodes_b_of_mem_z (List.mem_product.1 h).1 (List.mem_product.1 h').1

theorem nodup_legalWordList : legalWordList.Nodup := by
  refine nodup_legalFields.map ?_
  rintro ⟨op, a⟩ ⟨op', a'⟩ h
  simpa using eq_wordOf_iff.1 h

/-- The illegal words: all others. -/
def illegalWordList : List CmdWord := (FinEnum.toList CmdWord).filter fun w => !legalWord w

theorem mem_illegalWordList {w : CmdWord} : w ∈ illegalWordList ↔ legalWord w = false := by
  simp [illegalWordList]

/-- The 65536 words are the legal and the illegal ones. -/
theorem length_illegalWordList : illegalWordList.length = 64504 := by
  have hall : (FinEnum.toList CmdWord).length = 65536 := by
    simp [FinEnum.toList, FinEnum.card_bitVec]
  have hlegal : ((FinEnum.toList CmdWord).filter legalWord).Perm legalWordList := by
    rw [List.perm_ext_iff_of_nodup (FinEnum.nodup_toList.filter _) nodup_legalWordList]
    simp [mem_legalWordList]
  have hsplit := List.length_eq_length_filter_add (l := FinEnum.toList CmdWord) legalWord
  rw [hall, hlegal.length_eq, length_legalWordList] at hsplit
  rw [illegalWordList]
  omega

/-! ## The decoder, inverted (R70 to R72, R76) -/

theorem eq_encode_of_formatZ {op : Byte} {i j : Instr} {w : CmdWord} (hop : opField w = op)
    (h : formatZ i w = .ok j) (hi : encode i = wordOf op 0) : w = encode j := by
  unfold formatZ at h
  split at h
  · next harg =>
    cases h
    rw [hi, eq_wordOf_iff]
    exact ⟨hop, harg⟩
  · cases h

theorem eq_encode_of_formatB {op : Byte} {f : Byte → Instr} {j : Instr} {w : CmdWord} (hop : opField w = op)
    (h : formatB f w = .ok j) (hf : ∀ a, encode (f a) = wordOf op a) : w = encode j := by
  cases h
  rw [hf, eq_wordOf_iff]
  exact ⟨hop, rfl⟩

/-- R76: a word that decodes is the word of the command it decodes to. -/
theorem eq_encode_of_decode {w : CmdWord} {i : Instr} (h : decode w = .ok i) : w = encode i := by
  revert h
  fun_cases decode w <;> intro h
  · exact eq_encode_of_formatZ ‹opField w = 0x01› h rfl
  · exact eq_encode_of_formatZ ‹opField w = 0x02› h rfl
  · exact eq_encode_of_formatZ ‹opField w = 0x10› h rfl
  · exact eq_encode_of_formatB ‹opField w = 0x11› h fun _ => rfl
  · exact eq_encode_of_formatZ ‹opField w = 0x12› h rfl
  · exact eq_encode_of_formatB ‹opField w = 0x13› h fun _ => rfl
  · exact eq_encode_of_formatZ ‹opField w = 0x14› h rfl
  · exact eq_encode_of_formatZ ‹opField w = 0x20› h rfl
  · exact eq_encode_of_formatB ‹opField w = 0x21› h fun _ => rfl
  · exact eq_encode_of_formatZ ‹opField w = 0x22› h rfl
  · exact eq_encode_of_formatB ‹opField w = 0x23› h fun _ => rfl
  · exact eq_encode_of_formatZ ‹opField w = 0x24› h rfl
  · cases h

/-- R76, R74: the word of a command is legal. -/
theorem legalWord_encode (i : Instr) : legalWord (encode i) = true := by
  rw [legalWord_iff_fields, opcodes_z, opcodes_b]
  cases i <;> simp [encode]

/-- R74: an illegal word does not decode. -/
theorem decode_of_illegal {w : CmdWord} (h : legalWord w = false) : ∃ e, decode w = .error e := by
  cases hd : decode w with
  | error e => exact ⟨e, rfl⟩
  | ok i =>
    have hlegal := legalWord_encode i
    rw [← eq_encode_of_decode hd, h] at hlegal
    cases hlegal

end Sys2Proof

namespace Sys2Proof.Machine

/-! ## Running a word (R73) -/

theorem runWord_of_decode {w : CmdWord} {i : Instr} (h : decode w = .ok i) (s : State) :
    runWord w s = exec i s := by
  rw [runWord, h]

theorem runWord_of_illegal {w : CmdWord} (h : legalWord w = false) (s : State) :
    runWord w s = illegalWord s := by
  obtain ⟨e, he⟩ := decode_of_illegal h
  rw [runWord, he]

/-- R73 steps 2 and 3, outside FAULT. -/
theorem illegalWord_run {s : State} (h : s.phase ≠ .fault) :
    illegalWord s = .next (raise .illegalOpcode s) := unlessFault_run _ h

theorem illegalWord_fault {s : State} (h : s.phase = .fault) : illegalWord s = .next s := unlessFault_fault _ h

theorem sendAll_singleton (i : Instr) (s : State) : sendAll [i] s = exec i s := by
  simp only [sendAll]
  cases exec i s <;> rfl

/-- R73 step 2: in FAULT a command that is not CLEAR is discarded. -/
theorem exec_fault {i : Instr} {s : State} (h : s.phase = .fault) (hi : i ≠ .clear) : exec i s = .next s := by
  rw [← sendAll_singleton]
  exact sendAll_fault h (by simpa using hi)

/-- R73 step 5: outside FAULT a command not legal in the phase raises WRONG_PHASE. -/
theorem exec_wrongPhase {i : Instr} {s : State} (hf : s.phase ≠ .fault) (h : legalIn i s.phase = false) :
    exec i s = .next (raise .wrongPhase s) := by
  cases i with
  | clear => cases h
  | iofail => exact absurd hf (of_decide_eq_false h)
  | _ => exact inPhase_wrong _ hf (of_decide_eq_false h)

/-- R72: 0x0100 is the only word that decodes to CLEAR. -/
theorem ne_clear_of_decode {w : CmdWord} {i : Instr} (hw : w ≠ 0x0100) (h : decode w = .ok i) : i ≠ .clear := by
  rintro rfl
  exact hw (eq_encode_of_decode h)

/-- R73 step 2: in FAULT every word but 0x0100 is discarded. -/
theorem runWord_fault {w : CmdWord} {s : State} (h : s.phase = .fault) (hw : w ≠ 0x0100) :
    runWord w s = .next s := by
  cases hd : decode w with
  | ok i => rw [runWord_of_decode hd, exec_fault h (ne_clear_of_decode hw hd)]
  | error e => rw [runWord, hd, illegalWord_fault h]

/-- Settles O3. The words are counted by their fields, as R74 does: 8 x 1 + 4 x 256 legal ones, and the rest. -/
theorem illegalWords : Obligations.IllegalWords := by
  refine ⟨?which, ?example1201, ?effect,
    ⟨legalWordList, nodup_legalWordList, length_legalWordList, fun _ => mem_legalWordList⟩,
    ⟨illegalWordList, FinEnum.nodup_toList.filter _, length_illegalWordList, fun _ => mem_illegalWordList⟩⟩
  case which =>
    intro w
    rw [← Bool.not_eq_true, legalWord_iff_fields, mem_twelve_iff, ← opcodes_z]
    have hdisjoint := not_mem_opcodes_b_of_mem_z (op := opField w)
    tauto
  case example1201 => decide
  case effect =>
    intro w s h
    rw [runWord_of_illegal h]
    exact ⟨illegalWord_run, illegalWord_fault⟩

/-- Settles O4, step by step of R73. -/
theorem dispatchOfWord : Obligations.DispatchOfWord := by
  intro w s
  refine ⟨?clearInFault, fun hf hw => runWord_fault hf hw, ?illegal, ?clear, ?iofail, ?wrongPhase, ?legal⟩
  case clearInFault | clear =>
    rintro - rfl
    exact runWord_of_decode (i := .clear) rfl s
  case illegal =>
    intro hf hrows
    have hw : legalWord w = false := by
      rw [← Bool.not_eq_true, legalWord_iff_selected]
      exact fun ⟨r, hr, hsel⟩ => hrows r hr hsel
    rw [runWord_of_illegal hw, illegalWord_run hf]
  case iofail =>
    rintro hf rfl
    rw [runWord_of_decode (i := .iofail) rfl]
    exact unlessFault_run _ hf
  case wrongPhase =>
    intro i hf hd h
    rw [runWord_of_decode hd, exec_wrongPhase hf h]
  case legal => exact fun i _ hd _ => runWord_of_decode hd s

end Sys2Proof.Machine
end

section
/-!
# The tree artifact (spec 30_encoding R80)

Settles O34. Layout, length and bits are the laws of `treeArtifact` and `pack`; the count is read back because its
bytes, put one behind the other, are at each point the count shifted right by the bytes still to come.
-/

namespace Sys2Proof.Machine

/-- The bits of a count from `k + 8` up, with the byte at bit `k` put behind them, are its bits from `k` up. -/
theorem appendByte_extractLsb' (n : Count) (k : Nat) :
    appendByte (n >>> (k + 8)) (n.extractLsb' k 8) = n >>> k := by
  have hdiv : n.toNat / 2 ^ (k + 8) = n.toNat / 2 ^ k / 256 := by
    rw [Nat.div_div_eq_div_mul, Nat.pow_add]
  have hlt : n.toNat / 2 ^ k < 2 ^ 64 := (Nat.div_le_self _ _).trans_lt n.isLt
  apply BitVec.eq_of_toNat_eq
  simp only [appendByte, BitVec.truncate_eq_setWidth, BitVec.ofNat_eq_ofNat, BitVec.toNat_add, BitVec.toNat_mul,
    BitVec.toNat_ofNat, BitVec.toNat_setWidth, BitVec.toNat_ushiftRight, BitVec.extractLsb'_toNat,
    Nat.shiftRight_eq_div_pow, hdiv]
  omega

/-- R55: the count is read back from its 8 bytes, most significant first. -/
theorem foldl_appendByte_be64 (n : Count) : (be64 n).foldl appendByte 0 = n := by
  have hzero : (0 : Count) = n >>> (56 + 8) := (BitVec.ushiftRight_eq_zero le_rfl).symm
  simp only [be64, List.foldl, hzero, appendByte_extractLsb', BitVec.ushiftRight_zero]

/-- Settles O34. -/
theorem treeArtifactLayout : Obligations.TreeArtifactLayout := by
  intro n t
  have hlen := length_treeArtifact n t
  refine ⟨rfl, hlen, fun h => ?_, fun h => ?_, ?_, foldl_appendByte_be64 n⟩
  · rw [hlen, h]
  · rw [hlen, h]
  · rw [treeArtifact, bitsOf_append, bitsOf_pack]

end Sys2Proof.Machine
end

section
/-!
# The FrequencyCounter (spec 40_frequency_counter R101, R102)

Settles O21 and O22. What a run of COUNT does is said once, as a closed form: each entry of FREQ grows by the number of
times its value occurs in the run, NSYM by the length of the run. Neither depends on the order of the run.
-/

namespace Sys2Proof.Machine

/-! ## ESTART (R101) -/

/-- R44: in IDLE the invariant holds every element at its reset value. -/
theorem Inv.resetValues_of_idle {s : State} (h : Inv s) (hp : s.phase = .idle) : resetValues s := by
  have hreset : clearBlock s = s := by simpa only [phaseFacts, hp, atReset] using h.phases
  exact hreset ▸ resetValues_clearBlock s

theorem exec_estart_idle {s : State} (hp : s.phase = .idle) :
    exec .estart s = .next { s with phase := .eCount } := inPhase_legal _ (by decide) hp

/-- R37: in E_COUNT, with no tree complete, STATUS shows the phase alone. -/
theorem statusByte_eCount {s : State} (hp : s.phase = .eCount) (ht : s.treeOk = false) : statusByte s = 0x01 := by
  simp [statusByte, shownTreeOk, faultedFlag, doneFlag, phaseCode, hp, ht]

/-- R101: STATUS after ESTART. -/
theorem statusByte_estart {s : State} (h : resetValues s) : statusByte { s with phase := .eCount } = 0x01 := by
  obtain ⟨-, -, -, -, -, -, htreeOk, -⟩ := h
  exact statusByte_eCount rfl htreeOk

/-- Settles O21: IDLE is the one legal phase, and there the invariant holds the reset values. -/
theorem estartRule : Obligations.EstartRule := by
  refine ⟨rfl, fun s => ⟨exec_estart_idle, ?wrong, ?elements⟩,
    ⟨_, exec_estart_idle rfl, rfl, statusByte_estart resetValues_reset⟩⟩
  case wrong => exact fun hp hf => exec_wrongPhase hf (decide_eq_false hp)
  case elements =>
    intro hinv hp
    have hreset := hinv.resetValues_of_idle hp
    have ⟨_, _, hfreq, hnsym, _⟩ := hreset
    exact ⟨hfreq, hnsym, statusByte_estart hreset⟩

/-! ## COUNT (R102) -/

/-- Adding 1 first and `k` then is adding `k + 1`, modulo 2^64. -/
theorem count_add_one_add (n : Count) (k : Nat) : n + 1 + BitVec.ofNat 64 k = n + BitVec.ofNat 64 (k + 1) := by
  rw [BitVec.add_assoc, Nat.add_comm, BitVec.ofNat_add]
  rfl

/-- FREQ after COUNT `b`. -/
def addCount (freq : Table Count) (b : Byte) : Table Count := setEntry freq b (entry freq b + 1)

/-- FREQ after a run of COUNT commands. -/
def addCounts (freq : Table Count) (bs : List Byte) : Table Count := bs.foldl addCount freq

theorem entry_addCount (freq : Table Count) (b c : Byte) :
    entry (addCount freq b) c = if c = b then entry freq b + 1 else entry freq c := entry_setEntry ..

/-- Each entry grows by the number of times its value is counted. -/
theorem entry_addCounts (freq : Table Count) (bs : List Byte) (c : Byte) :
    entry (addCounts freq bs) c = entry freq c + BitVec.ofNat 64 (bs.count c) := by
  induction bs generalizing freq with
  | nil => simp [addCounts]
  | cons b bs ih =>
    rw [addCounts, List.foldl_cons, ← addCounts, ih, entry_addCount]
    split
    · next hc => rw [hc, count_add_one_add, List.count_cons_self]
    · next hc => rw [List.count_cons_of_ne (Ne.symm hc)]

theorem addCounts_perm {bs cs : List Byte} (h : bs.Perm cs) (freq : Table Count) :
    addCounts freq bs = addCounts freq cs :=
  table_ext fun c => by rw [entry_addCounts, entry_addCounts, h.count_eq]

theorem decode_count (b : Byte) : decode (0x1100 ||| b.zeroExtend 16) = .ok (.count b) := by
  have hword : 0x1100 ||| b.zeroExtend 16 = wordOf 0x11 b := rfl
  rw [hword]
  simp [decode, formatB]

section
variable {s : State} (hp : s.phase = .eCount)
include hp

theorem exec_count (hn : s.nsym ≠ maxCount) (b : Byte) :
    exec (.count b) s = .next { s with freq := addCount s.freq b, nsym := s.nsym + 1 } := by
  have hbody : countByte b s = { s with freq := addCount s.freq b, nsym := s.nsym + 1 } := if_neg hn
  rw [← hbody]
  exact inPhase_legal _ (by decide) hp

theorem exec_count_overflow (hn : s.nsym = maxCount) (b : Byte) :
    exec (.count b) s = .next (raise .lengthOverflow s) := by
  have hbody : countByte b s = raise .lengthOverflow s := if_pos hn
  rw [← hbody]
  exact inPhase_legal _ (by decide) hp

/-- A run of COUNT commands NSYM has room for, in closed form. -/
theorem sendAll_counts (bs : List Byte) (hlen : s.nsym.toNat + bs.length < 2 ^ 64) :
    sendAll (counts bs) s =
      .next { s with freq := addCounts s.freq bs, nsym := s.nsym + BitVec.ofNat 64 bs.length } := by
  induction bs generalizing s with
  | nil => simp [counts, sendAll, addCounts]
  | cons b bs ih =>
    rw [List.length_cons] at hlen
    have hn : s.nsym ≠ maxCount := by
      intro h
      have hmax : s.nsym.toNat = 2 ^ 64 - 1 := by rw [h]; rfl
      omega
    have hrest : (s.nsym + 1).toNat + bs.length < 2 ^ 64 := by
      rw [count_succ hn]
      omega
    calc sendAll (counts (b :: bs)) s
      _ = sendAll (counts bs) { s with freq := addCount s.freq b, nsym := s.nsym + 1 } :=
          sendAll_cons (exec_count hp hn b) _
      _ = .next { s with freq := addCounts s.freq (b :: bs), nsym := s.nsym + 1 + BitVec.ofNat 64 bs.length } :=
          ih hp hrest
      _ = _ := by rw [count_add_one_add, List.length_cons]

end

/-- R101, R102: a job counts a string shorter than 2^64 from a table of zeros, which reset leaves. -/
theorem sendAll_estart_counts {bs : List Byte} (hlen : bs.length < 2 ^ 64) :
    ∃ t, sendAll (.estart :: counts bs) State.reset = .next t ∧ t.nsym = BitVec.ofNat 64 bs.length ∧
      ∀ b, entry t.freq b = BitVec.ofNat 64 (bs.count b) := by
  rw [sendAll_cons (exec_estart_idle rfl), sendAll_counts rfl bs (by simpa [State.reset] using hlen)]
  exact ⟨_, rfl, by simp [State.reset], fun b => by simp [entry_addCounts, State.reset]⟩

/-- Settles O22. Two runs with the same multiset of arguments have the same closed form. -/
theorem countRule : Obligations.CountRule := by
  refine ⟨decode_count, fun b s => ⟨?counted, fun hp hn => exec_count_overflow hp hn b, ?wrong⟩, ?order, ?scenario⟩
  case counted => exact fun hp hn => ⟨exec_count hp hn b, entry_addCount s.freq b⟩
  case wrong => exact fun hp hf => exec_wrongPhase hf (decide_eq_false hp)
  case order =>
    intro bs cs s hperm hp hlen
    rw [sendAll_counts hp bs hlen, sendAll_counts hp cs (hperm.length_eq ▸ hlen), addCounts_perm hperm,
      hperm.length_eq]
  case scenario =>
    obtain ⟨t, hrun, hnsym, hfreq⟩ := sendAll_estart_counts (bs := [0x41, 0x42, 0x41, 0x41, 0x43]) (by decide)
    refine ⟨t, hrun, hfreq 0x41, hfreq 0x42, hfreq 0x43, hnsym, fun b hb => ?_⟩
    have hnone : List.count b [0x41, 0x42, 0x41, 0x41, 0x43] = 0 :=
      List.count_eq_zero.2 fun hmem => hb (by simpa [or_comm, or_left_comm] using hmem)
    rw [hfreq, hnone]
    rfl

end Sys2Proof.Machine
end

section
/-!
# The TreeBuilder and the command BUILD (spec 41 R110, R111, R114)

Settles O24 and O28. The set S of R111 is the ascending list of the values that occurred (`present_eq`), which gives
the queue of a table known by its entries; the tree and its codes then determine what BUILD leaves (`exec_build`).
-/

namespace Sys2Proof.Machine

/-! ## The queue and the tree of a table (R111, R112, R114) -/

/-- The byte values stand in `allBytes` in ascending order. -/
theorem pairwise_lt_allBytes : allBytes.Pairwise (· < ·) := by
  rw [allBytes, List.pairwise_map]
  refine List.pairwise_lt_range.imp_of_mem fun {a b} ha hb hab => ?_
  rw [List.mem_range] at ha hb
  simpa [BitVec.lt_def, Nat.mod_eq_of_lt ha, Nat.mod_eq_of_lt hb] using hab

/-- R111: an ascending list of exactly the values that occurred is the set S. -/
theorem present_eq {freq : Table Count} {vs : List Byte} (hvs : vs.Pairwise (· < ·))
    (hmem : ∀ v, v ∈ vs ↔ entry freq v ≠ 0) : present freq = vs := by
  have hsorted : (present freq).Pairwise (· < ·) := pairwise_lt_allBytes.filter _
  have hperm : (present freq).Perm vs :=
    (List.perm_ext_iff_of_nodup (nodup_present freq) (hvs.imp BitVec.ne_of_lt)).2 fun v => by
      rw [mem_present, hmem]
  exact hperm.eq_of_pairwise (fun a b _ _ hab hba => absurd hab (BitVec.lt_asymm hba)) hsorted hvs

/-- R114: with one distinct value the placeholder, of weight 0, is extracted before the value's own leaf. -/
theorem initQueue_of_single {freq : Table Count} {b : Byte} (h : ∀ v, entry freq v ≠ 0 ↔ v = b) :
    initQueue freq = [⟨0, (placeholder b).toNat, .leaf (placeholder b)⟩, leafEntry freq b] := by
  have hpresent : present freq = [b] := present_eq (List.pairwise_singleton ..) fun v => by rw [List.mem_singleton, h]
  have hbefore : before ⟨0, (placeholder b).toNat, .leaf (placeholder b)⟩ (leafEntry freq b) = true :=
    (before_iff _ _).2 (.inl (count_pos ((h b).2 rfl)))
  simp [initQueue, initEntries, hpresent, insertEntry, hbefore]

/-- R114: the placeholder is the left child, the real byte the right. -/
theorem buildTree_of_single {freq : Table Count} {b : Byte} (h : ∀ v, entry freq v ≠ 0 ↔ v = b) :
    buildTree freq = some (.node (.leaf (placeholder b)) (.leaf b)) := by
  rw [buildTree, initQueue_of_single h]
  rfl

/-- R110: the queue of the rule's example: the two values counted once before the one counted three times. -/
theorem initQueue_of_example {freq : Table Count}
    (h : ∀ b, entry freq b = if b = 0x41 then 3 else if b = 0x42 then 1 else if b = 0x43 then 1 else 0) :
    initQueue freq = [⟨1, 0x42, .leaf 0x42⟩, ⟨1, 0x43, .leaf 0x43⟩, ⟨3, 0x41, .leaf 0x41⟩] := by
  have hpresent : present freq = [0x41, 0x42, 0x43] := by
    refine present_eq (by decide) fun v => ?_
    rw [h]
    split_ifs <;> simp_all
  have hentries : initEntries freq = [⟨3, 0x41, .leaf 0x41⟩, ⟨1, 0x42, .leaf 0x42⟩, ⟨1, 0x43, .leaf 0x43⟩] := by
    simp [initEntries, hpresent, leafEntry, h]
  rw [initQueue, hentries]
  rfl

/-! ## BUILD (R110) -/

/-- R80, R10: the artifact of a tree BUILD can make is 11 to 328 bytes long. -/
theorem length_treeArtifact_bounds {t : Tree} (hi : isInternal t = true) (hmax : internals t ≤ 255) (n : Count) :
    11 ≤ (treeArtifact n t).length ∧ (treeArtifact n t).length ≤ 328 := by
  have hpos := internals_pos hi
  rw [length_treeArtifact, length_leaves]
  omega

/-- R24: where nothing was counted the counts add up to 0. -/
theorem freqSum_eq_zero {freq : Table Count} (h : ∀ b, entry freq b = 0) : freqSum freq = 0 := by
  simp [freqSum, h]

/-- R111: under the invariant the queue is not empty when NSYM is not 0. -/
theorem Inv.exists_counted {s : State} (h : Inv s) (hp : s.phase = .eCount) (hn : s.nsym ≠ 0) :
    ∃ b, entry s.freq b ≠ 0 := by
  have hfacts := h.phases
  simp only [phaseFacts, hp] at hfacts
  obtain ⟨hsum, -⟩ := hfacts
  by_contra! hzero
  have hpos := count_pos hn
  rw [hsum, freqSum_eq_zero hzero] at hpos
  omega

/-- R37: in E_ENCODE STATUS shows the phase and TREE_OK. -/
theorem statusByte_eEncode {s : State} (hp : s.phase = .eEncode) (ht : s.treeOk = true) : statusByte s = 0x22 := by
  simp [statusByte, shownTreeOk, faultedFlag, doneFlag, phaseCode, hp, ht]

/-- R110: BUILD enters E_ENCODE only with its tree complete. -/
theorem treeOk_of_exec_build {s t : State} (h : exec .build s = .next t) (hs : s.phase = .eCount)
    (ht : t.phase = .eEncode) : t.treeOk = true := by
  rcases execBuild_cases h with ⟨hf, -⟩ | ⟨-, hne, -⟩ | ⟨-, -, rfl⟩ | ⟨-, -, rfl⟩ | ⟨-, -, _, _, -, -, -, rfl⟩
  · simp [hs] at hf
  · exact absurd hs hne
  · simp at ht
  · simp at ht
  · rfl

section
variable {s : State} (hp : s.phase = .eCount)
include hp

theorem exec_build_empty (hn : s.nsym = 0) : exec .build s = .next (raise .empty s) := by
  have hbody : buildBody s = .next (raise .empty s) := if_pos hn
  rw [← hbody]
  exact inPhase_legal _ (by decide) hp

/-- What BUILD leaves of a table that is not empty, from its tree and its codes (R110). -/
theorem exec_build {t : Tree} {code : Table (Option Bits)} (hn : s.nsym ≠ 0) (hcounted : ∃ b, entry s.freq b ≠ 0)
    (ht : buildTree s.freq = some t) (hc : deriveCodes t [] noCodes = some code) :
    exec .build s = .next
      { s with
        tree := t, code := code, treeOk := true, rem := s.nsym, phase := .eEncode,
        out := s.out ++ (treeArtifact s.nsym t).map (Transfer.mk .tree) } := by
  obtain ⟨t', code', ht', hc', -, hbody⟩ := buildBody_spec hn hcounted
  obtain rfl : t = t' := Option.some.inj (ht.symm.trans ht')
  obtain rfl : code = code' := Option.some.inj (hc.symm.trans hc')
  exact (inPhase_legal _ (by decide) hp).trans hbody

end

/-- Settles O24. Of a table that is not empty the tree and its codes exist, and they determine what BUILD leaves. -/
theorem buildRule : Obligations.BuildRule := by
  refine ⟨rfl, fun s => ⟨exec_build_empty, ?built, Inv.exists_counted, ?status, ?wrong⟩, ?scenario⟩
  case built =>
    intro hp hn hcounted
    obtain ⟨t, ht, hi, -, -, hmax⟩ := buildTree_spec hcounted
    obtain ⟨code, hc, -⟩ := deriveCodes_root hi
    obtain ⟨hmin, hlen⟩ := length_treeArtifact_bounds hi hmax s.nsym
    exact ⟨t, code, ht, hi, hc, hmin, hlen, exec_build hp hn hcounted ht hc⟩
  case status => exact fun t hp h ht => statusByte_eEncode ht (treeOk_of_exec_build h hp ht)
  case wrong => exact fun hp hf => exec_wrongPhase hf (decide_eq_false hp)
  case scenario =>
    intro s hp hn hfreq
    have htree : buildTree s.freq = some (.node (.node (.leaf 0x42) (.leaf 0x43)) (.leaf 0x41)) := by
      rw [buildTree, initQueue_of_example hfreq]
      rfl
    have hrun := exec_build hp (by simp [hn]) ⟨0x41, by simp [hfreq]⟩ htree rfl
    rw [hn] at hrun
    exact ⟨_, hrun, rfl, rfl, rfl, rfl, rfl, rfl, rfl⟩

/-! ## One distinct byte value (R114) -/

/-- R130: a value that was not counted has no code to send. -/
theorem exec_enc_noCode {s : State} {b : Byte} (hp : s.phase = .eEncode) (hr : s.rem ≠ 0)
    (hb : entry s.freq b = 0) : exec (.enc b) s = .next (raise .noCode s) := by
  have hbody : encodeByte b s = .next (raise .noCode s) := by rw [encodeByte, if_neg hr, if_pos hb]
  rw [← hbody]
  exact inPhase_legal _ (by decide) hp

/-- Settles O28. The placeholder differs from the one value counted, so its code is kept beside the value's and its
count is 0. -/
theorem oneSymbolTree : Obligations.OneSymbolTree := by
  intro s b hp hn hsingle
  rw [← placeholder]
  have hne := placeholder_ne b
  have hcount : entry s.freq (placeholder b) = 0 := by
    by_contra h
    exact hne ((hsingle _).1 h)
  refine ⟨_, exec_build hp hn ⟨b, (hsingle b).2 rfl⟩ (buildTree_of_single hsingle) rfl, rfl, rfl, ?left, ?right, ?enc⟩
  case left => exact (entry_setEntry_ne _ _ hne).trans (entry_setEntry_same ..)
  case right => exact entry_setEntry_same ..
  case enc => exact exec_enc_noCode rfl hn hcount

end Sys2Proof.Machine
end

section
/-!
# The BitPacker (spec 42_bit_packer R130, R131)

Settles O36 and O37. ENC and FINISH have one equation per outcome, and a run of ENC commands is one statement about the
bits: what it emits and what stays in ACC are the old ACC and the codes of the run, joined. The example of R130 is the
run whose bits do not fill a byte.
-/

namespace Sys2Proof.Machine

/-! ## ENC (R130) -/

theorem decode_enc (b : Byte) : decode (0x1300 ||| b.zeroExtend 16) = .ok (.enc b) := by
  have hword : 0x1300 ||| b.zeroExtend 16 = wordOf 0x13 b := rfl
  rw [hword]
  simp [decode, formatB]

/-- R130: under the invariant a counted byte has a code, of 1 to 255 bits. -/
theorem Inv.exists_code {s : State} (h : Inv s) (hp : s.phase = .eEncode) {b : Byte} (hb : entry s.freq b ≠ 0) :
    ∃ c, entry s.code b = some c ∧ 1 ≤ c.length ∧ c.length ≤ 255 := by
  have hfacts := h.phases
  simp only [phaseFacts, hp] at hfacts
  obtain ⟨-, -, -, hcoded, -⟩ := hfacts
  obtain ⟨c, hc⟩ := Option.ne_none_iff_exists'.1 (hcoded b hb)
  obtain ⟨-, hlen⟩ := (h.codes hp).1 b c hc
  exact ⟨c, hc, hlen⟩

/-- Taking 1 off first and `k` then is taking off `k + 1`, modulo 2^64. -/
theorem count_sub_one_sub (n : Count) (k : Nat) : n - 1 - BitVec.ofNat 64 k = n - BitVec.ofNat 64 (k + 1) := by
  rw [BitVec.sub_sub, Nat.add_comm, BitVec.ofNat_add]
  rfl

section
variable {s : State} (hp : s.phase = .eEncode)
include hp

theorem exec_enc_legal (b : Byte) : exec (.enc b) s = encodeByte b s := inPhase_legal _ (by decide) hp

theorem exec_enc_extraSymbol (hr : s.rem = 0) (b : Byte) : exec (.enc b) s = .next (raise .extraSymbol s) :=
  (exec_enc_legal hp b).trans (if_pos hr)

/-- ENC of a byte with a code: the bits are conserved and in order, and less than a byte of them stays (R130). -/
theorem exec_enc {b : Byte} {c : Bits} (hr : s.rem ≠ 0) (hb : entry s.freq b ≠ 0) (hc : entry s.code b = some c)
    (hacc : s.acc.length ≤ 7) :
    ∃ (bytes : List Byte) (acc' : Bits), exec (.enc b) s = .next
        { s with acc := acc', rem := s.rem - 1, out := s.out ++ bytes.map (Transfer.mk .bits) } ∧
      bitsOf bytes ++ acc' = s.acc ++ c ∧ acc'.length ≤ 7 := by
  obtain ⟨bytes, acc', hpack, hbits, hlen⟩ := packBits_spec c s
  refine ⟨bytes, acc', ?_, hbits, hlen hacc⟩
  have hbody : encodeByte b s = .next { packBits c s with rem := s.rem - 1 } := by
    rw [encodeByte, if_neg hr, if_neg hb, hc]
  rw [exec_enc_legal hp, hbody, hpack]
  rfl

/-- A run of ENC commands REM has room for, each of a byte with a code: BITS and ACC continue the old ACC by the codes
of the run, joined (R130, R82). -/
theorem sendAll_encs {bs : List Byte} {cs : Bits} (hlen : bs.length ≤ s.rem.toNat)
    (hfreq : ∀ b ∈ bs, entry s.freq b ≠ 0) (hcs : codesJoined s.code bs = some cs) (hacc : s.acc.length ≤ 7) :
    ∃ (bytes : List Byte) (acc' : Bits), sendAll (encs bs) s = .next
        { s with acc := acc', rem := s.rem - BitVec.ofNat 64 bs.length,
                 out := s.out ++ bytes.map (Transfer.mk .bits) } ∧
      bitsOf bytes ++ acc' = s.acc ++ cs ∧ acc'.length ≤ 7 := by
  induction bs generalizing s cs with
  | nil =>
    obtain rfl : [] = cs := Option.some.inj hcs
    exact ⟨[], s.acc, by simp [encs, sendAll], by simp [bitsOf], hacc⟩
  | cons b bs ih =>
    obtain ⟨c, hc, cs', hcs', rfl⟩ : ∃ c, entry s.code b = some c ∧ ∃ cs', codesJoined s.code bs = some cs' ∧
        c ++ cs' = cs := by
      simpa [codesJoined, Option.bind_eq_some_iff] using hcs
    rw [List.forall_mem_cons] at hfreq
    obtain ⟨hb, hbs⟩ := hfreq
    rw [List.length_cons] at hlen
    have hr : s.rem ≠ 0 := fun h => by simp [h] at hlen
    have hrest : bs.length ≤ (s.rem - 1).toNat := by
      rw [count_pred hr]
      omega
    obtain ⟨bytes₁, acc₁, hrun₁, hbits₁, hacc₁⟩ := exec_enc hp hr hb hc hacc
    obtain ⟨bytes₂, acc₂, hrun₂, hbits₂, hacc₂⟩ := ih
      (s := { s with acc := acc₁, rem := s.rem - 1, out := s.out ++ bytes₁.map (Transfer.mk .bits) })
      hp hrest hbs hcs' hacc₁
    refine ⟨bytes₁ ++ bytes₂, acc₂, ?run, ?bits, hacc₂⟩
    case run =>
      refine (sendAll_cons hrun₁ _).trans (hrun₂.trans ?_)
      rw [count_sub_one_sub, List.length_cons, List.map_append, List.append_assoc]
    case bits => rw [bitsOf_append, List.append_assoc, hbits₂, ← List.append_assoc, hbits₁, List.append_assoc]

/-- A run of ENC commands that does not fill a byte emits nothing: its codes stay in ACC. -/
theorem sendAll_encs_of_short {bs : List Byte} {cs : Bits} (hlen : bs.length ≤ s.rem.toNat)
    (hfreq : ∀ b ∈ bs, entry s.freq b ≠ 0) (hcs : codesJoined s.code bs = some cs)
    (hshort : s.acc.length + cs.length ≤ 7) :
    sendAll (encs bs) s = .next { s with acc := s.acc ++ cs, rem := s.rem - BitVec.ofNat 64 bs.length } := by
  obtain ⟨bytes, acc', hrun, hbits, hacc⟩ := sendAll_encs hp hlen hfreq hcs (by omega)
  obtain ⟨hcount, -⟩ := pack_counts hbits hacc
  obtain rfl : bytes = [] := List.length_eq_zero_iff.1 (by omega)
  obtain rfl : acc' = s.acc ++ cs := hbits
  simpa using hrun

end

/-- Settles O36. The counts of bytes and pending bits follow from the conservation of the bits. -/
theorem encRule : Obligations.EncRule := by
  refine ⟨decode_enc, fun b s c => ⟨?coded, ?code, fun hp hr => exec_enc_extraSymbol hp hr b, exec_enc_noCode, ?wrong⟩,
    ?scenario⟩
  case coded =>
    intro hp hr hb hc hacc
    obtain ⟨bytes, acc', hrun, hbits, hacc'⟩ := exec_enc hp hr hb hc hacc
    obtain ⟨hbytes, hpending⟩ := pack_counts hbits hacc'
    exact ⟨bytes, acc', hrun, hbits, hbytes, hpending, by omega⟩
  case code => exact fun hinv hp hb => hinv.exists_code hp hb
  case wrong => exact fun hp hf => exec_wrongPhase hf (decide_eq_false hp)
  case scenario =>
    intro s hp hr hacc hA hB hC hcodeA hcodeB hcodeC
    have hfreq : ∀ b ∈ [0x41, 0x42, 0x41, 0x41, 0x43], entry s.freq b ≠ 0 := by
      simp only [List.forall_mem_cons]
      exact ⟨hA, hB, hA, hA, hC, by simp⟩
    have hcodes : codesJoined s.code [0x41, 0x42, 0x41, 0x41, 0x43] =
        some [true, false, false, true, true, false, true] := by
      simp only [codesJoined, hcodeA, hcodeB, hcodeC]
      rfl
    have hrun := sendAll_encs_of_short hp (by simp [hr]) hfreq hcodes (by simp [hacc])
    simpa [hacc, hr] using hrun

/-! ## FINISH (R131) -/

/-- R14: 1 to 7 bits are padded to one byte, with zeros below. -/
theorem pad8_short {c : Bits} (h0 : c ≠ []) (h : c.length ≤ 7) :
    pad8 c = c ++ List.replicate (8 - c.length) false := by
  have hpos := List.length_pos_iff.2 h0
  rw [pad8, Nat.mod_eq_of_lt (by omega), Nat.mod_eq_of_lt (by omega)]

/-- R131: the byte FINISH emits holds the pending bits, and zeros below. -/
theorem bits8_byteOf_pad8 {c : Bits} (h0 : c ≠ []) (h : c.length ≤ 7) :
    bits8 (byteOf (pad8 c)) = c ++ List.replicate (8 - c.length) false := by
  rw [← pad8_short h0 h]
  refine bits8_byteOf ?_
  rw [pad8_short h0 h, List.length_append, List.length_replicate]
  omega

/-- R110: BUILD enters E_ENCODE only with symbols still to come. -/
theorem rem_ne_zero_of_exec_build {s t : State} (h : exec .build s = .next t) (hs : s.phase = .eCount)
    (ht : t.phase = .eEncode) : t.rem ≠ 0 := by
  rcases execBuild_cases h with ⟨hf, -⟩ | ⟨-, hne, -⟩ | ⟨-, -, rfl⟩ | ⟨-, -, rfl⟩ | ⟨-, hn, _, _, -, -, -, rfl⟩
  · simp [hs] at hf
  · exact absurd hs hne
  · simp at ht
  · simp at ht
  · exact hn

section
variable {s : State} (hp : s.phase = .eEncode)
include hp

theorem exec_finish_legal : exec .finish s = .next (finishPack s) := inPhase_legal _ (by decide) hp

theorem exec_finish_missing (hr : s.rem ≠ 0) : exec .finish s = .next (raise .missingSymbols s) := by
  rw [exec_finish_legal hp, finishPack, if_pos hr]

theorem exec_finish (hr : s.rem = 0) : exec .finish s = .next { flushAcc s with phase := .done } := by
  rw [exec_finish_legal hp, finishPack, if_neg (not_not.2 hr)]

theorem exec_finish_empty (hr : s.rem = 0) (hacc : s.acc = []) :
    exec .finish s = .next { s with phase := .done } := by
  rw [exec_finish hp hr, flushAcc, if_pos hacc]

theorem exec_finish_pending (hr : s.rem = 0) (hacc : s.acc ≠ []) :
    exec .finish s = .next
      { s with phase := .done, acc := [], out := s.out ++ [⟨.bits, byteOf (pad8 s.acc)⟩] } := by
  rw [exec_finish hp hr, flushAcc, if_neg hacc]
  rfl

/-- R131: in E_ENCODE a FINISH that does not fault ends the job. -/
theorem phase_of_exec_finish {t : State} (h : exec .finish s = .next t) (ht : t.phase ≠ .fault) :
    t.phase = .done := by
  rcases execFinish_cases h with ⟨hf, -⟩ | ⟨-, hne, -⟩ | ⟨-, -, rfl⟩ | ⟨-, -, -, rfl⟩ | ⟨-, -, -, rfl⟩
  · simp [hp] at hf
  · exact absurd hp hne
  · simp at ht
  · rfl
  · rfl

end

/-- Settles O37. The three outcomes in E_ENCODE are decided by REM and ACC; after BUILD, REM is not 0. -/
theorem finishRule : Obligations.FinishRule := by
  refine ⟨rfl, fun s => ⟨exec_finish_missing, exec_finish_empty, ?pending, ?scenario, ?wrong, ?status, ?build⟩⟩
  case pending => exact fun hp hr hacc hlen => ⟨_, exec_finish_pending hp hr hacc, bits8_byteOf_pad8 hacc hlen⟩
  case scenario =>
    intro hp hr hacc
    rw [exec_finish_pending hp hr (by simp [hacc]), hacc]
    rfl
  case wrong => exact fun hp hf => exec_wrongPhase hf (decide_eq_false hp)
  case status =>
    intro t hp h ht
    have hdone := phase_of_exec_finish hp h ht
    exact ⟨doneFlag_eq_true_iff.2 hdone, by rw [statusByte_phaseField, hdone]; rfl⟩
  case build => exact fun t hp h ht => exec_finish_missing ht (rem_ne_zero_of_exec_build h hp ht)

end Sys2Proof.Machine
end

section
/-!
# The tree loader (spec 43_tree_loader R140 to R144)

Settles O39 to O43. `Complete` goes up through the open nodes whose right subtree it finishes; TreeBit, LOADT and TEND
have one equation per outcome. A run of LOADT commands is the header and one loop over the bits behind it, and while
that loop reads the serialization of a tree it completes the tree at the last bit and not before (R141).
-/

namespace Sys2Proof.Machine

/-! ## Complete (R143) -/

/-- The subtree that is finished when `t` closes the open nodes with the left subtrees `ls`, the innermost first. -/
def closeNodes (ls : List Tree) (t : Tree) : Tree := ls.foldl (fun u l => .node l u) t

theorem complete_needRights (ls : List Tree) (t : Tree) (st : List Frame) :
    complete t (ls.map .needRight ++ st) = complete (closeNodes ls t) st := by
  induction ls generalizing t with
  | nil => rfl
  | cons l ls ih => exact ih (.node l t)

theorem isInternal_closeNodes_node (ls : List Tree) (l r : Tree) :
    isInternal (closeNodes ls (.node l r)) = true := by
  induction ls generalizing l r with
  | nil => rfl
  | cons k ls ih => exact ih k (.node l r)

theorem isInternal_closeNodes {ls : List Tree} (h : ls ≠ []) (t : Tree) : isInternal (closeNodes ls t) = true := by
  cases ls with
  | nil => exact absurd rfl h
  | cons l ls => exact isInternal_closeNodes_node ls l t

section
variable {s : State} {ls : List Tree} (t : Tree)

/-- A node whose left subtree is open ends the closing: it has its left subtree now. -/
theorem completeTree_needLeft {st : List Frame} (h : s.pstk = ls.map .needRight ++ .needLeft :: st) :
    completeTree t s = { s with pstk := .needRight (closeNodes ls t) :: st } := by
  rw [completeTree, h, complete_needRights]
  rfl

/-- With no such node on the stack the whole tree is finished. -/
theorem completeTree_root (h : s.pstk = ls.map .needRight) :
    completeTree t s = { s with pstk := [], tree := closeNodes ls t, treeOk := true } := by
  rw [completeTree, h, ← List.append_nil (ls.map _), complete_needRights]
  rfl

end

/-- Settles O42. The stack is read as the nodes the subtree closes, above a node whose left subtree is open or above
nothing. -/
theorem completeClosesNodes : Obligations.CompleteClosesNodes := fun t _ _ _ =>
  ⟨completeTree_needLeft t, completeTree_root t, fun h => isInternal_closeNodes h t⟩

/-! ## DSTART (R140) -/

theorem exec_dstart_idle {s : State} (hp : s.phase = .idle) :
    exec .dstart s = .next { s with phase := .dTree } := inPhase_legal _ (by decide) hp

/-- R37: in D_TREE, with no tree complete, STATUS shows the phase alone. -/
theorem statusByte_dTree {s : State} (hp : s.phase = .dTree) (ht : s.treeOk = false) : statusByte s = 0x03 := by
  simp [statusByte, shownTreeOk, faultedFlag, doneFlag, phaseCode, hp, ht]

/-- R140: STATUS after DSTART. -/
theorem statusByte_dstart {s : State} (h : resetValues s) : statusByte { s with phase := .dTree } = 0x03 := by
  obtain ⟨-, -, -, -, -, -, htreeOk, -⟩ := h
  exact statusByte_dTree rfl htreeOk

/-- Settles O39: IDLE is the one legal phase, and there the invariant holds the reset values. -/
theorem dstartRule : Obligations.DstartRule := by
  refine ⟨rfl, fun s => ⟨exec_dstart_idle, ?wrong, ?elements⟩,
    ⟨_, exec_dstart_idle rfl, rfl, statusByte_dstart resetValues_reset⟩⟩
  case wrong => exact fun hp hf => exec_wrongPhase hf (decide_eq_false hp)
  case elements =>
    intro hinv hp
    have hreset := hinv.resetValues_of_idle hp
    have ⟨_, _, _, hnsym, _, _, htreeOk, _, hhcnt, hpstk, hpleaf, hnint, hseen⟩ := hreset
    exact ⟨hhcnt, hnsym, hpstk, hpleaf, hnint, hseen, htreeOk, statusByte_dstart hreset⟩

/-! ## TreeBit (R142) -/

section
variable {s : State} {k : Nat} {v : Byte} (hl : s.pleaf = some ⟨k, v⟩) (x : Bool)
include hl

theorem treeBit_value (hk : k + 1 < 8) : treeBit x s = .ok { s with pleaf := some ⟨k + 1, shiftIn v x⟩ } := by
  simp only [treeBit, hl, if_pos hk]

theorem treeBit_dupLeaf (hk : 8 ≤ k + 1) (hs : entry s.seen (shiftIn v x) = true) :
    treeBit x s = .error .treeDupLeaf := by
  simp only [treeBit, hl, if_neg (Nat.not_lt.2 hk), if_pos hs]

theorem treeBit_leaf (hk : 8 ≤ k + 1) (hs : entry s.seen (shiftIn v x) = false) :
    treeBit x s = .ok (completeTree (.leaf (shiftIn v x))
      { s with pleaf := none, seen := setEntry s.seen (shiftIn v x) true }) := by
  simp only [treeBit, hl, if_neg (Nat.not_lt.2 hk), if_neg (Bool.not_eq_true _ ▸ hs)]

end

section
variable {s : State} (hl : s.pleaf = none)
include hl

theorem treeBit_rootLeaf (hst : s.pstk = []) : treeBit true s = .error .treeRootLeaf := by
  simp only [treeBit, hl, if_pos, if_pos hst]

theorem treeBit_leafTag (hst : s.pstk ≠ []) : treeBit true s = .ok { s with pleaf := some ⟨0, 0⟩ } := by
  simp only [treeBit, hl, if_pos, if_neg hst]

theorem treeBit_tooManyInternal (hn : s.nint = 255) : treeBit false s = .error .treeTooManyInternal := by
  simp only [treeBit, hl, Bool.false_eq_true, if_false, if_pos hn]

theorem treeBit_nodeTag (hn : s.nint ≠ 255) :
    treeBit false s = .ok { s with nint := s.nint + 1, pstk := .needLeft :: s.pstk } := by
  simp only [treeBit, hl, Bool.false_eq_true, if_false, if_neg hn]

end

/-- No bit of the tree has been read: R30 to R33 at their reset values. -/
def atTreeStart (s : State) : Prop :=
  s.treeOk = false ∧ s.pstk = [] ∧ s.pleaf = none ∧ s.nint = 0 ∧ ∀ b, entry s.seen b = false

/-- R142: while the tree is not complete, the stack is empty only before its first bit. -/
theorem Inv.atTreeStart_of_pstk {s : State} (h : Inv s) (hp : s.phase = .dTree) (ht : s.treeOk = false)
    (hst : s.pstk = []) : atTreeStart s := by
  have hfacts := h.loader hp
  simp only [loaderFacts, hst, ht, stackLeaves, stackInternals] at hfacts
  obtain ⟨-, hseen, hnint, hleaf⟩ := hfacts
  refine ⟨ht, hst, ?_, hnint, fun b => ?_⟩
  · exact Option.eq_none_iff_forall_ne_some.2 fun p hl => (hleaf p hl).1 rfl
  · simpa using hseen b

/-- R142: the complete tree is within the bounds of the store. -/
theorem Inv.tree_bounds {s : State} (h : Inv s) (hp : s.phase ≠ .fault) (ht : s.treeOk = true) :
    (leaves s.tree).length ≤ 256 ∧ internals s.tree ≤ 255 := by
  obtain ⟨-, hn, hi⟩ := h.wholeTree hp ht
  exact ⟨length_le_of_nodup hn, hi⟩

/-- Settles O41, outcome by outcome. -/
theorem treeBitRule : Obligations.TreeBitRule := by
  intro s
  simp only [← shiftIn_eq]
  refine ⟨?start, Inv.tree_bounds, fun k v x hl => treeBit_value hl x, fun k v x hl => treeBit_dupLeaf hl x,
    fun k v x hl => treeBit_leaf hl x, treeBit_rootLeaf, treeBit_leafTag, treeBit_tooManyInternal, treeBit_nodeTag⟩
  case start =>
    intro hinv hp ht hst
    obtain ⟨-, -, hleaf, hnint, hseen⟩ := hinv.atTreeStart_of_pstk hp ht hst
    exact ⟨hleaf, hnint, hseen⟩

/-! ## The loop over tree bits (R141) -/

section
variable {xs ys : Bits} {s : State}

/-- The loop changes neither the phase nor HCNT, unless a bit faults. -/
theorem loadBits_phase_hcnt (h : (loadBits xs s).phase ≠ .fault) :
    (loadBits xs s).phase = s.phase ∧ (loadBits xs s).hcnt = s.hcnt := by
  obtain ⟨u, hu, hrun | ⟨c, hrun, -⟩⟩ := loadBits_frame xs s
  · rw [hrun, hu]
    exact ⟨rfl, rfl⟩
  · exact absurd (congrArg State.phase hrun) h

/-- A loop without a fault has no fault in any first piece of its bits. -/
theorem loadBits_phase_of_append (hp : s.phase ≠ .fault) (hf : (loadBits (xs ++ ys) s).phase ≠ .fault) :
    (loadBits xs s).phase ≠ .fault := by
  induction xs generalizing s with
  | nil => exact hp
  | cons x xs ih =>
    cases ht : s.treeOk with
    | true => rwa [loadBits_done ht]
    | false =>
      cases hb : treeBit x s with
      | error c => simp [loadBits_cons_error ht hb] at hf
      | ok u =>
        rw [List.cons_append, loadBits_cons_ok ht hb] at hf
        rw [loadBits_cons_ok ht hb]
        exact ih (by rwa [treeBit_phase hb]) hf

/-- A tree that a loop leaves incomplete is incomplete after every first piece of its bits. -/
theorem loadBits_treeOk_of_append (hf : (loadBits xs s).phase ≠ .fault)
    (ht : (loadBits (xs ++ ys) s).treeOk = false) : (loadBits xs s).treeOk = false := by
  rw [loadBits_append hf] at ht
  by_contra h
  rw [loadBits_done (eq_true_of_ne_false h)] at ht
  exact h ht

end

section
variable {s : State} (hstart : atTreeStart s) {t : Tree} (ht : loadable t)
include hstart ht

/-- The serialization of a loadable tree completes that tree; what follows it is padding. -/
theorem loadBits_ser_root (xs : Bits) :
    loadBits (ser t ++ xs) s =
      { s with nint := internals t, seen := markSeen (leaves t) s.seen, tree := t, treeOk := true } := by
  obtain ⟨hopen, hst, hleaf, hnint, hseen⟩ := hstart
  obtain ⟨hi, hn, hmax⟩ := ht
  have hclose := completeTree_root (ls := [])
    (s := { s with nint := s.nint + internals t, seen := markSeen (leaves t) s.seen }) t hst
  rw [loadBits_ser t xs s hopen hleaf (.inl hi) hn (fun b _ => hseen b) (by omega), hclose, loadBits_done rfl, hnint,
    Nat.zero_add, hst]
  rfl

/-- Before its last bit the tree is not complete, and no bit of it faults. -/
theorem loadBits_prefix_of_ser (hp : s.phase ≠ .fault) {xs ys : Bits} (h : xs ++ ys = ser t) (hys : ys ≠ []) :
    (loadBits xs s).phase ≠ .fault ∧ (loadBits xs s).treeOk = false := by
  have hf : (loadBits xs s).phase ≠ .fault := by
    refine loadBits_phase_of_append (ys := ys) hp ?_
    rwa [h, ← List.append_nil (ser t), loadBits_ser_root hstart ht]
  obtain ⟨hopen, hst, hleaf, -⟩ := hstart
  obtain ⟨-, zs, ws, hxs, hread, -⟩ := loadBits_consumed xs s (by simp [leafInRange, hleaf]) hp hf
  refine ⟨hf, ?_⟩
  by_contra hok
  have hser : ser (loadBits xs s).tree = zs := by
    simpa [consumed, eq_true_of_ne_false hok, hopen, hst, hleaf, stackBits, leafBits] using hread
  have hrest : ser (loadBits xs s).tree ++ (ws ++ ys) = ser t ++ [] := by
    rw [hser, ← List.append_assoc, ← hxs, h, List.append_nil]
  exact hys (List.append_eq_nil_iff.1 (ser_parse hrest).2).2

end

/-! ## LOADT (R141) -/

theorem decode_loadt (b : Byte) : decode (0x2100 ||| b.zeroExtend 16) = .ok (.loadt b) := by
  have hword : 0x2100 ||| b.zeroExtend 16 = wordOf 0x21 b := rfl
  rw [hword]
  simp [decode, formatB]

/-- One more byte of a header of less than 8 bytes fits the count. -/
theorem appendByte_toNat {n : Count} {k : Nat} (hn : n.toNat < 2 ^ (8 * k)) (hk : k < 8) (b : Byte) :
    (appendByte n b).toNat = n.toNat * 256 + b.toNat := by
  have hfit : n.toNat < 2 ^ 56 := hn.trans_le (Nat.pow_le_pow_right (by decide) (by omega))
  have hb := b.isLt
  simp only [appendByte, BitVec.truncate_eq_setWidth, BitVec.ofNat_eq_ofNat, BitVec.toNat_add, BitVec.toNat_mul,
    BitVec.toNat_ofNat, BitVec.toNat_setWidth]
  omega

section
variable {s : State} (hp : s.phase = .dTree)
include hp

theorem exec_loadt_header (hh : s.hcnt < 8) (b : Byte) :
    exec (.loadt b) s = .next { s with nsym := appendByte s.nsym b, hcnt := s.hcnt + 1 } := by
  have hbody : loadByte b s = { s with nsym := appendByte s.nsym b, hcnt := s.hcnt + 1 } := if_pos hh
  rw [← hbody]
  exact inPhase_legal _ (by decide) hp

theorem exec_loadt_trailing (hh : 8 ≤ s.hcnt) (ht : s.treeOk = true) (b : Byte) :
    exec (.loadt b) s = .next (raise .treeTrailing s) := by
  have hbody : loadByte b s = raise .treeTrailing s := by rw [loadByte, if_neg (Nat.not_lt.2 hh), if_pos ht]
  rw [← hbody]
  exact inPhase_legal _ (by decide) hp

theorem exec_loadt_tree (hh : 8 ≤ s.hcnt) (ht : s.treeOk = false) (b : Byte) :
    exec (.loadt b) s = .next (loadBits (bits8 b) s) := by
  have hbody : loadByte b s = loadBits (bits8 b) s := by simp [loadByte, Nat.not_lt.2 hh, ht]
  rw [← hbody]
  exact inPhase_legal _ (by decide) hp

/-- A run of LOADT commands in the header puts its bytes behind NSYM. -/
theorem sendAll_loadts_header (bs : List Byte) (hlen : s.hcnt + bs.length ≤ 8) :
    sendAll (loadts bs) s =
      .next { s with nsym := bs.foldl appendByte s.nsym, hcnt := s.hcnt + bs.length } := by
  induction bs generalizing s with
  | nil => rfl
  | cons b bs ih =>
    rw [List.length_cons] at hlen
    calc sendAll (loadts (b :: bs)) s
      _ = sendAll (loadts bs) { s with nsym := appendByte s.nsym b, hcnt := s.hcnt + 1 } :=
          sendAll_cons (exec_loadt_header hp (by omega) b) _
      _ = .next { s with nsym := (b :: bs).foldl appendByte s.nsym, hcnt := s.hcnt + 1 + bs.length } :=
          ih hp (by show s.hcnt + 1 + bs.length ≤ 8; omega)
      _ = _ := by rw [List.length_cons, Nat.add_assoc, Nat.add_comm 1]

/-- A run of LOADT commands behind the header that leaves the tree incomplete is one loop over its bits. -/
theorem sendAll_loadts_tree (bs : List Byte) (hh : 8 ≤ s.hcnt) (hf : (loadBits (bitsOf bs) s).phase ≠ .fault)
    (ht : (loadBits (bitsOf bs) s).treeOk = false) :
    sendAll (loadts bs) s = .next (loadBits (bitsOf bs) s) := by
  induction bs generalizing s with
  | nil => rfl
  | cons b bs ih =>
    rw [bitsOf_cons] at hf ht ⊢
    have hs : s.phase ≠ .fault := by simp [hp]
    have hopen : s.treeOk = false := loadBits_treeOk_of_append (xs := []) hs ht
    have hf₁ := loadBits_phase_of_append hs hf
    obtain ⟨hp₁, hh₁⟩ := loadBits_phase_hcnt hf₁
    rw [loadBits_append hf₁] at hf ht ⊢
    exact (sendAll_cons (exec_loadt_tree hp hh hopen b) _).trans (ih (hp₁.trans hp) (by rwa [hh₁]) hf ht)

end

/-- R140, R141: DSTART and the 8 bytes of the header. -/
theorem sendAll_dstart_be64 {s : State} (hs : resetValues s) (n : Count) :
    sendAll (.dstart :: loadts (be64 n)) s = .next { s with phase := .dTree, nsym := n, hcnt := 8 } := by
  obtain ⟨hp, -, -, hnsym, -, -, -, -, hhcnt, -⟩ := hs
  rw [sendAll_cons (exec_dstart_idle hp), sendAll_loadts_header rfl (be64 n) (by rw [hhcnt]; rfl), hnsym,
    foldl_appendByte_be64, hhcnt]
  rfl

theorem atTreeStart_of_resetValues {s : State} (h : resetValues s) : atTreeStart s := by
  obtain ⟨-, -, -, -, -, -, htreeOk, -, -, hrest⟩ := h
  exact ⟨htreeOk, hrest⟩

/-- The tree of the rule's example. -/
def exampleTree : Tree := .node (.node (.leaf 0x42) (.leaf 0x43)) (.leaf 0x41)

/-- Its 29 bits: 24 in the first three bytes of the example, and 5 in the fourth. -/
theorem ser_exampleTree :
    ser exampleTree = bitsOf [0x28, 0x54, 0x3A] ++ [false, false, false, false, true] := by decide

theorem loadable_exampleTree : loadable exampleTree := by
  unfold loadable
  decide

/-- R141: the example's run, with TREE_OK after the 28th and the 29th bit of the tree. -/
theorem loadt_scenario :
    ∃ u, sendAll (.dstart :: loadts [0, 0, 0, 0, 0, 0, 0, 5, 0x28, 0x54, 0x3A]) State.reset = .next u ∧
      (loadBits [false, false, false, false] u).treeOk = false ∧
      (loadBits [false, false, false, false, true] u).treeOk = true ∧
      ∃ t, exec (.loadt 0x08) u = .next t ∧
        t.tree = exampleTree ∧ t.treeOk = true ∧ t.nsym = 5 ∧ t.hcnt = 8 := by
  have hheader := sendAll_dstart_be64 resetValues_reset 5
  set s : State := { State.reset with phase := .dTree, nsym := 5, hcnt := 8 }
  have hstart : atTreeStart s := atTreeStart_of_resetValues (s := State.reset) resetValues_reset
  have hp : s.phase ≠ .fault := by decide
  obtain ⟨hf, hopen⟩ := loadBits_prefix_of_ser hstart loadable_exampleTree hp ser_exampleTree.symm (by simp)
  obtain ⟨-, h28⟩ := loadBits_prefix_of_ser hstart loadable_exampleTree hp
    (xs := bitsOf [0x28, 0x54, 0x3A] ++ [false, false, false, false]) (ys := [true]) rfl (by simp)
  have hlast : ∀ xs, loadBits ([false, false, false, false, true] ++ xs) (loadBits (bitsOf [0x28, 0x54, 0x3A]) s) =
      { s with nint := 2, seen := markSeen [0x42, 0x43, 0x41] s.seen, tree := exampleTree, treeOk := true } := by
    intro xs
    rw [← loadBits_append hf, ← List.append_assoc, ← ser_exampleTree]
    exact loadBits_ser_root hstart loadable_exampleTree xs
  obtain ⟨hphase, hhcnt⟩ := loadBits_phase_hcnt hf
  have hrun := (sendAll_append hheader).trans (sendAll_loadts_tree rfl [0x28, 0x54, 0x3A] le_rfl hf hopen)
  have hdone := (exec_loadt_tree hphase hhcnt.ge hopen 0x08).trans (congrArg _ (hlast [false, false, false]))
  rw [loadBits_append hf] at h28
  exact ⟨_, hrun, h28, congrArg State.treeOk (hlast []), _, hdone, rfl, rfl, rfl, rfl⟩

/-- Settles O40. The clauses on the loop are its equations; the run is the example's. -/
theorem loadtRule : Obligations.LoadtRule := by
  refine ⟨decode_loadt, fun b s => ⟨fun hp hh => exec_loadt_header hp hh b,
    fun hp hh ht => exec_loadt_trailing hp hh ht b, fun hp hh ht => exec_loadt_tree hp hh ht b, ?wrong, ?noWrap⟩,
    fun x xs s u c => ⟨rfl, fun ht => loadBits_done ht _, fun ht hb => loadBits_cons_ok ht hb xs,
      fun ht hb => loadBits_cons_error ht hb xs⟩, ?scenario⟩
  case wrong => exact fun hp hf => exec_wrongPhase hf (decide_eq_false hp)
  case noWrap => exact fun hinv hp hh => appendByte_toNat (hinv.header hp) hh b
  case scenario =>
    obtain ⟨u, hu, h28, h29, t, ht, htree, htreeOk, hnsym, hhcnt⟩ := loadt_scenario
    have hrun := (sendAll_append (js := [.loadt 0x08]) hu).trans ((sendAll_singleton ..).trans ht)
    exact ⟨t, hrun, htree, htreeOk, hnsym, hhcnt, u, hu, h28, h29⟩

/-! ## TEND (R144) -/

/-- R37: in D_BITS STATUS shows the phase and TREE_OK. -/
theorem statusByte_dBits {s : State} (hp : s.phase = .dBits) (ht : s.treeOk = true) : statusByte s = 0x24 := by
  simp [statusByte, shownTreeOk, faultedFlag, doneFlag, phaseCode, hp, ht]

section
variable {s : State} (hp : s.phase = .dTree)
include hp

theorem exec_tend_truncated (h : s.hcnt < 8 ∨ s.treeOk = false) :
    exec .tend s = .next (raise .treeTruncated s) := by
  have hbody : endTree s = raise .treeTruncated s := if_pos h
  rw [← hbody]
  exact inPhase_legal _ (by decide) hp

theorem exec_tend (hh : 8 ≤ s.hcnt) (ht : s.treeOk = true) :
    exec .tend s = .next { s with rem := s.nsym, pos := s.tree, phase := .dBits } := by
  have hbody : endTree s = { s with rem := s.nsym, pos := s.tree, phase := .dBits } :=
    if_neg (by simp [Nat.not_lt.2 hh, ht])
  rw [← hbody]
  exact inPhase_legal _ (by decide) hp

end

/-- Settles O43. In D_TREE the header and TREE_OK decide between the fault and the step to D_BITS. -/
theorem tendRule : Obligations.TendRule := by
  refine ⟨rfl, fun s => ⟨exec_tend_truncated, ?ended, ?wrong⟩⟩
  case ended => exact fun hp hh ht => ⟨exec_tend hp hh ht, statusByte_dBits rfl ht⟩
  case wrong => exact fun hp hf => exec_wrongPhase hf (decide_eq_false hp)

end Sys2Proof.Machine
end

section
/-!
# The tree walker (spec 44_bit_unpacker R155, R156, R159)

Settles O46, O47 and O49. PUSHB and DEND have one equation per outcome. From the root, the walk reads the paths of any
leaves, joined, as the bytes of those leaves; the rules' example is five of them.
-/

namespace Sys2Proof.Machine

/-! ## PUSHB (R155) -/

theorem decode_pushb (b : Byte) : decode (0x2300 ||| b.zeroExtend 16) = .ok (.pushb b) := by
  have hword : 0x2300 ||| b.zeroExtend 16 = wordOf 0x23 b := rfl
  rw [hword]
  simp [decode, formatB]

theorem arrive_internal {n : Tree} (h : isInternal n = true) (s : State) : arrive n s = { s with pos := n } := by
  cases n with
  | leaf v => simp [isInternal] at h
  | node l r => rfl

/-- From the root, the joined paths of leaves that REM has room for are read as the bytes of those leaves, and the
walk is at the root again (R155). -/
theorem walkBits_paths {t : Tree} {s : State} {ps : List Bits} {bs : List Byte} (hi : isInternal t = true)
    (ht : s.tree = t) (hpos : s.pos = t) (hlen : bs.length ≤ s.rem.toNat)
    (h : List.Forall₂ (fun p v => follow t p = some (.leaf v)) ps bs) (xs : Bits) :
    walkBits (ps.flatten ++ xs) s = walkBits xs
      { s with out := s.out ++ bs.map (Transfer.mk .data), rem := s.rem - BitVec.ofNat 64 bs.length } := by
  induction h generalizing s with
  | nil => simp
  | @cons p v ps bs hp _ ih =>
    rw [List.length_cons] at hlen
    have hr : s.rem ≠ 0 := by
      intro h0
      simp [h0] at hlen
    have hpred : (s.rem - 1).toNat = s.rem.toNat - 1 := count_pred hr
    calc walkBits ((p :: ps).flatten ++ xs) s
      _ = walkBits (ps.flatten ++ xs)
            { s with out := s.out ++ [⟨.data, v⟩], rem := s.rem - 1, pos := s.tree } := by
          rw [List.flatten_cons, List.append_assoc]
          exact walkBits_path hr (path_ne_nil hi hp) (hpos ▸ hp)
      _ = _ := ih ht ht (by rw [hpred]; omega)
      _ = _ := by rw [ht, ← hpos, count_sub_one_sub, List.append_assoc]; rfl

section
variable {s : State} (hp : s.phase = .dBits)
include hp

theorem exec_pushb_extra (hr : s.rem = 0) (b : Byte) : exec (.pushb b) s = .next (raise .bitsExtra s) := by
  have hbody : pushByte b s = raise .bitsExtra s := if_pos hr
  rw [← hbody]
  exact inPhase_legal _ (by decide) hp

theorem exec_pushb (hr : s.rem ≠ 0) (b : Byte) : exec (.pushb b) s = .next (walkBits (bits8 b) s) := by
  have hbody : pushByte b s = walkBits (bits8 b) s := if_neg hr
  rw [← hbody]
  exact inPhase_legal _ (by decide) hp

/-- R155: the run of the rule's example: five leaves, and one bit of padding. -/
theorem exec_pushb_example (hr : s.rem = 5) (hpos : s.pos = s.tree) (ht : s.tree = exampleTree) :
    exec (.pushb 0x9A) s = .next
      { s with rem := 0, out := s.out ++ [0x41, 0x42, 0x41, 0x41, 0x43].map (Transfer.mk .data) } := by
  have hbits : bits8 0x9A = [[true], [false, false], [true], [true], [false, true]].flatten ++ [false] := by decide
  have hpaths : List.Forall₂ (fun p v => follow exampleTree p = some (.leaf v))
      [[true], [false, false], [true], [true], [false, true]] [0x41, 0x42, 0x41, 0x41, 0x43] := by
    simp [exampleTree, follow, child]
  rw [exec_pushb hp (by simp [hr]), hbits, walkBits_paths rfl ht (hpos.trans ht) (by simp [hr]) hpaths,
    walkBits_stop (by simp [hr]), hr]
  rfl

end

/-- Settles O46. The bound on the bytes is that of the walk over the 8 bits of one byte. -/
theorem pushbRule : Obligations.PushbRule := by
  refine ⟨decode_pushb, fun b s => ⟨fun hp hr => exec_pushb_extra hp hr b, fun hp hr => exec_pushb hp hr b, ?inside,
    ?wrong⟩, fun x xs s n v => ⟨rfl, fun hr => walkBits_stop hr _, fun hr hc => walkBits_cons_off hr hc xs, ?inner,
    fun hr hc => walkBits_cons hr hc xs⟩, fun s => exec_pushb_example⟩
  case inside =>
    intro hp hr hi hpos hsub
    obtain ⟨bytes, pos', hwalk, hi', -, hlen, hrem, hroot⟩ :=
      walkBits_spec (bits8 b) s hi hpos hsub (fun h => absurd h hr)
    exact ⟨bytes, pos', (exec_pushb hp hr b).trans (congrArg _ hwalk), hlen, hrem, hi', hroot⟩
  case wrong => exact fun hp hf => exec_wrongPhase hf (decide_eq_false hp)
  case inner =>
    intro hr hc hi
    rw [walkBits_cons hr hc, arrive_internal hi]

/-! ## DEND (R156) -/

/-- R37: in DONE, with the tree kept, STATUS shows the phase, DONE and TREE_OK. -/
theorem statusByte_done {s : State} (hp : s.phase = .done) (ht : s.treeOk = true) : statusByte s = 0x2D := by
  simp [statusByte, shownTreeOk, faultedFlag, doneFlag, phaseCode, hp, ht]

/-- R44: in D_BITS the tree is complete. -/
theorem Inv.treeOk_of_dBits {s : State} (h : Inv s) (hp : s.phase = .dBits) : s.treeOk = true := by
  have hfacts := h.phases
  simp only [phaseFacts, hp] at hfacts
  exact hfacts.1

section
variable {s : State} (hp : s.phase = .dBits)
include hp

theorem exec_dend_truncated (hr : s.rem ≠ 0) : exec .dend s = .next (raise .bitsTruncated s) := by
  have hbody : endBits s = raise .bitsTruncated s := if_pos hr
  rw [← hbody]
  exact inPhase_legal _ (by decide) hp

theorem exec_dend (hr : s.rem = 0) : exec .dend s = .next { s with phase := .done } := by
  have hbody : endBits s = { s with phase := .done } := if_neg (not_not.2 hr)
  rw [← hbody]
  exact inPhase_legal _ (by decide) hp

end

theorem onChannel_map (ch : Channel) (bs : List Byte) : onChannel ch (bs.map (Transfer.mk ch)) = bs := by
  simp [onChannel, List.filterMap_map]

/-- Settles O47. In D_BITS REM alone decides between the fault and DONE. -/
theorem dendRule : Obligations.DendRule := by
  refine ⟨rfl, ?scenario, fun s => ⟨exec_dend_truncated, exec_dend, ?wrong, ?root⟩⟩
  case scenario =>
    intro s hp hr hpos hok ht
    have hpush := exec_pushb_example hp hr hpos ht
    have hrun := (sendAll_cons hpush [.dend]).trans ((sendAll_singleton ..).trans (exec_dend hp rfl))
    refine ⟨_, hrun, rfl, statusByte_done rfl hok, ?_⟩
    rw [emittedSince, List.drop_left, onChannel_map]
  case wrong => exact fun hp hf => exec_wrongPhase hf (decide_eq_false hp)
  case root => exact fun hinv hp hr => ⟨hinv.atRoot hp hr, statusByte_done rfl (hinv.treeOk_of_dBits hp)⟩

/-! ## A symbol count of zero (R159) -/

/-- R110: BUILD enters E_ENCODE only from a count that is not 0, and keeps it. -/
theorem nsym_of_exec_build {s t : State} (h : exec .build s = .next t) (hs : s.phase = .eCount)
    (ht : t.phase = .eEncode) : s.nsym ≠ 0 ∧ t.nsym = s.nsym := by
  rcases execBuild_cases h with ⟨hf, -⟩ | ⟨-, hne, -⟩ | ⟨-, -, rfl⟩ | ⟨-, -, rfl⟩ | ⟨-, hn, _, _, -, -, -, rfl⟩
  · simp [hs] at hf
  · exact absurd hs hne
  · simp at ht
  · simp at ht
  · exact ⟨hn, rfl⟩

/-- Settles O49. TEND puts the count of 0 in REM, and REM = 0 decides what DEND and PUSHB do. -/
theorem countZeroArtifact : Obligations.CountZeroArtifact := by
  constructor
  case left =>
    intro s hp hh ht hn
    exact ⟨_, exec_tend hp hh ht, rfl, hn, exec_dend rfl hn, rfl, exec_pushb_extra rfl hn⟩
  case right =>
    intro s t hs h ht
    obtain ⟨hn, hkept⟩ := nsym_of_exec_build h hs ht
    exact ⟨hn, hkept ▸ hn⟩

end Sys2Proof.Machine
end

section
/-!
# Job control (spec 45_job_control R165, R166, R168)

Settles O14 to O16. A command that does not end in FAULT was legal, and the command alone tells in which phase it ends
(`phase_of_exec`); which commands lead to IDLE, and which are legal in DONE, can then be read off the command table.
-/

namespace Sys2Proof.Machine

/-! ## The phase a command ends in -/

/-- The phase a command leaves when it does not fault (R72, and the rule of each command); IOFAIL's effect is its
fault (R166). -/
def phaseAfter : Instr → Phase
  | .clear => .idle
  | .iofail => .fault
  | .estart | .count _ => .eCount
  | .build | .enc _ => .eEncode
  | .dstart | .loadt _ => .dTree
  | .tend | .pushb _ => .dBits
  | .finish | .dend => .done

theorem phaseAfter_ne_idle {i : Instr} (hi : i ≠ .clear) : phaseAfter i ≠ .idle := by
  cases i with
  | clear => exact absurd rfl hi
  | _ => nofun

/-- R72: in DONE, CLEAR and IOFAIL alone are legal. -/
theorem eq_iofail_of_legalIn_done {i : Instr} (hi : i ≠ .clear) (hl : legalIn i .done = true) : i = .iofail := by
  cases i with
  | clear => exact absurd rfl hi
  | iofail => rfl
  | _ => cases hl

/-- PUSHB's loop stays in its phase, unless the walk falls off the tree (R155). -/
theorem walkBits_phase (xs : Bits) (s : State) :
    (walkBits xs s).phase = .fault ∨ (walkBits xs s).phase = s.phase := by
  obtain ⟨_, _, _, hrun | hrun⟩ := walkBits_frame xs s
  · exact .inr (by rw [hrun])
  · exact .inl (by rw [hrun, raise_phase])

/-- A command ends in FAULT, or it was legal and ends in its own phase. -/
theorem phase_of_exec {i : Instr} {s t : State} (h : exec i s = .next t) :
    t.phase = .fault ∨ legalIn i s.phase = true ∧ t.phase = phaseAfter i := by
  cases i with
  | clear => cases h; exact .inr ⟨rfl, rfl⟩
  | iofail => rcases execIofail_cases h with ⟨hf, rfl⟩ | ⟨-, rfl⟩ <;> simp [*]
  | estart =>
    rcases execEstart_cases h with ⟨hf, rfl⟩ | ⟨-, -, rfl⟩ | ⟨hp, rfl⟩ <;> simp [legalIn, phaseAfter, *]
  | count b =>
    rcases execCount_cases h with ⟨hf, rfl⟩ | ⟨-, -, rfl⟩ | ⟨-, -, rfl⟩ | ⟨hp, -, rfl⟩ <;>
      simp [legalIn, phaseAfter, *]
  | build =>
    rcases execBuild_cases h with ⟨hf, rfl⟩ | ⟨-, -, rfl⟩ | ⟨-, -, rfl⟩ | ⟨-, -, rfl⟩ |
      ⟨hp, -, _, _, -, -, -, rfl⟩ <;> simp [legalIn, phaseAfter, *]
  | enc b =>
    rcases execEnc_cases h with ⟨hf, rfl⟩ | ⟨-, -, rfl⟩ | ⟨-, -, rfl⟩ | ⟨-, -, -, rfl⟩ |
      ⟨hp, -, -, _, _, _, -, rfl, -⟩ <;> simp [legalIn, phaseAfter, *]
  | finish =>
    rcases execFinish_cases h with ⟨hf, rfl⟩ | ⟨-, -, rfl⟩ | ⟨-, -, rfl⟩ | ⟨hp, -, -, rfl⟩ | ⟨hp, -, -, rfl⟩ <;>
      simp [legalIn, phaseAfter, *]
  | dstart =>
    rcases execDstart_cases h with ⟨hf, rfl⟩ | ⟨-, -, rfl⟩ | ⟨hp, rfl⟩ <;> simp [legalIn, phaseAfter, *]
  | loadt b =>
    rcases execLoadt_cases h with ⟨hf, rfl⟩ | ⟨-, -, rfl⟩ | ⟨hp, -, rfl⟩ | ⟨-, -, -, rfl⟩ | ⟨hp, -, -, rfl⟩
    case inr.inr.inr.inr =>
      exact or_iff_not_imp_left.2 fun hf => ⟨decide_eq_true hp, (loadBits_phase_hcnt hf).1.trans hp⟩
    all_goals simp [legalIn, phaseAfter, *]
  | tend =>
    rcases execTend_cases h with ⟨hf, rfl⟩ | ⟨-, -, rfl⟩ | ⟨-, -, rfl⟩ | ⟨hp, -, -, rfl⟩ <;>
      simp [legalIn, phaseAfter, *]
  | pushb b =>
    rcases execPushb_cases h with ⟨hf, rfl⟩ | ⟨-, -, rfl⟩ | ⟨-, -, rfl⟩ | ⟨hp, -, rfl⟩
    case inr.inr.inr =>
      exact (walkBits_phase (bits8 b) s).imp id fun hw => ⟨decide_eq_true hp, hw.trans hp⟩
    all_goals simp [legalIn, phaseAfter, *]
  | dend =>
    rcases execDend_cases h with ⟨hf, rfl⟩ | ⟨-, -, rfl⟩ | ⟨-, -, rfl⟩ | ⟨hp, -, rfl⟩ <;>
      simp [legalIn, phaseAfter, *]

/-- R165: no command but CLEAR ends in IDLE. -/
theorem phase_ne_idle_of_exec {i : Instr} {s t : State} (hi : i ≠ .clear) (h : exec i s = .next t) :
    t.phase ≠ .idle := by
  rcases phase_of_exec h with hf | ⟨-, ht⟩
  · simp [hf]
  · exact ht ▸ phaseAfter_ne_idle hi

/-- R165: no command but CLEAR takes a job that is over back to work: from DONE it can only fault. -/
theorem phase_fault_of_exec_done {i : Instr} {s t : State} (hi : i ≠ .clear) (hp : s.phase = .done)
    (h : exec i s = .next t) : t.phase = .fault := by
  rcases phase_of_exec h with hf | ⟨hl, ht⟩
  · exact hf
  · rw [ht, eq_iofail_of_legalIn_done hi (hp ▸ hl), phaseAfter]

/-! ## CLEAR (R165) -/

/-- R44: in IDLE every element has its reset value, so CLEAR has nothing to change. -/
theorem Inv.clearBlock_of_idle {s : State} (h : Inv s) (hp : s.phase = .idle) : clearBlock s = s := by
  simpa only [phaseFacts, hp, atReset] using h.phases

/-- Settles O14. The registers follow from the reset values, the ways out of DONE and FAULT and into IDLE from the phase
each command ends in. -/
theorem clearRule : Obligations.ClearRule := by
  refine ⟨rfl, fun s => ⟨rfl, resetValues_clearBlock s, rfl, ?status, ?err, rfl, rfl, rfl, rfl, rfl, rfl,
    fun hinv => hinv.clearBlock_of_idle, fun _ hi hf => exec_fault hf hi,
    fun _ _ => phase_ne_idle_of_exec, ?jobOver⟩⟩
  case status => exact statusByte_of_resetValues (resetValues_clearBlock s)
  case err => exact errByte_of_resetValues (resetValues_clearBlock s)
  case jobOver =>
    rintro i t hi (hd | hf) h
    · exact .inr (phase_fault_of_exec_done hi hd h)
    · rw [exec_fault hf hi] at h
      cases h
      exact .inr hf

/-! ## IOFAIL (R166) -/

/-- R37: in FAULT, STATUS shows the phase and FAULTED; TREE_OK reads as any value (R39), so bit 5 is left out. -/
theorem statusByte_fault {s : State} (hp : s.phase = .fault) : statusByte s &&& 0x1F = 0x16 := by
  cases ht : shownTreeOk s <;> simp [statusByte, faultedFlag, doneFlag, phaseCode, hp, ht]

theorem exec_iofail {s : State} (hp : s.phase ≠ .fault) : exec .iofail s = .next (raise .ioError s) :=
  unlessFault_run _ hp

/-- Settles O15. Outside FAULT the one effect is fault entry, and the registers show the fault entered. -/
theorem iofailRule : Obligations.IofailRule := by
  refine ⟨rfl, fun s => ⟨exec_iofail, fun hf => exec_fault hf nofun, fun t hp h => ?_⟩⟩
  rw [exec_iofail hp] at h
  cases h
  exact ⟨rfl, statusByte_fault rfl, by simp [errByte, errOf], rfl⟩

/-! ## FAULT (R168) -/

/-- Settles O16, by the rules for a command and for a word in FAULT. -/
theorem faultDiscardsWords : Obligations.FaultDiscardsWords := fun _ hf =>
  ⟨fun _ => exec_fault hf, fun _ => runWord_fault hf⟩

end Sys2Proof.Machine
end

section
/-!
# The fault table (spec 60_exceptions R176, R177)

Settles O18. That no two faults share a code is a fact about the whole column of codes, so it is stated of the list of
all faults.
-/

namespace Sys2Proof.Machine

/-- The rows of R177's table. -/
def faultTable : List Cause :=
  [.ioError, .empty, .lengthOverflow, .emptyCode, .noCode, .extraSymbol, .missingSymbols, .treeRootLeaf,
    .treeTooManyInternal, .treeDupLeaf, .treeTrailing, .treeTruncated, .bitsExtra, .bitsTruncated, .walkOffTree,
    .illegalOpcode, .wrongPhase]

theorem mem_faultTable (c : Cause) : c ∈ faultTable := by cases c <;> decide

/-- R177: the codes of the table are distinct. -/
theorem nodup_map_errOf_faultTable : (faultTable.map errOf).Nodup := by decide

theorem errOf_injective : Function.Injective errOf := fun c d =>
  List.inj_on_of_nodup_map nodup_map_errOf_faultTable (mem_faultTable c) (mem_faultTable d)

/-- R176: KIND 0 is no fault's. -/
theorem errOf_kind_ne_zero (c : Cause) : (errOf c).kind ≠ 0 := by cases c <;> decide

/-- R22: KIND is 0 exactly outside FAULT. -/
theorem Inv.kind_eq_zero_iff {s : State} (h : Inv s) : s.err.kind = 0 ↔ s.phase ≠ .fault :=
  (not_iff_comm.1 h.errKind).symm

/-- Settles O18. The seventeen codes are those `errOf` writes down. -/
theorem faultCodes : Obligations.FaultCodes := by
  refine ⟨rfl, rfl, rfl, rfl, rfl, rfl, rfl, rfl, rfl, rfl, rfl, rfl, rfl, rfl, rfl, rfl, rfl, ?kinds, ?inv, ?distinct⟩
  case kinds => exact fun c => ⟨errOf_kind_ne_zero c, errOf_kind_ne_six_seven c⟩
  case inv => exact fun s h => ⟨h.kind_eq_zero_iff, h.kind_ne_six_seven⟩
  case distinct => exact fun c d h => errOf_injective h

end Sys2Proof.Machine
end

section
/-!
# Decode and encode agree, and so does the command table (spec 30_encoding R70 to R72, R76)

Settles O1, O2 and O5. With `eq_encode_of_decode` the decoder is the inverse of the encoder on the legal words, so that
a row of the table can be compared with the command it selects by their opcodes alone.
-/

namespace Sys2Proof

/-! ## The decoder as the inverse of the encoder (R76) -/

/-- R72, R76: the word of a command decodes to it. -/
theorem decode_encode (i : Instr) : decode (encode i) = .ok i := by
  cases i <;> simp [encode, decode, formatZ, formatB]

/-- Settles O1: of the two inverse laws the third clause follows, since a word that decodes is a command's word. -/
theorem decodeOfEncode : Obligations.DecodeOfEncode := by
  refine ⟨decode_encode, fun _ _ => eq_encode_of_decode, fun w hw => ?_⟩
  cases hd : decode w with
  | ok i => exact absurd (eq_encode_of_decode hd) (hw i)
  | error e => exact ⟨e, rfl⟩

/-- R72: every format-Z opcode is a command's. -/
theorem exists_encode_of_mem_z : ∀ op ∈ opcodes .z, ∃ i, encode i = wordOf op 0 := by
  simp only [opcodes_z, List.forall_mem_cons]
  exact ⟨⟨.clear, rfl⟩, ⟨.iofail, rfl⟩, ⟨.estart, rfl⟩, ⟨.build, rfl⟩, ⟨.finish, rfl⟩, ⟨.dstart, rfl⟩, ⟨.tend, rfl⟩,
    ⟨.dend, rfl⟩, nofun⟩

/-- R72: every format-B opcode is a command's, with each argument. -/
theorem exists_encode_of_mem_b (a : Byte) : ∀ op ∈ opcodes .b, ∃ i, encode i = wordOf op a := by
  simp only [opcodes_b, List.forall_mem_cons]
  exact ⟨⟨.count a, rfl⟩, ⟨.enc a, rfl⟩, ⟨.loadt a, rfl⟩, ⟨.pushb a, rfl⟩, nofun⟩

/-- R74: a legal word is the word of a command. -/
theorem exists_encode_of_legal {w : CmdWord} (h : legalWord w = true) : ∃ i, w = encode i := by
  rcases legalWord_iff_fields.1 h with ⟨hop, harg⟩ | hop
  · obtain ⟨i, hi⟩ := exists_encode_of_mem_z _ hop
    exact ⟨i, by rw [hi, eq_wordOf_iff]; exact ⟨rfl, harg⟩⟩
  · obtain ⟨i, hi⟩ := exists_encode_of_mem_b (argField w) _ hop
    exact ⟨i, by rw [hi, wordOf_fields]⟩

/-! ## The rows of the table (R72) -/

/-- R72: a command and a row have the same mnemonic exactly when they have the same opcode. -/
theorem mnemonic_eq_iff_opcode (j : Instr) :
    ∀ r ∈ commandTable, j.mnemonic = r.mnemonic ↔ opField (encode j) = r.opcode := by
  cases j <;> simp only [encode, opField_wordOf, Instr.mnemonic] <;> decide

/-- R72: every command has a row. -/
theorem exists_row (i : Instr) : ∃ r ∈ commandTable, r.mnemonic = i.mnemonic := by
  cases i <;> simp [commandTable, Instr.mnemonic]

/-- R72: no two rows have one opcode. -/
theorem row_eq_of_opcode_eq : ∀ r ∈ commandTable, ∀ r' ∈ commandTable, r.opcode = r'.opcode → r = r' := by
  decide

/-- R72: rows that select one word are one row, because the word's opcode is that of both. -/
theorem row_eq_of_selects {r r' : Row} (hr : r ∈ commandTable) (hr' : r' ∈ commandTable) {w : CmdWord}
    (h : w &&& r.mask = r.matchBits) (h' : w &&& r'.mask = r'.matchBits) : r = r' :=
  row_eq_of_opcode_eq r hr r' hr' (((selects_iff hr w).1 h).1.symm.trans ((selects_iff hr' w).1 h').1)

/-- R72: a row selects the words of the commands of its mnemonic. -/
theorem selects_iff_decode {r : Row} (hr : r ∈ commandTable) (w : CmdWord) :
    w &&& r.mask = r.matchBits ↔ ∃ j, decode w = .ok j ∧ j.mnemonic = r.mnemonic := by
  constructor
  · intro hsel
    obtain ⟨j, rfl⟩ := exists_encode_of_legal (legalWord_iff_selected.2 ⟨r, hr, hsel⟩)
    exact ⟨j, decode_encode j, (mnemonic_eq_iff_opcode j r hr).2 ((selects_iff hr _).1 hsel).1⟩
  · rintro ⟨j, hj, hname⟩
    obtain rfl := eq_encode_of_decode hj
    obtain ⟨r', hr', hsel'⟩ := legalWord_iff_selected.1 (legalWord_encode j)
    have hop := (mnemonic_eq_iff_opcode j r hr).1 hname
    obtain rfl := row_eq_of_opcode_eq r hr r' hr' (hop.symm.trans ((selects_iff hr' _).1 hsel').1)
    exact hsel'

/-- Settles O2. -/
theorem commandTableSelects : Obligations.CommandTableSelects := by
  constructor
  case left =>
    intro i
    obtain ⟨r, hr, hname⟩ := exists_row i
    exact ⟨r, hr, hname, fun w => hname ▸ selects_iff_decode hr w⟩
  case right => exact fun r hr r' hr' w => row_eq_of_selects hr hr'

/-- Settles O5: each word is the one its command encodes to. -/
theorem decodesSpecWords : Obligations.DecodesSpecWords :=
  ⟨decode_encode .clear, decode_encode .iofail, decode_encode .estart, decode_encode (.count 0x41),
    decode_encode .build, decode_encode (.enc 0x41), decode_encode .finish, decode_encode .dstart,
    decode_encode (.loadt 0x28), decode_encode .tend, decode_encode (.pushb 0x9A), decode_encode .dend⟩

end Sys2Proof
end

section
/-!
# The counts of pass 1 (spec 40_frequency_counter R102, R103)

Settles O23 and O59. One entry of FREQ and the sum of the others make the sum R24 speaks of: no entry exceeds it, and
COUNT raises it by 1 with the entry.
-/

namespace Sys2Proof.Machine

/-- R24: the sum of all counts, with the count of `b` apart from the others. -/
theorem freqSum_eq (freq : Table Count) (b : Byte) :
    freqSum freq = (entry freq b).toNat + ((allBytes.erase b).map fun c => (entry freq c).toNat).sum :=
  ((List.perm_cons_erase (mem_allBytes b)).map fun c => (entry freq c).toNat).sum_eq

theorem entry_le_freqSum (freq : Table Count) (b : Byte) : (entry freq b).toNat ≤ freqSum freq := by
  rw [freqSum_eq freq b]
  exact Nat.le_add_right ..

/-- R102: COUNT raises the sum by 1, unless the entry wraps. -/
theorem freqSum_addCount {freq : Table Count} {b : Byte} (h : entry freq b ≠ maxCount) :
    freqSum (addCount freq b) = freqSum freq + 1 := by
  have hothers : ∀ c ∈ allBytes.erase b, (entry (addCount freq b) c).toNat = (entry freq c).toNat := by
    intro c hc
    rw [entry_addCount, if_neg ((nodup_allBytes.mem_erase_iff.1 hc).1)]
  rw [freqSum_eq _ b, freqSum_eq freq b, List.map_congr_left hothers, entry_addCount, if_pos rfl, count_succ h]
  omega

/-- R24: in E_COUNT, NSYM is the sum of all counts. -/
theorem Inv.nsym_eq_freqSum {s : State} (h : Inv s) (hp : s.phase = .eCount) : s.nsym.toNat = freqSum s.freq := by
  have hfacts := h.phases
  simp only [phaseFacts, hp] at hfacts
  exact hfacts.1

theorem Inv.entry_le_nsym {s : State} (h : Inv s) (hp : s.phase = .eCount) (b : Byte) :
    (entry s.freq b).toNat ≤ s.nsym.toNat := h.nsym_eq_freqSum hp ▸ entry_le_freqSum s.freq b

/-- R102: FREQ's addition does not wrap where NSYM's does not. -/
theorem Inv.entry_ne_maxCount {s : State} (h : Inv s) (hp : s.phase = .eCount) (hn : s.nsym ≠ maxCount) (b : Byte) :
    entry s.freq b ≠ maxCount := by
  intro hb
  have hle := h.entry_le_nsym hp b
  have hmax : maxCount.toNat = 2 ^ 64 - 1 := rfl
  have hlt := s.nsym.isLt
  rw [hb] at hle
  exact hn (BitVec.eq_of_toNat_eq (by omega))

/-- Settles O59. -/
theorem countAdditionsDoNotWrap : Obligations.CountAdditionsDoNotWrap := by
  intro b s t hinv hp hn h
  rw [exec_count hp hn] at h
  cases h
  refine ⟨hinv.entry_le_nsym hp b, count_succ hn, ?_⟩
  rw [entry_addCount, if_pos rfl, count_succ (hinv.entry_ne_maxCount hp hn b)]

/-- Settles O23, from the closed form of a run of COUNT commands. -/
theorem countingIsByMultiset : Obligations.CountingIsByMultiset := by
  intro bs s hp hlen
  refine ⟨_, sendAll_counts hp bs hlen, ?nsym, entry_addCounts s.freq bs, rfl⟩
  case nsym =>
    rw [BitVec.toNat_add_of_lt, BitVec.toNat_ofNat, Nat.mod_eq_of_lt (by omega)]
    rw [BitVec.toNat_ofNat, Nat.mod_eq_of_lt (by omega)]
    exact hlen

end Sys2Proof.Machine
end

section
/-!
# The tree under construction (spec 10_state R30 to R33, 43_tree_loader R142, R143)

What the loader has finished is at each point the leaves and internal nodes of the stack or of the whole tree:
`Complete` adds the subtree it is given and moves nothing else. From this every tree bit keeps `LoaderOk`, and a tree
that completes is loadable.
-/

namespace Sys2Proof.Machine

/-! ## What is finished -/

/-- The values of the finished leaves. -/
def doneLeaves (s : State) : List Byte := stackLeaves s.pstk ++ if s.treeOk then leaves s.tree else []

/-- The number of internal nodes, open or finished. -/
def doneInternals (s : State) : Nat := stackInternals s.pstk + if s.treeOk then internals s.tree else 0

theorem loaderFacts_iff {s : State} : loaderFacts s ↔ (doneLeaves s).Nodup ∧
    (∀ b, entry s.seen b = true ↔ b ∈ doneLeaves s) ∧ s.nint = doneInternals s ∧
    ∀ p, s.pleaf = some p → s.pstk ≠ [] ∧ p.k ≤ 7 ∧ p.v.toNat < 2 ^ p.k := Iff.rfl

/-- Every open node is an internal node. -/
theorem length_le_stackInternals (st : List Frame) : st.length ≤ stackInternals st := by
  induction st with
  | nil => simp
  | cons f st ih => cases f <;> simp only [stackInternals, List.length_cons] <;> omega

/-- R143: `Complete` adds the leaves and the internal nodes of its subtree to what is finished. -/
theorem completeTree_adds {t : Tree} {s : State} (h : s.treeOk = false) :
    doneLeaves (completeTree t s) = doneLeaves s ++ leaves t ∧
      doneInternals (completeTree t s) = doneInternals s + internals t := by
  generalize hst : s.pstk = st
  induction st generalizing t s with
  | nil =>
    rw [completeTree_root (ls := []) t hst]
    simp [doneLeaves, doneInternals, closeNodes, stackLeaves, stackInternals, h, hst]
  | cons f st ih =>
    cases f with
    | needLeft =>
      rw [completeTree_left hst]
      constructor
      · simp [doneLeaves, stackLeaves, h, hst]
      · simp only [doneInternals, stackInternals, h, hst]; omega
    | needRight l =>
      rw [completeTree_right hst]
      obtain ⟨hl, hi⟩ := ih (t := .node l t) (s := { s with pstk := st }) h rfl
      rw [hl, hi]
      constructor
      · simp [doneLeaves, stackLeaves, leaves, h, hst]
      · simp only [doneInternals, stackInternals, internals, h, hst]; omega

/-- R142, R143: the state the last bit of the leaf `v` leaves. -/
def finishLeaf (v : Byte) (s : State) : State :=
  completeTree (.leaf v) { s with seen := setEntry s.seen v true, pleaf := none }

section
variable (v : Byte) {s : State} (h : s.treeOk = false)
include h

theorem doneLeaves_finishLeaf : doneLeaves (finishLeaf v s) = doneLeaves s ++ [v] :=
  (completeTree_adds (t := .leaf v) (s := { s with seen := setEntry s.seen v true, pleaf := none }) h).1

theorem doneInternals_finishLeaf : doneInternals (finishLeaf v s) = doneInternals s :=
  (completeTree_adds (t := .leaf v) (s := { s with seen := setEntry s.seen v true, pleaf := none }) h).2

/-- R143: a finished leaf is seen and no longer open; the stack changes and, when it runs empty, TREE and TREE_OK. -/
theorem finishLeaf_frame : ∃ st u ok, finishLeaf v s =
    { s with seen := setEntry s.seen v true, pleaf := none, pstk := st, tree := u, treeOk := ok } ∧
      (ok = true → st = []) := by
  rcases completeTree_cases (.leaf v) { s with seen := setEntry s.seen v true, pleaf := none } with
    ⟨st, -, hrun, -⟩ | ⟨u, -, hrun, -⟩
  · exact ⟨st, s.tree, s.treeOk, hrun, by simp [h]⟩
  · exact ⟨[], u, true, hrun, fun _ => rfl⟩

end

/-! ## Every tree bit keeps it -/

/-- R30 to R33, R10: the tree under construction is consistent and within bounds; once it is complete it is loadable and
nothing is open. -/
structure LoaderOk (s : State) : Prop where
  facts : loaderFacts s
  bound : s.nint ≤ 255
  closed : s.treeOk = true → s.pstk = [] ∧ s.pleaf = none ∧ loadable s.tree

theorem isInternal_of_internals_pos {t : Tree} (h : 1 ≤ internals t) : isInternal t = true := by
  cases t with
  | leaf v => simp [internals] at h
  | node l r => rfl

/-- A complete tree has the leaves and the internal nodes that were counted, so it is loadable. -/
theorem loadable_of_loaderFacts {s : State} (h : loaderFacts s) (ht : s.treeOk = true) (hst : s.pstk = [])
    (hpos : 1 ≤ s.nint) (hmax : s.nint ≤ 255) : loadable s.tree := by
  obtain ⟨hnodup, -, hnint, -⟩ := loaderFacts_iff.1 h
  have hleaves : doneLeaves s = leaves s.tree := by simp [doneLeaves, hst, ht, stackLeaves]
  have hinternals : doneInternals s = internals s.tree := by simp [doneInternals, hst, ht, stackInternals]
  rw [hinternals] at hnint
  exact ⟨isInternal_of_internals_pos (hnint ▸ hpos), hleaves ▸ hnodup, hnint ▸ hmax⟩

/-- One more bit of a value below `2^k` makes a value below `2^(k+1)`. -/
theorem shiftIn_lt {v : Byte} {k : Nat} (h : v.toNat < 2 ^ k) (x : Bool) : (shiftIn v x).toNat < 2 ^ (k + 1) := by
  have hle : (shiftIn v x).toNat ≤ 2 * v.toNat + 1 := by
    rw [shiftIn_eq]
    cases x <;> simp <;> omega
  omega

namespace LoaderOk

variable {s : State} (h : LoaderOk s)
include h

/-- A leaf is open only inside an open node, so a node has been counted. -/
theorem one_le_nint (ht : s.treeOk = false) {p : PartialLeaf} (hp : s.pleaf = some p) : 1 ≤ s.nint := by
  obtain ⟨-, -, hnint, hleaf⟩ := loaderFacts_iff.1 h.facts
  obtain ⟨hst, -⟩ := hleaf p hp
  have hlen := length_le_stackInternals s.pstk
  have hpos := List.length_pos_iff.2 hst
  simp only [doneInternals, ht] at hnint
  omega

/-- R142: a value bit. -/
theorem valueBit (ht : s.treeOk = false) {p : PartialLeaf} (hp : s.pleaf = some p) (hk : p.k + 1 < 8) (x : Bool) :
    LoaderOk { s with pleaf := some ⟨p.k + 1, shiftIn p.v x⟩ } := by
  obtain ⟨hnodup, hseen, hnint, hleaf⟩ := loaderFacts_iff.1 h.facts
  obtain ⟨hst, -, hv⟩ := hleaf p hp
  refine ⟨⟨hnodup, hseen, hnint, ?_⟩, h.bound, fun hok => absurd hok (by simp [ht])⟩
  rintro q ⟨⟩
  exact ⟨hst, by simp; omega, shiftIn_lt hv x⟩

/-- R142, R143: the last value bit of a leaf not seen before. -/
theorem lastBit (ht : s.treeOk = false) {p : PartialLeaf} (hp : s.pleaf = some p) {v : Byte}
    (hv : entry s.seen v = false) : LoaderOk (finishLeaf v s) := by
  obtain ⟨hnodup, hseen, hnint, -⟩ := loaderFacts_iff.1 h.facts
  have hnew : v ∉ doneLeaves s := fun hmem => by simp [(hseen v).2 hmem] at hv
  have hleaves := doneLeaves_finishLeaf v ht
  have hinternals := doneInternals_finishLeaf v ht
  have hpos := h.one_le_nint ht hp
  obtain ⟨st, t, ok, hrun, hok⟩ := finishLeaf_frame v ht
  rw [hrun] at hleaves hinternals ⊢
  have hfacts : loaderFacts
      { s with seen := setEntry s.seen v true, pleaf := none, pstk := st, tree := t, treeOk := ok } := by
    refine loaderFacts_iff.2 ⟨?nodup, fun b => ?seen, hnint.trans hinternals.symm, nofun⟩
    case nodup =>
      rw [hleaves]
      exact hnodup.append (List.nodup_singleton v) (by simpa using hnew)
    case seen =>
      rw [hleaves, entry_setEntry]
      by_cases hb : b = v <;> simp [hb, hseen]
  exact ⟨hfacts, h.bound, fun hdone =>
    ⟨hok hdone, rfl, loadable_of_loaderFacts hfacts hdone (hok hdone) hpos h.bound⟩⟩

/-- R142: a leaf tag. -/
theorem leafTag (ht : s.treeOk = false) (hst : s.pstk ≠ []) : LoaderOk { s with pleaf := some ⟨0, 0⟩ } := by
  obtain ⟨hnodup, hseen, hnint, -⟩ := loaderFacts_iff.1 h.facts
  refine ⟨⟨hnodup, hseen, hnint, ?_⟩, h.bound, fun hok => absurd hok (by simp [ht])⟩
  rintro p ⟨⟩
  exact ⟨hst, by simp⟩

/-- R142: an internal tag. -/
theorem nodeTag (ht : s.treeOk = false) (hp : s.pleaf = none) (hn : s.nint ≠ 255) :
    LoaderOk { s with nint := s.nint + 1, pstk := .needLeft :: s.pstk } := by
  obtain ⟨hnodup, hseen, hnint, -⟩ := loaderFacts_iff.1 h.facts
  have hbound := h.bound
  refine ⟨loaderFacts_iff.2 ⟨hnodup, hseen, ?_, fun p hsome => absurd hsome (by simp [hp])⟩, by simp; omega,
    fun hok => absurd hok (by simp [ht])⟩
  simp only [doneInternals, stackInternals] at hnint ⊢
  omega

/-- Every tree bit that does not fault keeps it (R142). -/
theorem of_treeBit {x : Bool} {u : State} (ht : s.treeOk = false) (hb : treeBit x s = .ok u) : LoaderOk u := by
  rcases treeBit_cases x s with ⟨p, hp, hk, e⟩ | ⟨-, -, -, -, e⟩ | ⟨p, hp, -, hv, e⟩ | ⟨-, -, -, e⟩ |
    ⟨-, -, hst, e⟩ | ⟨-, -, -, e⟩ | ⟨hp, -, hn, e⟩ <;> rw [e] at hb <;> cases hb
  · exact h.valueBit ht hp hk x
  · exact h.lastBit ht hp hv
  · exact h.leafTag ht hst
  · exact h.nodeTag ht hp hn

/-- And so does LOADT's loop (R141). -/
theorem of_loadBits {xs : Bits} (hf : (loadBits xs s).phase ≠ .fault) : LoaderOk (loadBits xs s) := by
  rcases loadBits_induct (P := LoaderOk) (Q := fun u => u.phase = .fault) xs s h
    (fun _ _ _ hv ht hb => hv.of_treeBit ht hb) (fun _ _ _ _ _ _ => rfl) with hok | hfault
  · exact hok
  · exact absurd hfault hf

end LoaderOk

/-- Before the first tree bit nothing is finished. -/
theorem atTreeStart.loaderOk {s : State} (h : atTreeStart s) : LoaderOk s := by
  obtain ⟨ht, hst, hp, hn, hseen⟩ := h
  refine ⟨loaderFacts_iff.2 ⟨?_, ?_, ?_, by simp [hp]⟩, by omega, by simp [ht]⟩ <;>
    simp [doneLeaves, doneInternals, stackLeaves, stackInternals, *]

end Sys2Proof.Machine
end

section
/-!
# The invariant (spec 10_state R22 to R34, R44)

Settles O52, O53 and O54. The invariant speaks of the block, and of the host's side only in `taken`; so events of the
host keep it, and fault entry leaves little to show. What remains is one lemma for each effect of a command.
-/

namespace Sys2Proof.Machine

/-! ## The host's side, fault entry and reset -/

/-- The two states differ in the host's side of the ports at most (R42). -/
def sameBlock (s t : State) : Prop :=
  t = { s with
    port := t.port, index := t.index, out := t.out, held := t.held, reads := t.reads, before := t.before,
    freeCount := t.freeCount }

theorem atReset_of_sameBlock {s t : State} (hb : sameBlock s t) (h : atReset s) : atReset t := by
  have ht := congrArg (fun u : State => { u with
    port := t.port, index := t.index, out := t.out, held := t.held, reads := t.reads, before := t.before,
    freeCount := t.freeCount }) h
  rw [hb]
  exact ht

theorem phaseFacts_of_sameBlock {s t : State} (hb : sameBlock s t) (h : phaseFacts s) : phaseFacts t := by
  cases hp : s.phase with
  | idle =>
    have hp' : t.phase = .idle := by rw [hb, hp]
    simp only [phaseFacts, hp, hp'] at h ⊢
    exact atReset_of_sameBlock hb h
  | fault =>
    rw [hb]
    simp only [phaseFacts, hp]
  | _ =>
    rw [hb]
    simp only [phaseFacts, hp] at h ⊢
    exact h

/-- R42: the invariant is one of the block; of the host's side it says that no more was taken than was emitted. -/
theorem Inv.of_sameBlock {s t : State} (h : Inv s) (hb : sameBlock s t)
    (htaken : ∀ n, t.held = some n → n ≤ t.out.length) : Inv t := by
  have hphases := phaseFacts_of_sameBlock hb h.phases
  rw [hb] at hphases htaken ⊢
  exact { h with phases := hphases, taken := htaken }

/-- R185: fault entry keeps it. -/
theorem Inv.raise {s : State} (h : Inv s) (c : Cause) : Inv (raise c s) where
  errKind := by simpa using errOf_kind_ne_zero c
  errCause := .inr ⟨c, rfl⟩
  phases := trivial
  wholeTree := fun hf => absurd rfl hf
  accEmpty := fun hf => absurd rfl hf
  freqZero := nofun
  codes := nofun
  loader := nofun
  header := nofun
  walker := nofun
  atRoot := nofun
  taken := h.taken

/-- Settles O52. -/
theorem invariantAtReset : Obligations.InvariantAtReset where
  errKind := by decide
  errCause := .inl rfl
  phases := rfl
  wholeTree := nofun
  accEmpty := fun _ _ => rfl
  freqZero := nofun
  codes := nofun
  loader := nofun
  header := nofun
  walker := nofun
  atRoot := nofun
  taken := nofun

theorem Inv.clearBlock {s : State} (h : Inv s) : Inv (clearBlock s) :=
  invariantAtReset.of_sameBlock rfl h.taken

theorem Inv.length_takenOut {s : State} (h : Inv s) : ∀ n, s.held = some n → n ≤ (takenOut s).length := by
  intro n hn
  simp [takenOut, hn, h.taken n hn]

theorem Inv.hardReset {s : State} (h : Inv s) : Inv (hardReset s) :=
  invariantAtReset.of_sameBlock rfl h.length_takenOut

/-- Every event of the host keeps it. -/
theorem Inv.hostDoes {s : State} (h : Inv s) (e : HostEvent) : Inv (hostDoes e s) := by
  cases e with
  | word w => exact h
  | read r => exact h.of_sameBlock rfl h.taken
  | reset l => exact h.hardReset
  | stopTaking =>
    show Inv (stopTaking s)
    unfold stopTaking
    split
    · exact h.of_sameBlock rfl (by simp)
    · exact h
  | takeOne =>
    show Inv (takeOne s)
    unfold takeOne
    split
    · exact h
    · split
      · exact h.of_sameBlock rfl (by simp; omega)
      · exact h
  | takeAll => exact h.of_sameBlock rfl nofun

/-! ## The effects of the commands -/

theorem inv_reset_eCount : Inv { State.reset with phase := .eCount } :=
  { invariantAtReset with
    errKind := by decide
    phases := ⟨(freqSum_eq_zero fun b => by simp [State.reset]).symm, rfl, rfl, rfl, rfl, rfl, rfl, rfl, rfl, rfl⟩
    wholeTree := nofun
    accEmpty := fun _ _ => rfl
    freqZero := nofun
    codes := nofun
    loader := nofun
    header := nofun
    walker := nofun
    atRoot := nofun }

theorem inv_reset_dTree : Inv { State.reset with phase := .dTree } :=
  { invariantAtReset with
    errKind := by decide
    phases := ⟨by simp [State.reset], by decide, fun _ => ⟨rfl, rfl, rfl, rfl⟩, le_rfl, by decide, nofun⟩
    wholeTree := nofun
    accEmpty := fun _ _ => rfl
    freqZero := fun _ => by simp [State.reset]
    codes := nofun
    loader := fun _ => (atTreeStart_of_resetValues resetValues_reset).loaderOk.facts
    header := fun _ => by decide
    walker := nofun
    atRoot := nofun }

/-- R110: of a tree BUILD makes, the code table is that of the tree. -/
theorem codesOf_deriveCodes {t : Tree} {code : Table (Option Bits)} (hi : isInternal t = true)
    (hmax : internals t ≤ 255) (hc : deriveCodes t [] noCodes = some code) : codesOf t code := by
  obtain ⟨code', hc', hpath, hleaves⟩ := deriveCodes_root hi
  obtain rfl : code = code' := Option.some.inj (hc.symm.trans hc')
  exact ⟨fun b p hp => ⟨hpath b p hp, List.length_pos_iff.2 (path_ne_nil hi (hpath b p hp)),
    (length_path_le (hpath b p hp)).trans hmax⟩, hleaves⟩

/-- Taking off no more than there is does not wrap (R25). -/
theorem count_sub_ofNat {n : Count} {k : Nat} (h : k ≤ n.toNat) : (n - BitVec.ofNat 64 k).toNat = n.toNat - k := by
  have hlt := n.isLt
  rw [BitVec.toNat_sub_of_le] <;> simp [BitVec.le_def, Nat.mod_eq_of_lt (h.trans_lt hlt), h]

theorem sameBlock_reset_phase {s : State} (h : clearBlock s = s) (p : Phase) :
    sameBlock { State.reset with phase := p } { s with phase := p } := by
  have hp := congrArg (fun u : State => { u with phase := p }) h.symm
  exact hp

namespace Inv

variable {s : State} (h : Inv s)
include h

/-- R101. -/
theorem estart (hp : s.phase = .idle) : Inv { s with phase := .eCount } :=
  inv_reset_eCount.of_sameBlock (sameBlock_reset_phase (h.clearBlock_of_idle hp) .eCount) h.taken

/-- R140. -/
theorem dstart (hp : s.phase = .idle) : Inv { s with phase := .dTree } :=
  inv_reset_dTree.of_sameBlock (sameBlock_reset_phase (h.clearBlock_of_idle hp) .dTree) h.taken

/-- R102. -/
theorem count (hp : s.phase = .eCount) (hn : s.nsym ≠ maxCount) (b : Byte) :
    Inv { s with freq := addCount s.freq b, nsym := s.nsym + 1 } := by
  have hfacts := h.phases
  simp only [phaseFacts, hp] at hfacts
  obtain ⟨hsum, hrest⟩ := hfacts
  have hsum' : (s.nsym + 1).toNat = freqSum (addCount s.freq b) := by
    rw [count_succ hn, freqSum_addCount (h.entry_ne_maxCount hp hn b), hsum]
  refine { h with
    phases := by simp only [phaseFacts, hp]; exact ⟨hsum', hrest⟩
    freqZero := by simp [hp]
    header := by simp [hp] }

/-- The bytes a command emits are behind those the host has taken. -/
theorem taken_append (ts : List Transfer) : ∀ n, s.held = some n → n ≤ (s.out ++ ts).length := fun n hn =>
  (h.taken n hn).trans (by simp)

/-- R110. -/
theorem build (hp : s.phase = .eCount) (hn : s.nsym ≠ 0) {t : Tree} {code : Table (Option Bits)}
    (ht : buildTree s.freq = some t) (hc : deriveCodes t [] noCodes = some code) (ts : List Transfer) :
    Inv { s with
      out := s.out ++ ts, tree := t, code := code, treeOk := true, rem := s.nsym, phase := .eEncode } := by
  have hfacts := h.phases
  simp only [phaseFacts, hp] at hfacts
  obtain ⟨hsum, -, hacc, -⟩ := hfacts
  obtain ⟨t', ht', hi, hnodup, hmem, hmax⟩ := buildTree_spec (h.exists_counted hp hn)
  obtain rfl : t = t' := Option.some.inj (ht.symm.trans ht')
  have hcodes := codesOf_deriveCodes hi hmax hc
  exact { h with
    errKind := by simpa [hp] using h.errKind
    phases := ⟨count_pos hn, hsum, rfl, fun b hb => (hcodes.2 b).2 (hmem b hb), le_rfl, by simp [hacc]⟩
    wholeTree := fun _ _ => ⟨hi, hnodup, hmax⟩
    accEmpty := fun _ hne => absurd rfl hne
    freqZero := nofun
    codes := fun _ => hcodes
    loader := nofun
    header := nofun
    walker := nofun
    atRoot := nofun
    taken := h.taken_append ts }

/-- R130. -/
theorem enc (hp : s.phase = .eEncode) (hr : s.rem ≠ 0) {acc : Bits} (hacc : s.acc.length ≤ 7 → acc.length ≤ 7)
    (ts : List Transfer) : Inv { s with acc := acc, rem := s.rem - 1, out := s.out ++ ts } := by
  have hfacts := h.phases
  simp only [phaseFacts, hp] at hfacts
  obtain ⟨hpos, hsum, hok, hcoded, hle, hlen⟩ := hfacts
  have hle' : (s.rem - 1).toNat ≤ s.nsym.toNat := by
    rw [count_pred hr]
    omega
  exact { h with
    phases := by simp only [phaseFacts, hp]; exact ⟨hpos, hsum, hok, hcoded, hle', hacc hlen⟩
    accEmpty := fun _ hne => absurd hp hne
    atRoot := by simp [hp]
    taken := h.taken_append ts }

/-- R131, R156: a job ends with its tree kept, no symbol left and no bit pending. -/
theorem finish (hp : s.phase = .eEncode ∨ s.phase = .dBits) (hr : s.rem = 0) (ts : List Transfer) :
    Inv { s with phase := .done, acc := [], out := s.out ++ ts } := by
  have hf : s.phase ≠ .fault := by rintro he; simp [he] at hp
  have hok : s.treeOk = true := by
    have hfacts := h.phases
    rcases hp with hp | hp <;> simp only [phaseFacts, hp] at hfacts
    · obtain ⟨-, -, hok, -⟩ := hfacts
      exact hok
    · obtain ⟨hok, -⟩ := hfacts
      exact hok
  exact { h with
    errKind := by simpa [hf] using h.errKind
    phases := ⟨hr, rfl, hok⟩
    wholeTree := fun _ => h.wholeTree hf
    accEmpty := fun _ _ => rfl
    freqZero := nofun
    codes := nofun
    loader := nofun
    header := nofun
    walker := nofun
    atRoot := nofun
    taken := h.taken_append ts }

/-- R141: a byte of the header. -/
theorem loadtHeader (hp : s.phase = .dTree) (hh : s.hcnt < 8) (b : Byte) :
    Inv { s with nsym := appendByte s.nsym b, hcnt := s.hcnt + 1 } := by
  have hfacts := h.phases
  simp only [phaseFacts, hp] at hfacts
  obtain ⟨hzero, -, hstart, hrest⟩ := hfacts
  have hlt : (appendByte s.nsym b).toNat < 2 ^ (8 * (s.hcnt + 1)) := by
    have hb := b.isLt
    have hn := h.header hp
    rw [appendByte_toNat hn hh, Nat.mul_add, Nat.pow_add]
    omega
  exact { h with
    phases := by simp only [phaseFacts, hp]; exact ⟨hzero, hh, fun _ => hstart hh, hrest⟩
    header := fun _ => hlt }

/-- R30 to R33: in D_TREE the tree under construction is consistent. -/
theorem loaderOk (hp : s.phase = .dTree) : LoaderOk s := by
  have hfacts := h.phases
  simp only [phaseFacts, hp] at hfacts
  obtain ⟨-, -, -, -, hmax, hdone⟩ := hfacts
  exact ⟨h.loader hp, hmax, fun hok => ⟨(hdone hok).1, (hdone hok).2, h.wholeTree (by simp [hp]) hok⟩⟩

/-- R141, R142: a tree bit that does not fault. -/
theorem treeBit (hp : s.phase = .dTree) (hh : 8 ≤ s.hcnt) (ht : s.treeOk = false) {x : Bool} {u : State}
    (hb : treeBit x s = .ok u) : Inv u := by
  have hfacts := h.phases
  simp only [phaseFacts, hp] at hfacts
  obtain ⟨hzero, hle, -⟩ := hfacts
  have hu := (h.loaderOk hp).of_treeBit ht hb
  obtain ⟨-, -, hnint, -⟩ := loaderFacts_iff.1 hu.facts
  have hstack : u.pstk.length ≤ u.nint :=
    (length_le_stackInternals u.pstk).trans (hnint ▸ Nat.le_add_right ..)
  have hframe := treeBit_frame hb
  have hpu : u.phase = .dTree := (treeBit_phase hb).trans hp
  have hdone : u.treeOk = true → u.pstk = [] ∧ u.pleaf = none := fun hok =>
    ⟨(hu.closed hok).1, (hu.closed hok).2.1⟩
  have hwhole : u.treeOk = true → loadable u.tree := fun hok => (hu.closed hok).2.2
  have hloader := hu.facts
  have hmax := hu.bound
  rw [hframe] at hstack hdone hwhole hmax hloader ⊢
  exact { h with
    phases := by
      simp only [phaseFacts, hp]
      exact ⟨hzero, hle, fun hlt => absurd hlt (by simp; omega), hstack, hmax, hdone⟩
    wholeTree := fun _ => hwhole
    codes := by simp [hp]
    loader := fun _ => hloader
    walker := by simp [hp]
    atRoot := by simp [hp] }

/-- R141: LOADT's loop over the bits of a byte, fault or not. -/
theorem loadBits (hp : s.phase = .dTree) (hh : 8 ≤ s.hcnt) (xs : Bits) : Inv (loadBits xs s) := by
  have hbit : ∀ x (u v : State), (Inv u ∧ u.phase = .dTree ∧ 8 ≤ u.hcnt) → u.treeOk = false →
      Machine.treeBit x u = .ok v → Inv v ∧ v.phase = .dTree ∧ 8 ≤ v.hcnt := by
    rintro x u v ⟨hu, hpu, hhu⟩ ht hb
    have hhv : v.hcnt = u.hcnt := by rw [treeBit_frame hb]
    exact ⟨hu.treeBit hpu hhu ht hb, (treeBit_phase hb).trans hpu, hhv ▸ hhu⟩
  rcases loadBits_induct (Q := Inv) xs s ⟨h, hp, hh⟩ hbit fun _ _ c hu _ _ => hu.1.raise c with ⟨hrun, -⟩ | hrun
  · exact hrun
  · exact hrun

/-- R144. -/
theorem tend (hp : s.phase = .dTree) (hh : 8 ≤ s.hcnt) (ht : s.treeOk = true) :
    Inv { s with rem := s.nsym, pos := s.tree, phase := .dBits } := by
  have hfacts := h.phases
  simp only [phaseFacts, hp] at hfacts
  obtain ⟨hzero, hle, -⟩ := hfacts
  have hf : s.phase ≠ .fault := by simp [hp]
  have hwhole := h.wholeTree hf ht
  exact { h with
    errKind := by simpa [hp] using h.errKind
    phases := ⟨ht, Nat.le_antisymm hle hh, le_rfl, hwhole.1⟩
    wholeTree := fun _ _ => hwhole
    accEmpty := fun _ _ => h.accEmpty hf (by simp [hp])
    freqZero := fun _ => hzero
    codes := nofun
    loader := nofun
    header := nofun
    walker := fun _ => hasSubtree_self _
    atRoot := fun _ _ => rfl }

/-- R155: the walk starts inside an `Internal` tree. -/
theorem walkBits_spec (hp : s.phase = .dBits) (xs : Bits) :
    ∃ (bytes : List Byte) (pos' : Tree), walkBits xs s =
        { s with out := s.out ++ bytes.map (Transfer.mk .data), rem := s.rem - BitVec.ofNat 64 bytes.length,
                 pos := pos' } ∧
      isInternal pos' = true ∧ hasSubtree s.tree pos' = true ∧ bytes.length ≤ xs.length ∧
      bytes.length ≤ s.rem.toNat ∧ (bytes.length = s.rem.toNat → pos' = s.tree) := by
  have hfacts := h.phases
  simp only [phaseFacts, hp] at hfacts
  obtain ⟨hok, -, -, hpos⟩ := hfacts
  exact Machine.walkBits_spec xs s (h.wholeTree (by simp [hp]) hok).1 hpos (h.walker hp) (h.atRoot hp)

/-- R155. -/
theorem walkBits (hp : s.phase = .dBits) (xs : Bits) : Inv (walkBits xs s) := by
  have hfacts := h.phases
  simp only [phaseFacts, hp] at hfacts
  obtain ⟨hok, hh, hle, -⟩ := hfacts
  obtain ⟨bytes, pos', hrun, hi, hsub, -, hcount, hroot⟩ := h.walkBits_spec hp xs
  have hrem : (s.rem - BitVec.ofNat 64 bytes.length).toNat = s.rem.toNat - bytes.length :=
    count_sub_ofNat hcount
  rw [hrun]
  exact { h with
    phases := by
      simp only [phaseFacts, hp]
      exact ⟨hok, hh, by rw [hrem]; omega, hi⟩
    walker := fun _ => hsub
    atRoot := fun _ h0 => hroot (by have := congrArg BitVec.toNat h0; simp only [hrem] at this; simp at this; omega)
    taken := h.taken_append _ }

end Inv

/-- A command from a state of the invariant ends in one (R44). -/
theorem Inv.of_exec {i : Instr} {s t : State} (h : Inv s) (hrun : exec i s = .next t) : Inv t := by
  cases i with
  | clear => cases hrun; exact h.clearBlock
  | iofail =>
    rcases execIofail_cases hrun with ⟨-, rfl⟩ | ⟨-, rfl⟩
    · exact h
    · exact h.raise _
  | estart =>
    rcases execEstart_cases hrun with ⟨-, rfl⟩ | ⟨-, -, rfl⟩ | ⟨hp, rfl⟩
    · exact h
    · exact h.raise _
    · exact h.estart hp
  | count b =>
    rcases execCount_cases hrun with ⟨-, rfl⟩ | ⟨-, -, rfl⟩ | ⟨-, -, rfl⟩ | ⟨hp, hn, rfl⟩
    · exact h
    · exact h.raise _
    · exact h.raise _
    · exact h.count hp hn b
  | build =>
    rcases execBuild_cases hrun with ⟨-, rfl⟩ | ⟨-, -, rfl⟩ | ⟨-, -, rfl⟩ | ⟨-, -, rfl⟩ |
      ⟨hp, hn, t, code, ht, -, hc, rfl⟩
    · exact h
    · exact h.raise _
    · exact h.raise _
    · exact h.raise _
    · exact h.build hp hn ht hc _
  | enc b =>
    rcases execEnc_cases hrun with ⟨-, rfl⟩ | ⟨-, -, rfl⟩ | ⟨-, -, rfl⟩ | ⟨-, -, -, rfl⟩ |
      ⟨hp, hr, -, c, bytes, acc, -, rfl, -, hacc⟩
    · exact h
    · exact h.raise _
    · exact h.raise _
    · exact h.raise _
    · exact h.enc hp hr hacc _
  | finish =>
    rcases execFinish_cases hrun with ⟨-, rfl⟩ | ⟨-, -, rfl⟩ | ⟨-, -, rfl⟩ | ⟨hp, hr, hacc, rfl⟩ | ⟨hp, hr, -, rfl⟩
    · exact h
    · exact h.raise _
    · exact h.raise _
    · simpa [hacc] using h.finish (.inl hp) hr []
    · exact h.finish (.inl hp) hr _
  | dstart =>
    rcases execDstart_cases hrun with ⟨-, rfl⟩ | ⟨-, -, rfl⟩ | ⟨hp, rfl⟩
    · exact h
    · exact h.raise _
    · exact h.dstart hp
  | loadt b =>
    rcases execLoadt_cases hrun with ⟨-, rfl⟩ | ⟨-, -, rfl⟩ | ⟨hp, hh, rfl⟩ | ⟨-, -, -, rfl⟩ | ⟨hp, hh, -, rfl⟩
    · exact h
    · exact h.raise _
    · exact h.loadtHeader hp hh b
    · exact h.raise _
    · exact h.loadBits hp hh _
  | tend =>
    rcases execTend_cases hrun with ⟨-, rfl⟩ | ⟨-, -, rfl⟩ | ⟨-, -, rfl⟩ | ⟨hp, hh, ht, rfl⟩
    · exact h
    · exact h.raise _
    · exact h.raise _
    · exact h.tend hp hh ht
  | pushb b =>
    rcases execPushb_cases hrun with ⟨-, rfl⟩ | ⟨-, -, rfl⟩ | ⟨-, -, rfl⟩ | ⟨hp, -, rfl⟩
    · exact h
    · exact h.raise _
    · exact h.raise _
    · exact h.walkBits hp _
  | dend =>
    rcases execDend_cases hrun with ⟨-, rfl⟩ | ⟨-, -, rfl⟩ | ⟨-, -, rfl⟩ | ⟨hp, hr, rfl⟩
    · exact h
    · exact h.raise _
    · exact h.raise _
    · have hacc := h.accEmpty (by simp [hp]) (by simp [hp])
      simpa [hacc] using h.finish (.inr hp) hr []

/-! ## Every step -/

theorem Inv.acceptWord {s : State} (h : Inv s) (rest : List HostEvent) : Inv (acceptWord rest s) :=
  h.of_sameBlock rfl h.taken

theorem Inv.of_illegalWord {s t : State} (h : Inv s) (hrun : illegalWord s = .next t) : Inv t := by
  by_cases hp : s.phase = .fault
  · rw [illegalWord_fault hp] at hrun
    cases hrun
    exact h
  · rw [illegalWord_run hp] at hrun
    cases hrun
    exact h.raise _

theorem Inv.of_runWord {w : CmdWord} {s t : State} (h : Inv s) (hrun : runWord w s = .next t) : Inv t := by
  cases hd : decode w with
  | ok i => exact h.of_exec ((runWord_of_decode hd s).symm.trans hrun)
  | error e =>
    rw [runWord, hd] at hrun
    exact h.of_illegalWord hrun

/-- Settles O53: a step waits, runs a word or lets an event of the host happen. -/
theorem invariantKept : Obligations.InvariantKept := by
  intro s t h hstep
  rcases step_cases hstep with ⟨rfl, -⟩ | ⟨w, rest, -, -, hrun⟩ | ⟨ws, e, rest, -, -, -, rfl⟩
  · exact h
  · exact (h.acceptWord rest).of_runWord hrun
  · exact (h.of_sameBlock (t := { s with port := leftBehind ws e rest }) rfl h.taken).hostDoes e

/-! ## No step stops the model -/

theorem exists_unlessFault {s : State} {run : Result} (h : s.phase ≠ .fault → ∃ t, run = .next t) :
    ∃ t, unlessFault s run = .next t := by
  by_cases hf : s.phase = .fault
  · exact ⟨s, unlessFault_fault _ hf⟩
  · rw [unlessFault_run _ hf]
    exact h hf

/-- A command answers a next state if its body does in its own phase. -/
theorem exists_inPhase {p : Phase} {s : State} {run : Result} (h : s.phase = p → ∃ t, run = .next t) :
    ∃ t, inPhase p s run = .next t := by
  refine exists_unlessFault fun _ => ?_
  split
  · next hp => exact h hp
  · exact ⟨_, rfl⟩

/-- R111: the queue of BUILD is not empty. -/
theorem Inv.exists_buildBody {s : State} (h : Inv s) (hp : s.phase = .eCount) : ∃ t, buildBody s = .next t := by
  by_cases hn : s.nsym = 0
  · exact ⟨_, if_pos hn⟩
  · obtain ⟨_, _, -, -, -, hrun⟩ := buildBody_spec hn (h.exists_counted hp hn)
    exact ⟨_, hrun⟩

/-- R130: a counted byte has a code. -/
theorem Inv.exists_encodeByte {s : State} (h : Inv s) (hp : s.phase = .eEncode) (b : Byte) :
    ∃ t, encodeByte b s = .next t := by
  unfold encodeByte
  split
  · exact ⟨_, rfl⟩
  · split
    · exact ⟨_, rfl⟩
    · next hb =>
      obtain ⟨c, hc, -⟩ := h.exists_code hp hb
      rw [hc]
      exact ⟨_, rfl⟩

/-- From a state of the invariant every command answers a next state (R213). -/
theorem Inv.exists_exec {s : State} (h : Inv s) (i : Instr) : ∃ t, exec i s = .next t := by
  cases i with
  | clear => exact ⟨_, rfl⟩
  | iofail => exact exists_unlessFault fun _ => ⟨_, rfl⟩
  | build => exact exists_inPhase h.exists_buildBody
  | enc b => exact exists_inPhase fun hp => h.exists_encodeByte hp b
  | _ => exact exists_inPhase fun _ => ⟨_, rfl⟩

theorem Inv.exists_runWord {s : State} (h : Inv s) (w : CmdWord) : ∃ t, runWord w s = .next t := by
  cases hd : decode w with
  | ok i =>
    rw [runWord_of_decode hd]
    exact h.exists_exec i
  | error e =>
    rw [runWord, hd]
    exact exists_unlessFault fun _ => ⟨_, rfl⟩

/-- A word that waits for untaken bytes does not stop the model: the next event happens, or none is left. -/
theorem exists_stalled (w : CmdWord) (rest : List HostEvent) (s : State) : ∃ t, stalled w rest s = .next t := by
  unfold stalled
  split <;> exact ⟨_, rfl⟩

theorem Inv.exists_serve {s : State} (h : Inv s) (e : HostEvent) (rest : List HostEvent) :
    ∃ t, serve e rest s = .next t := by
  cases e with
  | word w =>
    by_cases ho : outputPending s = true
    · rw [serve, if_pos ho]
      exact exists_stalled w rest s
    · rw [serve, if_neg ho]
      exact (h.acceptWord rest).exists_runWord w
  | _ => exact ⟨_, rfl⟩

/-- Settles O54. -/
theorem noStepStops : Obligations.NoStepStops := by
  intro s h
  unfold step
  split
  · exact ⟨s, rfl⟩
  · exact h.exists_serve _ _

end Sys2Proof.Machine
end

section
/-!
# What a command may write, raise and emit (spec 10_state R21 to R34, 20_memory R52, R53, 60_exceptions R177)

Settles O19, O20 and O55 to O58. `CmdOutcome` says once how a command can end: discarded, in a fault its row of the
table gives it, or through, with the elements written that it has in its column. The frames, the faults and the output
of every command are read off it.
-/

namespace Sys2Proof.Machine

/-! ## How a command can end -/

/-- The elements a command other than CLEAR may write: every other one is in `u` as in `s` (R21 to R34). ERR is left to
fault entry. -/
def writes (i : Instr) (s u : State) : Prop :=
  match i with
  | .clear | .iofail => u = s
  | .estart | .dstart | .dend => u = { s with phase := u.phase }
  | .count _ => u = { s with freq := u.freq, nsym := u.nsym }
  | .build =>
    u = { s with
      tree := u.tree, treeOk := u.treeOk, code := u.code, rem := u.rem, phase := u.phase, out := u.out }
  | .enc _ => u = { s with acc := u.acc, rem := u.rem, out := u.out }
  | .finish => u = { s with acc := u.acc, phase := u.phase, out := u.out }
  | .loadt _ =>
    u = { s with
      nsym := u.nsym, hcnt := u.hcnt, pstk := u.pstk, pleaf := u.pleaf, nint := u.nint, seen := u.seen,
      tree := u.tree, treeOk := u.treeOk }
  | .tend => u = { s with rem := u.rem, pos := u.pos, phase := u.phase }
  | .pushb _ => u = { s with rem := u.rem, pos := u.pos, out := u.out }

theorem writes_refl (i : Instr) (s : State) : writes i s s := by
  cases i <;> rfl

/-- The channel a command emits on (R52, R58). -/
def emitsOn : Instr → Option Channel
  | .build => some .tree
  | .enc _ | .finish => some .bits
  | .pushb _ => some .data
  | _ => none

/-- The history grows by transfers on the command's channel (R53). -/
def emits (i : Instr) (s u : State) : Prop := ∃ ts, u.out = s.out ++ ts ∧ ∀ x ∈ ts, emitsOn i = some x.ch

theorem emits_of_out_eq {i : Instr} {s u : State} (h : u.out = s.out) : emits i s u := ⟨[], by simp [h]⟩

theorem emits_map {i : Instr} {s u : State} {ch : Channel} {bytes : List Byte} (hi : emitsOn i = some ch)
    (h : u.out = s.out ++ bytes.map (Transfer.mk ch)) : emits i s u :=
  ⟨_, h, by simp [hi]⟩

/-- LOADT and PUSHB work bit by bit, and keep what the bits before a faulting one have done (R141, R155). -/
def bitByBit : Instr → Bool
  | .loadt _ | .pushb _ => true
  | _ => false

/-- How a command other than CLEAR can end. -/
inductive CmdOutcome (i : Instr) (s : State) : State → Prop
  /-- In FAULT it is discarded (R168). -/
  | discarded (hp : s.phase = .fault) : CmdOutcome i s s
  /-- It faults (R177, R185). -/
  | faulted (c : Cause) (u : State) (hc : mayRaise i c = true) (hw : writes i s u) (he : emits i s u)
      (hu : bitByBit i = false → u = s) : CmdOutcome i s (raise c u)
  /-- It goes through. -/
  | through (t : State) (hp : t.phase ≠ .fault) (hw : writes i s t) (he : emits i s t) : CmdOutcome i s t

/-- A fault before anything is written. -/
theorem CmdOutcome.raised {i : Instr} {s : State} {c : Cause} (hc : mayRaise i c = true) : CmdOutcome i s (raise c s) :=
  .faulted c s hc (writes_refl i s) (emits_of_out_eq rfl) fun _ => rfl

theorem loadt_outcome {b : Byte} {s t : State} (h : execLoadt b s = .next t) : CmdOutcome (.loadt b) s t := by
  rcases execLoadt_cases h with ⟨hf, rfl⟩ | ⟨-, -, rfl⟩ | ⟨hp, -, rfl⟩ | ⟨-, -, -, rfl⟩ | ⟨hp, -, -, rfl⟩
  · exact .discarded hf
  · exact .raised rfl
  · exact .through _ (by simp [hp]) rfl (emits_of_out_eq rfl)
  · exact .raised rfl
  · obtain ⟨u, hu, hrun⟩ := loadBits_frame (bits8 b) s
    have hw : writes (.loadt b) s u := by
      simp only [writes]
      rw [hu]
    have hout : u.out = s.out := by rw [hu]
    rcases hrun with hrun | ⟨c, hrun, hc⟩
    · rw [hrun]
      exact .through u (by rw [hu]; simp [hp]) hw (emits_of_out_eq hout)
    · rw [hrun]
      exact .faulted c u (by rcases hc with rfl | rfl | rfl <;> rfl) hw (emits_of_out_eq hout) nofun

theorem pushb_outcome {b : Byte} {s t : State} (h : execPushb b s = .next t) : CmdOutcome (.pushb b) s t := by
  rcases execPushb_cases h with ⟨hf, rfl⟩ | ⟨-, -, rfl⟩ | ⟨-, -, rfl⟩ | ⟨hp, -, rfl⟩
  · exact .discarded hf
  · exact .raised rfl
  · exact .raised rfl
  · obtain ⟨bytes, rem', pos', hrun | hrun⟩ := walkBits_frame (bits8 b) s
    · rw [hrun]
      exact .through _ (by simp [hp]) rfl (emits_map rfl rfl)
    · rw [hrun]
      exact .faulted _ _ rfl rfl (emits_map rfl rfl) nofun

/-- Every command but CLEAR ends in one of these ways. -/
theorem exec_outcome {i : Instr} {s t : State} (hi : i ≠ .clear) (h : exec i s = .next t) : CmdOutcome i s t := by
  cases i with
  | clear => exact absurd rfl hi
  | iofail =>
    rcases execIofail_cases h with ⟨hf, rfl⟩ | ⟨-, rfl⟩
    · exact .discarded hf
    · exact .raised rfl
  | estart =>
    rcases execEstart_cases h with ⟨hf, rfl⟩ | ⟨-, -, rfl⟩ | ⟨-, rfl⟩
    · exact .discarded hf
    · exact .raised rfl
    · exact .through _ nofun rfl (emits_of_out_eq rfl)
  | count b =>
    rcases execCount_cases h with ⟨hf, rfl⟩ | ⟨-, -, rfl⟩ | ⟨-, -, rfl⟩ | ⟨hp, -, rfl⟩
    · exact .discarded hf
    · exact .raised rfl
    · exact .raised rfl
    · exact .through _ (by simp [hp]) rfl (emits_of_out_eq rfl)
  | build =>
    rcases execBuild_cases h with ⟨hf, rfl⟩ | ⟨-, -, rfl⟩ | ⟨-, -, rfl⟩ | ⟨-, -, rfl⟩ | ⟨-, -, _, _, -, -, -, rfl⟩
    · exact .discarded hf
    · exact .raised rfl
    · exact .raised rfl
    · exact .raised rfl
    · exact .through _ nofun rfl (emits_map rfl rfl)
  | enc b =>
    rcases execEnc_cases h with ⟨hf, rfl⟩ | ⟨-, -, rfl⟩ | ⟨-, -, rfl⟩ | ⟨-, -, -, rfl⟩ |
      ⟨hp, -, -, _, _, _, -, rfl, -⟩
    · exact .discarded hf
    · exact .raised rfl
    · exact .raised rfl
    · exact .raised rfl
    · exact .through _ (by simp [hp]) rfl (emits_map rfl rfl)
  | finish =>
    rcases execFinish_cases h with ⟨hf, rfl⟩ | ⟨-, -, rfl⟩ | ⟨-, -, rfl⟩ | ⟨-, -, -, rfl⟩ | ⟨-, -, -, rfl⟩
    · exact .discarded hf
    · exact .raised rfl
    · exact .raised rfl
    · exact .through _ nofun rfl (emits_of_out_eq rfl)
    · exact .through _ nofun rfl (emits_map (bytes := [_]) rfl rfl)
  | dstart =>
    rcases execDstart_cases h with ⟨hf, rfl⟩ | ⟨-, -, rfl⟩ | ⟨-, rfl⟩
    · exact .discarded hf
    · exact .raised rfl
    · exact .through _ nofun rfl (emits_of_out_eq rfl)
  | loadt b => exact loadt_outcome h
  | tend =>
    rcases execTend_cases h with ⟨hf, rfl⟩ | ⟨-, -, rfl⟩ | ⟨-, -, rfl⟩ | ⟨-, -, -, rfl⟩
    · exact .discarded hf
    · exact .raised rfl
    · exact .raised rfl
    · exact .through _ nofun rfl (emits_of_out_eq rfl)
  | pushb b => exact pushb_outcome h
  | dend =>
    rcases execDend_cases h with ⟨hf, rfl⟩ | ⟨-, -, rfl⟩ | ⟨-, -, rfl⟩ | ⟨-, -, rfl⟩
    · exact .discarded hf
    · exact .raised rfl
    · exact .raised rfl
    · exact .through _ nofun rfl (emits_of_out_eq rfl)

/-! ## Faults and the way out of FAULT (R177, R187) -/

/-- Settles O19. -/
theorem faultsOfTheTable : Obligations.FaultsOfTheTable := by
  intro i s t hs h ht
  by_cases hi : i = .clear
  · subst hi
    cases h
    cases ht
  · cases exec_outcome hi h with
    | discarded hp => exact absurd hp hs
    | faulted c u hc => exact ⟨c, hc, rfl⟩
    | through _ hp => exact absurd ht hp

/-- In FAULT a host event other than reset changes neither the phase nor the fault nor the history. -/
theorem hostDoes_keeps {e : HostEvent} (he : ∀ l, e ≠ .reset l) (s : State) :
    (hostDoes e s).phase = s.phase ∧ (hostDoes e s).err = s.err ∧ (hostDoes e s).out = s.out := by
  cases e with
  | reset l => exact absurd rfl (he l)
  | stopTaking => simp only [hostDoes, stopTaking]; split <;> exact ⟨rfl, rfl, rfl⟩
  | takeOne =>
    simp only [hostDoes, takeOne]
    split
    · exact ⟨rfl, rfl, rfl⟩
    · split <;> exact ⟨rfl, rfl, rfl⟩
  | _ => exact ⟨rfl, rfl, rfl⟩

/-- Settles O20: of the words 0x0100 alone, and of the host's events reset alone, is more than waiting in FAULT. -/
theorem onlyClearOrResetLeavesFault : Obligations.OnlyClearOrResetLeavesFault := by
  intro s t hp hstep
  rcases step_cases hstep with ⟨rfl, -⟩ | ⟨w, rest, hport, -, hrun⟩ | ⟨ws, e, rest, hport, -, hw, rfl⟩
  · exact .inl ⟨hp, rfl, rfl⟩
  · by_cases hclear : w = 0x0100
    · subst hclear
      cases hrun
      exact .inr ⟨resetValues_clearBlock _, [], rest, .inl hport⟩
    · rw [runWord_fault (s := acceptWord rest s) hp hclear] at hrun
      cases hrun
      exact .inl ⟨hp, rfl, rfl⟩
  · by_cases hreset : ∃ l, e = .reset l
    · obtain ⟨l, rfl⟩ := hreset
      exact .inr ⟨resetValues_hardReset _, ws, rest, .inr ⟨l, hport, hw⟩⟩
    · have hkept := hostDoes_keeps (fun l he => hreset ⟨l, he⟩) { s with port := leftBehind ws e rest }
      exact .inl ⟨hkept.1.trans hp, hkept.2⟩

/-! ## Frames (R21 to R34) -/

/-- Who writes which element, by `writes`. -/
theorem writers_of_writes {i : Instr} {s u : State} (hi : i ≠ .clear) (h : writes i s u) :
    ((∀ b, i ≠ .count b) → u.freq = s.freq) ∧
    ((∀ b, i ≠ .count b) → (∀ b, i ≠ .loadt b) → u.nsym = s.nsym) ∧
    (i ≠ .build → (∀ b, i ≠ .enc b) → i ≠ .tend → (∀ b, i ≠ .pushb b) → u.rem = s.rem) ∧
    (i ≠ .build → u.code = s.code) ∧
    (i ≠ .build → (∀ b, i ≠ .loadt b) → u.tree = s.tree ∧ u.treeOk = s.treeOk) ∧
    ((∀ b, i ≠ .enc b) → i ≠ .finish → u.acc = s.acc) ∧
    ((∀ b, i ≠ .loadt b) → u.hcnt = s.hcnt ∧ u.pstk = s.pstk ∧ u.pleaf = s.pleaf ∧ u.nint = s.nint ∧
      u.seen = s.seen) ∧
    (i ≠ .tend → (∀ b, i ≠ .pushb b) → u.pos = s.pos) ∧
    (u.phase = s.phase ∨ i ∈ [.estart, .build, .finish, .dstart, .tend, .dend]) ∧ u.err = s.err := by
  cases i <;> simp only [writes] at h <;> rw [h] <;> simp

/-- Settles O55. Fault entry adds PHASE and ERR to what was written before it, which for all but LOADT and PUSHB is
nothing. -/
theorem writersOfState : Obligations.WritersOfState := by
  intro i s t h hi
  cases exec_outcome hi h with
  | discarded hp => simp
  | faulted c u _ hw _ hu =>
    obtain ⟨hfreq, hnsym, hrem, hcode, htree, hacc, hloader, hpos, -, -⟩ := writers_of_writes hi hw
    refine ⟨hfreq, hnsym, hrem, hcode, htree, hacc, hloader, hpos, .inr (.inl rfl), .inr rfl, fun _ hl hpush => ?_⟩
    have hbits : bitByBit i = false := by
      cases i with
      | loadt b => exact absurd rfl (hl b)
      | pushb b => exact absurd rfl (hpush b)
      | _ => rfl
    rw [hu hbits]
    rfl
  | through _ hp hw =>
    obtain ⟨hfreq, hnsym, hrem, hcode, htree, hacc, hloader, hpos, hphase, herr⟩ := writers_of_writes hi hw
    exact ⟨hfreq, hnsym, hrem, hcode, htree, hacc, hloader, hpos, hphase.imp_right .inr, .inl herr,
      fun hf => absurd hf hp⟩

/-! ## Output (R52, R53, R58) -/

/-- The host's side of a state, without the history. -/
def sameHost (s u : State) : Prop :=
  u.port = s.port ∧ u.index = s.index ∧ u.held = s.held ∧ u.reads = s.reads ∧ u.before = s.before ∧
    u.freeCount = s.freeCount

theorem sameHost_of_writes {i : Instr} {s u : State} (h : writes i s u) : sameHost s u := by
  cases i <;> simp only [writes] at h <;> rw [h] <;> exact ⟨rfl, rfl, rfl, rfl, rfl, rfl⟩

/-- No command touches the host's side, and what it emits is on its own channel. -/
theorem exec_sameHost_emits {i : Instr} {s t : State} (h : exec i s = .next t) : sameHost s t ∧ emits i s t := by
  by_cases hi : i = .clear
  · subst hi
    cases h
    exact ⟨⟨rfl, rfl, rfl, rfl, rfl, rfl⟩, emits_of_out_eq rfl⟩
  · cases exec_outcome hi h with
    | discarded => exact ⟨⟨rfl, rfl, rfl, rfl, rfl, rfl⟩, emits_of_out_eq rfl⟩
    | faulted c u _ hw he => exact ⟨sameHost_of_writes (u := u) hw, he⟩
    | through _ _ hw he => exact ⟨sameHost_of_writes hw, he⟩

/-- Settles O56, with the channels read off `emitsOn`. -/
theorem outputOnlyGrows : Obligations.OutputOnlyGrows := by
  intro i s t h
  obtain ⟨⟨hport, hindex, hheld, hreads, hbefore, hcount⟩, ts, hout, hch⟩ := exec_sameHost_emits h
  refine ⟨hport, hindex, hheld, hreads, hbefore, hcount, ts, hout, fun x hx => ?_⟩
  have hx' := hch x hx
  cases i <;> simp [emitsOn] at hx' <;> simp [← hx']

/-- A command without a channel emits nothing. -/
theorem out_eq_of_exec {i : Instr} {s t : State} (h : exec i s = .next t) (hi : emitsOn i = none) : t.out = s.out := by
  obtain ⟨-, ts, hout, hch⟩ := exec_sameHost_emits h
  have hnone : ts = [] := List.eq_nil_iff_forall_not_mem.2 fun x hx => by simpa [hi] using hch x hx
  rw [hout, hnone, List.append_nil]

section
variable {s t : State} (hinv : Inv s)
include hinv

/-- R80: BUILD emits a tree artifact when it goes through. -/
theorem build_emits (h : exec .build s = .next t) :
    ∃ ts, t.out = s.out ++ ts ∧ (t.phase = .eEncode → 11 ≤ ts.length ∧ ts.length ≤ 328) := by
  rcases execBuild_cases h with ⟨hf, rfl⟩ | ⟨-, -, rfl⟩ | ⟨-, -, rfl⟩ | ⟨-, -, rfl⟩ | ⟨hp, hn, u, _, hu, hi, -, rfl⟩
  · exact ⟨[], by simp, by simp [hf]⟩
  · exact ⟨[], by simp, nofun⟩
  · exact ⟨[], by simp, nofun⟩
  · exact ⟨[], by simp, nofun⟩
  · obtain ⟨u', hu', -, -, -, hmax⟩ := buildTree_spec (hinv.exists_counted hp hn)
    obtain rfl : u = u' := Option.some.inj (hu.symm.trans hu')
    exact ⟨_, rfl, fun _ => by simpa using length_treeArtifact_bounds hi hmax s.nsym⟩

/-- R28: in E_ENCODE less than a byte is pending. -/
theorem Inv.length_acc_le (hp : s.phase = .eEncode) : s.acc.length ≤ 7 := by
  have hfacts := hinv.phases
  simp only [phaseFacts, hp] at hfacts
  obtain ⟨-, -, -, -, -, hlen⟩ := hfacts
  exact hlen

/-- R130: a code of at most 255 bits behind at most 7 pending ones fills at most 32 bytes. -/
theorem enc_emits {b : Byte} (h : exec (.enc b) s = .next t) : ∃ ts, t.out = s.out ++ ts ∧ ts.length ≤ 32 := by
  rcases execEnc_cases h with ⟨-, rfl⟩ | ⟨-, -, rfl⟩ | ⟨-, -, rfl⟩ | ⟨-, -, -, rfl⟩ |
    ⟨hp, -, hb, c, bytes, acc, hc, rfl, hbits, hacc⟩
  case inr.inr.inr.inr =>
    have hpending := hinv.length_acc_le hp
    obtain ⟨c', hc', -, hlen⟩ := hinv.exists_code hp hb
    obtain rfl : c = c' := Option.some.inj (hc.symm.trans hc')
    obtain ⟨hcount, -⟩ := pack_counts hbits (hacc hpending)
    exact ⟨_, rfl, by rw [List.length_map]; omega⟩
  all_goals exact ⟨[], by simp⟩

/-- R155: PUSHB emits a byte per leaf reached, at most one per bit, and REM counts them. -/
theorem pushb_emits {b : Byte} (h : exec (.pushb b) s = .next t) :
    ∃ ts, t.out = s.out ++ ts ∧ ts.length ≤ 8 ∧ ts.length + t.rem.toNat = s.rem.toNat := by
  rcases execPushb_cases h with ⟨-, rfl⟩ | ⟨-, -, rfl⟩ | ⟨-, -, rfl⟩ | ⟨hp, -, rfl⟩
  case inr.inr.inr =>
    obtain ⟨bytes, pos', hrun, -, -, hlen, hrem, -⟩ := hinv.walkBits_spec hp (bits8 b)
    rw [hrun]
    refine ⟨_, rfl, by simpa using hlen, ?_⟩
    rw [List.length_map, count_sub_ofNat hrem]
    omega
  all_goals exact ⟨[], by simp⟩

end

/-- R131: FINISH emits the pending bits as one byte, if there are any. -/
theorem finish_emits {s t : State} (h : exec .finish s = .next t) : ∃ ts, t.out = s.out ++ ts ∧ ts.length ≤ 1 := by
  rcases execFinish_cases h with ⟨-, rfl⟩ | ⟨-, -, rfl⟩ | ⟨-, -, rfl⟩ | ⟨-, -, -, rfl⟩ | ⟨-, -, -, rfl⟩
  case inr.inr.inr.inr => exact ⟨_, rfl, le_rfl⟩
  all_goals exact ⟨[], by simp⟩

/-- Settles O57. -/
theorem emittedByteCounts : Obligations.EmittedByteCounts := by
  intro i s t hinv h
  cases i with
  | build =>
    obtain ⟨ts, hout, hlen⟩ := build_emits hinv h
    exact ⟨ts, hout, by simpa using hlen⟩
  | enc b =>
    obtain ⟨ts, hout, hlen⟩ := enc_emits hinv h
    exact ⟨ts, hout, by simpa using hlen⟩
  | finish =>
    obtain ⟨ts, hout, hlen⟩ := finish_emits h
    exact ⟨ts, hout, by simpa using hlen⟩
  | pushb b =>
    obtain ⟨ts, hout, hlen⟩ := pushb_emits hinv h
    exact ⟨ts, hout, by simpa using hlen⟩
  | _ => exact ⟨[], by simp [out_eq_of_exec h rfl]⟩

/-! ## Success (R131, R156) -/

/-- R130: an ENC that goes through counts one symbol. -/
theorem rem_of_exec_enc {b : Byte} {s t : State} (h : exec (.enc b) s = .next t) (ht : t.phase ≠ .fault) :
    t.rem.toNat + 1 = s.rem.toNat := by
  rcases execEnc_cases h with ⟨hf, rfl⟩ | ⟨-, -, rfl⟩ | ⟨-, -, rfl⟩ | ⟨-, -, -, rfl⟩ | ⟨-, hr, -, _, _, _, -, rfl, -⟩
  · exact absurd hf ht
  · exact absurd rfl ht
  · exact absurd rfl ht
  · exact absurd rfl ht
  · have hpos := count_pos hr
    rw [count_pred hr]
    omega

/-- R131: FINISH enters DONE with no symbol left. -/
theorem rem_of_exec_finish {s t : State} (h : exec .finish s = .next t) (ht : t.phase = .done) :
    s.phase = .eEncode ∧ s.rem = 0 ∧ t.rem = 0 := by
  rcases execFinish_cases h with ⟨hf, rfl⟩ | ⟨-, -, rfl⟩ | ⟨-, -, rfl⟩ | ⟨hp, hr, -, rfl⟩ | ⟨hp, hr, -, rfl⟩
  · simp [hf] at ht
  · cases ht
  · cases ht
  · exact ⟨hp, hr, hr⟩
  · exact ⟨hp, hr, hr⟩

/-- R156: so does DEND. -/
theorem rem_of_exec_dend {s t : State} (h : exec .dend s = .next t) (ht : t.phase = .done) :
    s.phase = .dBits ∧ s.rem = 0 ∧ t.rem = 0 := by
  rcases execDend_cases h with ⟨hf, rfl⟩ | ⟨-, -, rfl⟩ | ⟨-, -, rfl⟩ | ⟨hp, hr, rfl⟩
  · simp [hf] at ht
  · cases ht
  · cases ht
  · exact ⟨hp, hr, hr⟩

/-- Settles O58: the phase a command ends in leaves FINISH and DEND alone for DONE. -/
theorem successNeedsEverySymbol : Obligations.SuccessNeedsEverySymbol := by
  refine ⟨fun b s t h _ ht => rem_of_exec_enc h ht, fun i s t h _ ht => ?_⟩
  obtain hf | ⟨-, hphase⟩ := phase_of_exec h
  · simp [hf] at ht
  rw [ht] at hphase
  cases i with
  | finish =>
    obtain ⟨hp, hr⟩ := rem_of_exec_finish h ht
    exact ⟨.inl ⟨rfl, hp⟩, hr⟩
  | dend =>
    obtain ⟨hp, hr⟩ := rem_of_exec_dend h ht
    exact ⟨.inr ⟨rfl, hp⟩, hr⟩
  | _ => cases hphase

end Sys2Proof.Machine
end

section
/-!
# The ports and the host on their other side (spec 20_memory R51, R65, 10_state R36 to R41, 70_reset R200, R210, R211)

Settles O6 to O9, O11, O13 and O17. A step takes one event; `step_word` and `step_other` say which, and what remains is
what the event does.
-/

namespace Sys2Proof.Machine

/-! ## Words (R73) -/

/-- Settles O6. -/
theorem stepRunsDecodedCommand : Obligations.StepRunsDecodedCommand := fun _ _ _ _ hp ho hd =>
  (step_word hp ho).trans (runWord_of_decode hd _)

/-- Settles O7. -/
theorem stepTakesIllegalWord : Obligations.StepTakesIllegalWord := by
  rintro s u w rest e hp ho hd rfl
  rw [step_word hp ho, runWord, hd]
  rfl

/-! ## Taking output (R65, R210) -/

/-- With words alone there is nothing but waiting (R188, R192, R210). -/
theorem step_words {s : State} {ws : List CmdWord} (hw : ws = [] ∨ outputPending s = true)
    (hp : s.port = ws.map .word) : step s = .next s := by
  cases ws with
  | nil => simp only [step, hp, List.map_nil, waitForHost]
  | cons w ws =>
    have ho : outputPending s = true := by simpa using hw
    simp only [step, hp, List.map_cons, serve, ho, if_true, stalled, firstOther_words]

theorem outputPending_iff {s : State} : outputPending s = true ↔ ∃ n, s.held = some n ∧ n < s.out.length := by
  unfold outputPending
  split <;> simp [*]

/-- A pending byte is the next one taken (R65). -/
theorem takeOne_pending {s : State} (h : outputPending s = true) :
    ∃ t b, takeOne s = t ∧ takenOut t = takenOut s ++ [b] ∧
      t = { s with held := t.held, before := boundaryOf s } := by
  obtain ⟨n, hn, hlt⟩ := outputPending_iff.1 h
  have hrun : takeOne s = { s with held := some (n + 1), before := boundaryOf s } := by
    simp only [takeOne, hn, if_pos hlt]
  refine ⟨_, s.out[n], hrun, ?_, rfl⟩
  simp only [takenOut, hn, List.take_add_one, List.getElem?_eq_getElem hlt, Option.toList_some]

theorem takeOne_idle {s : State} (h : outputPending s = false) : takeOne s = s := by
  unfold takeOne
  split
  · rfl
  · next n hn => exact if_neg fun hlt => by simp [outputPending_iff.2 ⟨n, hn, hlt⟩] at h

/-- R210: a host that stops taking has taken what was offered before. -/
theorem stopTaking_spec (s : State) :
    outputPending (stopTaking s) = outputPending s ∧ (stopTaking s).held ≠ none ∧
      (outputPending s = true → (stopTaking s).held = s.held) ∧ (s.held = none → takenOut (stopTaking s) = s.out) ∧
      stopTaking s = { s with held := (stopTaking s).held } := by
  obtain hh | ⟨n, hh⟩ := Option.eq_none_or_eq_some s.held
  · have hrun : stopTaking s = { s with held := some s.out.length } := by simp only [stopTaking, hh]
    rw [hrun]
    simp [outputPending, takenOut, hh]
  · have hrun : stopTaking s = s := by simp only [stopTaking, hh]
    rw [hrun]
    exact ⟨rfl, by simp [hh], fun _ => rfl, by simp [hh], rfl⟩

/-- Settles O8, event by event. -/
theorem hostAndBlockWait : Obligations.HostAndBlockWait := by
  intro s ws rest hw
  refine ⟨step_words hw, fun hp => ?takeAll, fun hp ho => ?takeOne, fun hp ho => ?idle, fun hp => ?stop⟩
  case takeAll => exact ⟨_, step_other hp nofun hw, rfl, rfl, rfl⟩
  case takeOne =>
    obtain ⟨t, b, hrun, htaken, ht⟩ := takeOne_pending (s := { s with port := ws.map .word ++ rest }) ho
    exact ⟨t, b, (step_other hp nofun hw).trans (congrArg _ hrun), htaken, ht⟩
  case idle =>
    exact (step_other hp nofun hw).trans (congrArg _ (takeOne_idle (s := { s with port := ws.map .word ++ rest }) ho))
  case stop =>
    obtain ⟨hout, hheld, hkept, htaken, hrun⟩ := stopTaking_spec { s with port := ws.map .word ++ rest }
    exact ⟨_, step_other hp nofun hw, hout, hheld, hkept, htaken, hrun⟩

/-! ## Status reads (R36, R39, R60) -/

/-- What a read shows does not depend on the events to come. -/
theorem readView_port (s : State) (p : List HostEvent) : readView { s with port := p } = { readView s with port := p } := by
  show (if outputPending s && Config.freeBoundary s.freeCount then _ else _) = _
  unfold readView
  split <;> rfl

theorem statusValue_port (s : State) (p : List HostEvent) (r : StatusReg) :
    statusValue { s with port := p } r = statusValue s r := by
  cases r <;> rfl

/-- Settles O9: the state a read shows is `readView`. -/
theorem statusReadHasNoEffect : Obligations.StatusReadHasNoEffect := by
  intro s r ws rest hp hw
  have hview := readView_port s (ws.map .word ++ rest)
  refine ⟨_, readView s, step_other hp nofun hw, ?reads, ?kept, ?present, ?taken, readView_of_before⟩
  case reads => exact congrArg (fun v => s.reads ++ [(r, v)]) (by rw [← statusValue_port (readView s), ← hview]; rfl)
  case kept =>
    have hbefore : boundaryOf (readView { s with port := ws.map .word ++ rest }) = boundaryOf (readView s) := by
      rw [hview]
      rfl
    exact congrArg (fun v => { readStatus r { s with port := ws.map .word ++ rest } with before := v }) hbefore
  case present =>
    intro ho
    simpa [ho] using readView_cases s
  case taken =>
    intro ho
    rcases readView_cases s with ⟨hno, -⟩ | ⟨-, h⟩
    · simp [ho] at hno
    · exact h

/-- R39, R176: STATUS outside FAULT. -/
theorem statusByte_eq {s : State} (h : s.phase ≠ .fault) : statusByte s =
    (if s.treeOk then 0x20 else 0) ||| (if s.phase = .done then 0x08 else 0) ||| (phaseCode s.phase).zeroExtend 8 := by
  have hdone : doneFlag s = decide (s.phase = .done) := rfl
  have hfault : faultedFlag s = false := decide_eq_false h
  rw [statusByte, shownTreeOk_of_ne_fault h, hdone, hfault]
  cases s.treeOk <;> cases hp : s.phase <;> simp_all [phaseCode]

/-- R38: ERRREG is SUB above KIND. -/
theorem errByte_eq (s : State) : errByte s = (s.err.sub.zeroExtend 8 <<< 3) ||| s.err.kind.zeroExtend 8 := by
  unfold errByte
  generalize s.err.sub = sub, s.err.kind = kind
  revert sub kind
  decide

/-- Settles O11. -/
theorem statusExactness : Obligations.StatusExactness := fun s =>
  ⟨statusByte_fault, fun h => ⟨congrArg _ (shownCount_of_ne_fault h _), congrArg _ (shownCount_of_ne_fault h _)⟩,
    statusByte_eq, errByte_eq s⟩

/-! ## Hardware reset (R200, R201) -/

theorem outputPending_hardReset (s : State) : outputPending (hardReset s) = false := by
  obtain hh | ⟨n, hh⟩ := Option.eq_none_or_eq_some s.held <;> simp [outputPending, takenOut, hh]

/-- Settles O13. -/
theorem hardwareReset : Obligations.HardwareReset := by
  constructor
  case left =>
    intro s l rest hp
    exact ⟨_, step_reset hp, resetValues_hardReset _, rfl, outputPending_hardReset _, rfl, rfl, rfl⟩
  case right =>
    intro s w ws l rest hp ho
    exact ⟨_, step_other (ws := w :: ws) hp nofun (.inr ho), resetValues_hardReset _, rfl, outputPending_hardReset _,
      rfl, rfl, rfl⟩

/-! ## Fault entry (R185) -/

/-- Settles O17. -/
theorem faultEntry : Obligations.FaultEntry := fun _ _ => ⟨rfl, rfl, rfl, rfl, rfl⟩

end Sys2Proof.Machine
end

section
/-!
# Bit strings, serialized trees and codes (spec 00_scope R14, 30_encoding R80, R81, 41 R116, R117)

Settles O31 to O33 and O35. A code is the path of a leaf, so the laws of paths are the properties of the table; the laws
of `ser` and of the bits of packed bytes are those of the artifact.
-/

namespace Sys2Proof.Machine

/-! ## Packed bits (R14, R54) -/

theorem getElem?_bits8 (v : Byte) {i : Nat} (h : i < 8) : (bits8 v)[i]? = some (v.getLsbD (7 - i)) := by
  interval_cases i <;> rfl

/-- R54: bit `i` of a byte sequence is bit `7 - i mod 8` of byte `i / 8`. -/
theorem getElem?_bitsOf (bs : List Byte) (i : Nat) :
    (bitsOf bs)[i]? = bs[i / 8]?.map fun b => b.getLsbD (7 - i % 8) := by
  induction bs generalizing i with
  | nil => simp [bitsOf]
  | cons b bs ih =>
    rw [bitsOf_cons]
    by_cases h : i < 8
    · rw [List.getElem?_append_left (by simpa using h), getElem?_bits8 b h, Nat.div_eq_of_lt h, Nat.mod_eq_of_lt h]
      rfl
    · obtain ⟨j, rfl⟩ := Nat.exists_eq_add_of_le (Nat.not_lt.1 h)
      rw [List.getElem?_append_right (by simp), length_bits8, Nat.add_sub_cancel_left, ih, Nat.add_mod_left,
        Nat.add_div_left j (by decide), List.getElem?_cons_succ]

/-- R14: behind the bits of a string, padding is 0. -/
theorem getElem?_pad8 {s : Bits} {i : Nat} (h : i < (pad8 s).length) : (pad8 s)[i]? = some (s.getD i false) := by
  by_cases hi : i < s.length
  · rw [pad8, List.getElem?_append_left hi, List.getD_eq_getElem _ _ hi, List.getElem?_eq_getElem hi]
  · rw [List.getD_eq_default _ _ (by omega), List.getElem?_eq_getElem h]
    simp [pad8, List.getElem_append_right (Nat.not_lt.1 hi)]

/-- Settles O35: the bits of the packed bytes are the padded string. -/
theorem packedBits : Obligations.PackedBits := by
  intro s
  refine ⟨length_pack s, fun i hi => ?_⟩
  have hbit := getElem?_bitsOf (pack s) i
  rw [bitsOf_pack, getElem?_pad8 (by rwa [← bitsOf_pack, length_bitsOf])] at hbit
  obtain ⟨b, hb, hval⟩ := Option.map_eq_some_iff.1 hbit.symm
  exact ⟨b, hb, hval⟩

/-! ## Serialized trees (R80, R81) -/

theorem eq_of_ser_prefix {t u : Tree} (h : ser t <+: ser u) : t = u := by
  obtain ⟨x, hx⟩ := h
  exact (ser_parse (hx.trans (List.append_nil _).symm)).1

/-- R80: the artifact is 8 bytes of the count and the packed tree, and both can be read back. -/
theorem treeArtifact_injective {n m : Count} {t u : Tree} (h : treeArtifact n t = treeArtifact m u) :
    n = m ∧ t = u := by
  obtain ⟨hcount, htree⟩ := List.append_inj h rfl
  have hbits := congrArg bitsOf htree
  rw [bitsOf_pack, bitsOf_pack] at hbits
  exact ⟨by rw [← foldl_appendByte_be64 n, hcount, foldl_appendByte_be64], (ser_parse hbits).1⟩

/-- Settles O33. -/
theorem serializationEndsItself : Obligations.SerializationEndsItself :=
  ⟨fun _ => rfl, fun _ _ => rfl, fun _ _ => eq_of_ser_prefix, fun _ _ _ _ => treeArtifact_injective⟩

/-! ## Codes (R116, R117) -/

/-- R116: with distinct leaf values the table holds exactly the paths of the leaves. -/
theorem entry_deriveCodes_iff {t : Tree} {code : Table (Option Bits)} (hi : isInternal t = true)
    (hn : (leaves t).Nodup) (hc : deriveCodes t [] noCodes = some code) (b : Byte) (p : Bits) :
    entry code b = some p ↔ follow t p = some (.leaf b) := by
  obtain ⟨code', hc', hpath, hleaves⟩ := deriveCodes_root hi
  obtain rfl : code = code' := Option.some.inj (hc.symm.trans hc')
  refine ⟨hpath b p, fun hp => ?_⟩
  obtain ⟨q, hq⟩ := Option.ne_none_iff_exists'.1 ((hleaves b).2 ((mem_leaves_iff t b).2 ⟨p, hp⟩))
  rw [hq, path_unique hn (hpath b q hq) hp]

/-- Settles O31. -/
theorem codesArePaths : Obligations.CodesArePaths := by
  intro t hi hn
  obtain ⟨code, hc, hpath, hleaves⟩ := deriveCodes_root hi
  exact ⟨code, hc, entry_deriveCodes_iff hi hn hc, hleaves, fun b p hp =>
    ⟨List.length_pos_iff.2 (path_ne_nil hi (hpath b p hp)), length_path_le (hpath b p hp)⟩⟩

/-- R116: of a leaf at the root no codes are derived. -/
theorem isInternal_of_deriveCodes {t : Tree} {code : Table (Option Bits)} (h : deriveCodes t [] noCodes = some code) :
    isInternal t = true := by
  cases t with
  | leaf v => simp [deriveCodes] at h
  | node l r => rfl

/-- Settles O32: the codes are paths to leaves, and no path goes on behind a leaf. -/
theorem codesArePrefixFree : Obligations.CodesArePrefixFree := by
  intro t code hc a b p q ha hb hpq
  obtain ⟨code', hc', hpath, -⟩ := deriveCodes_root (isInternal_of_deriveCodes hc)
  obtain rfl : code = code' := Option.some.inj (hc.symm.trans hc')
  obtain ⟨r, rfl⟩ := hpq
  obtain ⟨rfl, rfl⟩ := path_prefix_free (hpath a p ha) (hpath b _ hb)
  exact ⟨rfl, (List.append_nil p).symm⟩

end Sys2Proof.Machine
end

section
/-!
# Padding (spec 44_bit_unpacker R157)

Settles O48: PUSHB's loop stops when REM is 0, and what it has not looked at does not matter.
-/

namespace Sys2Proof.Machine

/-- Once REM is 0 the loop has stopped, whatever bits follow. -/
theorem walkBits_append_of_rem {xs : Bits} {s : State} (h : (walkBits xs s).rem = 0) (ys : Bits) :
    walkBits (xs ++ ys) s = walkBits xs s := by
  induction xs generalizing s with
  | nil => exact walkBits_stop h ys
  | cons x xs ih =>
    by_cases h0 : s.rem = 0
    · rw [walkBits_stop h0, walkBits_stop h0]
    · cases hc : child s.pos x with
      | none =>
        rw [walkBits_cons_off h0 hc] at h
        exact absurd h h0
      | some n =>
        rw [walkBits_cons h0 hc] at h
        rw [List.cons_append, walkBits_cons h0 hc, walkBits_cons h0 hc, ih h]

/-- A byte is looked at up to the bit that brings REM to 0. -/
theorem pushByte_of_take {b : Byte} {k : Nat} {s : State} (h : (walkBits ((bits8 b).take k) s).rem = 0) :
    pushByte b s = if s.rem = 0 then raise .bitsExtra s else walkBits ((bits8 b).take k) s := by
  have hwalk := walkBits_append_of_rem h ((bits8 b).drop k)
  rw [List.take_append_drop] at hwalk
  rw [pushByte, hwalk]

/-- Settles O48. -/
theorem paddingIsIgnored : Obligations.PaddingIsIgnored := by
  refine ⟨fun xs ys zs s h => ?_, fun a b k s hab h => ?_⟩
  · rw [walkBits_append_of_rem h, walkBits_append_of_rem h]
  · have hbody : pushByte a s = pushByte b s := by rw [pushByte_of_take h, pushByte_of_take (hab ▸ h), hab]
    exact congrArg (fun u => inPhase .dBits s (.next u)) hbody

end Sys2Proof.Machine
end

section
/-!
# The queue of BUILD and the tree it makes (spec 41_tree_builder_code_table R111 to R113, R119)

Settles O25 to O27, O29 and O30. Any two entries of the queue are comparable, so its order is strict. With all counts
equal a pass over the queue joins its entries two by two, and eight passes make the perfect tree of R119.
-/

namespace Sys2Proof.Machine

/-! ## The order of the queue (R112) -/

/-- The order of extraction, without ties. -/
abbrev strictQueue (q : List QEntry) : Prop := q.Pairwise fun a b => before a b = true

/-- One of the entries is extracted before the other. -/
def comparable (a b : QEntry) : Prop := before a b = true ∨ before b a = true

theorem comparable_of_seq_ne {a b : QEntry} (h : a.seq ≠ b.seq) : comparable a b := by
  simp only [comparable, before_iff]
  omega

theorem before_asymm {a b : QEntry} (h : before a b = true) : before b a = false := by
  rw [before_iff] at h
  rw [before_eq_false]
  omega

theorem sortedQueue_of_strict {q : List QEntry} (h : strictQueue q) : sortedQueue q := h.imp before_asymm

/-- A sorted queue of comparable entries has no ties. -/
theorem strictQueue_of_sorted {q : List QEntry} (hs : sortedQueue q) (hc : q.Pairwise comparable) : strictQueue q :=
  (hs.and hc).imp fun ⟨hno, hcmp⟩ => hcmp.resolve_right (by simp [hno])

theorem insertEntry_strict {e : QEntry} {q : List QEntry} (h : strictQueue q) (he : ∀ x ∈ q, comparable e x) :
    strictQueue (insertEntry e q) := by
  refine strictQueue_of_sorted (insertEntry_sorted e (sortedQueue_of_strict h)) ?_
  have hcons : (e :: q).Pairwise comparable := List.pairwise_cons.2 ⟨he, h.imp .inl⟩
  exact (insertEntry_perm e q).symm.pairwise hcons Or.symm

/-- Two strict queues of the same entries are equal. -/
theorem eq_of_strict_perm {q q' : List QEntry} (h : q.Perm q') (hq : strictQueue q) (hq' : strictQueue q') : q = q' :=
  h.eq_of_pairwise (fun _ _ _ _ hab hba => absurd hba (by simp [before_asymm hab])) hq hq'

/-! ## The initial queue (R111) -/

theorem initEntries_of_two_le {freq : Table Count} (h : 2 ≤ (present freq).length) :
    initEntries freq = (present freq).map (leafEntry freq) := by
  rcases initEntries_cases freq with ⟨b, hp, -⟩ | ⟨-, he⟩
  · simp [hp] at h
  · exact he

theorem nodup_seq_initEntries (freq : Table Count) : ((initEntries freq).map QEntry.seq).Nodup := by
  rcases initEntries_cases freq with ⟨b, -, he⟩ | ⟨-, he⟩
  · rw [he]
    have hne : (placeholder b).toNat ≠ b.toNat := fun h => placeholder_ne b (BitVec.eq_of_toNat_eq h)
    simpa [leafEntry] using hne
  · rw [he, List.map_map]
    exact (nodup_present freq).map BitVec.toNat_injective

theorem nodup_seq_initQueue (freq : Table Count) : ((initQueue freq).map QEntry.seq).Nodup :=
  ((initQueue_perm freq).map QEntry.seq).nodup_iff.2 (nodup_seq_initEntries freq)

theorem initQueue_strict (freq : Table Count) : strictQueue (initQueue freq) :=
  strictQueue_of_sorted (initQueue_sorted freq)
    ((List.pairwise_map.1 (nodup_seq_initQueue freq)).imp comparable_of_seq_ne)

theorem length_initEntries_le (freq : Table Count) : (initEntries freq).length ≤ 256 := by
  rcases initEntries_cases freq with ⟨b, -, he⟩ | ⟨-, he⟩
  · simp [he]
  · rw [he, List.length_map]
    exact length_le_of_nodup (nodup_present freq)

/-- Settles O25. -/
theorem initialQueue : Obligations.InitialQueue := by
  intro freq
  have hperm := initQueue_perm freq
  refine ⟨fun h2 e => ?many, fun b hb e => ?single, fun h => ?bounds, nodup_seq_initQueue freq, initQueue_strict freq⟩
  case many =>
    rw [hperm.mem_iff, initEntries_of_two_le h2, List.mem_map]
    simp only [mem_present, leafEntry, eq_comm (a := e)]
  case single =>
    have hseq : (placeholder b).toNat = if b = 0x00 then 1 else 0 := by
      unfold placeholder
      split <;> rfl
    rw [initQueue_of_single hb, List.mem_cons, List.mem_singleton, hseq]
    rfl
  case bounds =>
    rw [hperm.length_eq]
    exact ⟨(initEntries_spec h).1, length_initEntries_le freq⟩

/-! ## Merging (R112) -/

/-- Settles O26. The new entry is comparable to the others because its sequence number is above theirs. -/
theorem mergeTakesTheTwoSmallest : Obligations.MergeTakesTheTwoSmallest := by
  constructor
  case left =>
    intro fuel mseq a b q hq hseq
    have hperm := insertEntry_perm (mergeEntry mseq a b) q
    obtain ⟨ha, hb, hrest⟩ : (∀ e ∈ b :: q, before a e = true) ∧ (∀ e ∈ q, before b e = true) ∧ strictQueue q := by
      simpa only [List.pairwise_cons] using hq
    have hbound : ∀ e ∈ q, e.seq < 256 + mseq := fun e he => hseq e (by simp [he])
    refine ⟨insertEntry (mergeEntry mseq a b) q, rfl, hperm, insertEntry_strict hrest fun x hx => ?_, fun e he => ?_,
      ha, hb⟩
    · exact comparable_of_seq_ne (hbound x hx).ne'
    · rcases List.mem_cons.1 (hperm.mem_iff.1 he) with rfl | he
      · exact Nat.lt_succ_self _
      · exact Nat.lt_succ_of_lt (hbound e he)
  case right =>
    intro q hq
    have hlen : q.length = q.length - 1 + 1 := by
      have := List.length_pos_iff.2 hq
      omega
    obtain ⟨e, hrun, hleaves, hw, hi⟩ := mergeLoop_spec (q.length - 1) 0 q hlen
    refine ⟨e, hrun, by simp [merge, hrun], hleaves, hw, fun hzero => ?_⟩
    rw [hi, queueInternals, List.sum_eq_zero (by simpa using hzero), Nat.zero_add]

/-- The leaves of the built tree are those of the initial entries. -/
theorem leaves_buildTree {freq : Table Count} {t : Tree} (h : buildTree freq = some t) :
    (leaves t).Perm (queueLeaves (initEntries freq)) := by
  cases hq : initQueue freq with
  | nil => simp [buildTree, hq, merge, mergeLoop] at h
  | cons a q =>
    obtain ⟨e, hrun, hleaves, -⟩ := mergeLoop_spec q.length 0 (a :: q) rfl
    have he : e.t = t := by simpa [buildTree, hq, merge, hrun] using h
    have hperm : (queueLeaves (initQueue freq)).Perm (queueLeaves (initEntries freq)) :=
      (initQueue_perm freq).flatMap_right _
    rw [hq] at hperm
    exact he ▸ hleaves.trans hperm

/-- Settles O27. -/
theorem builtTreeShape : Obligations.BuiltTreeShape := by
  intro freq h
  obtain ⟨t, ht, hi, hn, hmem, hmax⟩ := buildTree_spec h
  have hlen := length_leaves t
  have hpos := internals_pos hi
  refine ⟨t, ht, hi, hn, by omega, by omega, hmax, hmem, fun h2 b => ?_⟩
  rw [(leaves_buildTree ht).mem_iff, initEntries_of_two_le h2, queueLeaves_leafEntry, mem_present]

/-! ## The tie-break (R113) -/

/-- The rule's example: the two values counted once come first, their node last. -/
theorem buildTree_of_tieExample {freq : Table Count}
    (h : ∀ b, entry freq b = if b = 0x61 then 1 else if b = 0x62 then 1 else if b = 0x63 then 2 else 0) :
    buildTree freq = some (.node (.leaf 0x63) (.node (.leaf 0x61) (.leaf 0x62))) := by
  have hpresent : present freq = [0x61, 0x62, 0x63] := by
    refine present_eq (by decide) fun v => ?_
    rw [h]
    split_ifs <;> simp_all
  have hentries : initEntries freq = [⟨1, 0x61, .leaf 0x61⟩, ⟨1, 0x62, .leaf 0x62⟩, ⟨2, 0x63, .leaf 0x63⟩] := by
    simp [initEntries, hpresent, leafEntry, h]
  rw [buildTree, initQueue, hentries]
  rfl

/-- Settles O29: at equal weight the sequence numbers decide, and those of leaves are below 256. -/
theorem tieBreak : Obligations.TieBreak := by
  refine ⟨fun w m v t u => ?_, fun w v v' t u h => ?_, fun w m m' t u h => ?_, fun _ => buildTree_of_tieExample⟩
  · exact (before_iff _ _).2 (.inr ⟨rfl, v.isLt.trans_le (Nat.le_add_right ..)⟩)
  · exact (before_iff _ _).2 (.inr ⟨rfl, BitVec.lt_def.1 h⟩)
  · exact (before_iff _ _).2 (.inr ⟨rfl, Nat.add_lt_add_left h _⟩)

/-! ## Entries of equal weight (R119) -/

theorem insertEntry_last {e : QEntry} {q : List QEntry} (h : ∀ x ∈ q, before e x = false) :
    insertEntry e q = q ++ [e] := by
  induction q with
  | nil => rfl
  | cons x q ih =>
    obtain ⟨hx, hq⟩ := List.forall_mem_cons.1 h
    rw [insertEntry, if_neg (by simp [hx]), ih hq, List.cons_append]

section
variable (f : Nat → QEntry) (m : Nat)

/-- The entry the merge `m + k` makes of the entries `2k` and `2k + 1`. -/
def passEntry (k : Nat) : QEntry := mergeEntry (m + k) (f (2 * k)) (f (2 * k + 1))

variable {f} {w : Nat} (hf : ∀ i, (f i).w = w) (hw : 0 < w)
include hf

theorem passEntry_w (k : Nat) : (passEntry f m k).w = w + w := by
  rw [passEntry, mergeEntry, hf, hf]

include hw

/-- The merges of a pass from the `k`-th on: a new entry is heavier than the entries of the pass, and comes behind those
made before it. -/
theorem mergeLoop_pass_from (j k fuel : Nat) :
    mergeLoop (j + fuel) (m + k) ((List.range' (2 * k) (2 * j)).map f ++ (List.range k).map (passEntry f m)) =
      mergeLoop fuel (m + (k + j)) ((List.range (k + j)).map (passEntry f m)) := by
  induction j generalizing k with
  | zero => simp
  | succ j ih =>
    have hlast : ∀ x ∈ (List.range' (2 * (k + 1)) (2 * j)).map f ++ (List.range k).map (passEntry f m),
        before (passEntry f m k) x = false := by
      intro x hx
      rw [before_eq_false, passEntry_w m hf]
      rcases List.mem_append.1 hx with hx | hx
      · obtain ⟨i, -, rfl⟩ := List.mem_map.1 hx
        rw [hf]
        omega
      · obtain ⟨i, hi, rfl⟩ := List.mem_map.1 hx
        rw [List.mem_range] at hi
        rw [passEntry_w m hf]
        exact .inr ⟨rfl, by simp only [passEntry, mergeEntry]; omega⟩
    have hstep := ih (k + 1)
    rw [List.range_succ, List.map_append, ← List.append_assoc] at hstep
    rw [show k + (j + 1) = k + 1 + j by omega, ← hstep, show j + 1 + fuel = (j + fuel) + 1 by omega, Nat.mul_succ,
      List.range'_succ, List.range'_succ]
    exact congrArg (mergeLoop (j + fuel) (m + k + 1)) (insertEntry_last hlast)

/-- A pass over `2n` entries of equal weight joins them two by two. -/
theorem mergeLoop_pass (n fuel : Nat) :
    mergeLoop (n + fuel) m ((List.range (2 * n)).map f) =
      mergeLoop fuel (m + n) ((List.range n).map (passEntry f m)) := by
  simpa [List.range_eq_range'] using mergeLoop_pass_from m hf hw n 0 fuel

end

/-- The perfect tree of depth `d` whose leaves, from left to right, are `T 0`, `T 1` and so on. -/
def perfect : Nat → (Nat → Tree) → Tree
  | 0, T => T 0
  | d + 1, T => perfect d fun i => .node (T (2 * i)) (T (2 * i + 1))

/-- `2^d` entries of equal weight are joined to a perfect tree, one level in each pass. -/
theorem mergeLoop_perfect (d m : Nat) {f : Nat → QEntry} {w : Nat} (hf : ∀ i, (f i).w = w) (hw : 0 < w) :
    ∃ e, mergeLoop (2 ^ d - 1) m ((List.range (2 ^ d)).map f) = [e] ∧ e.t = perfect d fun i => (f i).t := by
  induction d generalizing m f w with
  | zero => exact ⟨f 0, rfl, rfl⟩
  | succ d ih =>
    obtain ⟨e, hrun, he⟩ := ih (m + 2 ^ d) (passEntry_w m hf) (by omega)
    refine ⟨e, ?_, he⟩
    have hpos : 0 < 2 ^ d := Nat.two_pow_pos d
    rw [show 2 ^ (d + 1) - 1 = 2 ^ d + (2 ^ d - 1) by omega, Nat.pow_succ', mergeLoop_pass m hf hw, hrun]

/-- The number a bit string stands for. -/
def natOf (p : Bits) : Nat := p.foldl (fun n x => 2 * n + x.toNat) 0

/-- In a perfect tree a path leads to the leaf whose number it is. -/
theorem follow_perfect (p : Bits) (T : Nat → Tree) : follow (perfect p.length T) p = some (T (natOf p)) := by
  induction p using List.reverseRecOn generalizing T with
  | nil => rfl
  | append_singleton p x ih =>
    have hnat : natOf (p ++ [x]) = 2 * natOf p + x.toNat := by simp [natOf]
    rw [List.length_append, List.length_singleton, perfect, follow_append, ih, hnat]
    cases x <;> rfl

theorem natOf_bits8 (b : Byte) : natOf (bits8 b) = b.toNat := by
  revert b; decide

/-! ## All values once (R119) -/

section
variable {freq : Table Count} (h : ∀ b, entry freq b = 1)
include h

/-- The initial queue is the leaves in ascending order. -/
theorem initQueue_of_ones : initQueue freq = (List.range 256).map fun i => ⟨1, i, .leaf (BitVec.ofNat 8 i)⟩ := by
  have hpresent : present freq = allBytes := present_eq pairwise_lt_allBytes fun v => by simp [mem_allBytes, h]
  have hentries : initEntries freq = (List.range 256).map fun i => ⟨1, i, .leaf (BitVec.ofNat 8 i)⟩ := by
    rw [initEntries_of_two_le (by simp [hpresent, length_allBytes]), hpresent, allBytes, List.map_map]
    refine List.map_congr_left fun i hi => ?_
    rw [List.mem_range] at hi
    simp [leafEntry, h, Nat.mod_eq_of_lt hi]
  refine eq_of_strict_perm (hentries ▸ initQueue_perm freq) (initQueue_strict freq) ?_
  exact List.pairwise_map.2 (List.pairwise_lt_range.imp fun {i j} hlt =>
    (before_iff ⟨1, i, _⟩ ⟨1, j, _⟩).2 (.inr ⟨rfl, hlt⟩))

theorem buildTree_of_ones : buildTree freq = some (perfect 8 fun i => .leaf (BitVec.ofNat 8 i)) := by
  obtain ⟨e, hrun, he⟩ := mergeLoop_perfect 8 0 (f := fun i => ⟨1, i, .leaf (BitVec.ofNat 8 i)⟩) (fun _ => rfl)
    one_pos
  simp only [Nat.reducePow] at hrun
  rw [buildTree, initQueue_of_ones h, merge, List.length_map, List.length_range, hrun]
  exact congrArg some he

end

/-- Settles O30: the path to the leaf of a value is the bits of the value. -/
theorem allValuesOnce : Obligations.AllValuesOnce := by
  intro s hp hn h
  have hcounted : ∀ b, entry s.freq b ≠ 0 := fun b => by simp [h]
  have ht := buildTree_of_ones h
  set t : Tree := perfect 8 fun i => .leaf (BitVec.ofNat 8 i)
  obtain ⟨t', ht', hi, hnodup, hmem, -⟩ := buildTree_spec ⟨0, hcounted 0⟩
  obtain rfl : t = t' := Option.some.inj (ht.symm.trans ht')
  obtain ⟨code, hc, -⟩ := deriveCodes_root hi
  have hleaves : (leaves t).length = 256 := by
    refine Nat.le_antisymm (length_le_of_nodup hnodup) ?_
    rw [← length_allBytes]
    exact (nodup_allBytes.subperm fun b _ => hmem b (hcounted b)).length_le
  refine ⟨_, exec_build hp (by simp [hn]) ⟨0, hcounted 0⟩ ht hc, rfl, fun b => ?codes, ?bits, ?bytes⟩
  case codes =>
    have hpath := follow_perfect (bits8 b) fun i => .leaf (BitVec.ofNat 8 i)
    rw [natOf_bits8, BitVec.ofNat_toNat, BitVec.setWidth_eq] at hpath
    exact (entry_deriveCodes_iff hi hnodup hc b _).2 hpath
  case bits =>
    have hser := length_ser t
    show (ser t).length = 2559
    omega
  case bytes => rw [emittedSince, List.drop_left, onChannel_map, length_treeArtifact, hleaves]

end Sys2Proof.Machine
end

section
/-!
# Loading a tree artifact (spec 43_tree_loader R145, R146, 30_encoding R84)

Settles O44 and O45. The bytes behind the header load a tree exactly when their bits are its serialization and less than
a byte of padding (`treeBytes`): then the last byte completes it, and in every other case some byte, or TEND, faults.
-/

namespace Sys2Proof.Machine

/-! ## Runs of LOADT commands -/

theorem loadts_append (as bs : List Byte) : loadts (as ++ bs) = loadts as ++ loadts bs := List.map_append

theorem ne_clear_of_mem_loadts {bs : List Byte} : ∀ i ∈ loadts bs, i ≠ .clear := by simp [loadts]

theorem ser_ne_nil (t : Tree) : ser t ≠ [] := by
  cases t <;> simp [ser]

/-- Bits with less than a byte behind them reach into the last byte. -/
theorem exists_last_byte {bs : List Byte} {x pad : Bits} (h : bitsOf bs = x ++ pad) (hx : x ≠ [])
    (hpad : pad.length < 8) :
    ∃ init b y, bs = init ++ [b] ∧ x = bitsOf init ++ y ∧ y ≠ [] ∧ bits8 b = y ++ pad := by
  obtain rfl | ⟨init, b, rfl⟩ := List.eq_nil_or_concat' bs
  · exact absurd (List.append_eq_nil_iff.1 h.symm).1 hx
  · have hlast : bitsOf [b] = bits8 b := List.append_nil _
    rw [bitsOf_append, hlast] at h
    obtain ⟨y, hy, hb⟩ | ⟨y, -, hy⟩ := List.append_eq_append_iff.1 h
    · refine ⟨init, b, y, rfl, hy, ?_, hb⟩
      rintro rfl
      rw [← List.nil_append pad, ← hb, length_bits8] at hpad
      omega
    · rw [hy, List.length_append, length_bits8] at hpad
      omega

/-- The run reads back a serialized tree: its last byte completes it (R145). -/
theorem sendAll_loadts_ser {s : State} {t : Tree} {bs : List Byte} {pad : Bits} (hp : s.phase = .dTree)
    (hh : 8 ≤ s.hcnt) (hstart : atTreeStart s) (ht : loadable t) (hbits : bitsOf bs = ser t ++ pad)
    (hpad : pad.length < 8) :
    sendAll (loadts bs) s = .next
      { s with nint := internals t, seen := markSeen (leaves t) s.seen, tree := t, treeOk := true } := by
  obtain ⟨init, b, y, rfl, hser, hy, hb⟩ := exists_last_byte hbits (ser_ne_nil t) hpad
  obtain ⟨hf, hopen⟩ := loadBits_prefix_of_ser hstart ht (by simp [hp]) hser.symm hy
  obtain ⟨hphase, hhcnt⟩ := loadBits_phase_hcnt hf
  calc sendAll (loadts (init ++ [b])) s
    _ = sendAll (loadts [b]) (loadBits (bitsOf init) s) := by
        rw [loadts_append, sendAll_append (sendAll_loadts_tree hp init hh hf hopen)]
    _ = .next (loadBits (bits8 b) (loadBits (bitsOf init) s)) :=
        (sendAll_singleton ..).trans (exec_loadt_tree (hphase.trans hp) (hhcnt ▸ hh) hopen b)
    _ = .next (loadBits (ser t ++ pad) s) := by
        rw [← loadBits_append hf, hb, hser, List.append_assoc]
    _ = _ := by rw [loadBits_ser_root hstart ht]

/-- The fault of a bad artifact (R146). -/
def corrupt (s : State) : Prop := s.phase = .fault ∧ s.err.kind = 4

/-- What a run of LOADT commands has done with the bits `xs` when none of them faulted: it has read them, but for less
than a byte behind a tree they complete. -/
structure LoadedBits (xs : Bits) (s u : State) : Prop where
  phase : u.phase = .dTree
  hcnt : u.hcnt = s.hcnt
  nsym : u.nsym = s.nsym
  ok : LoaderOk u
  read : ∃ zs ys, xs = zs ++ ys ∧ consumed u = consumed s ++ zs ∧ ys.length < 8

/-- R141: the three faults of a tree bit are CorruptStream. -/
theorem loadBits_fault {xs : Bits} {s : State} (hs : s.phase ≠ .fault) (hf : (loadBits xs s).phase = .fault) :
    corrupt (loadBits xs s) := by
  obtain ⟨u, hu, hrun | ⟨c, hrun, hc⟩⟩ := loadBits_frame xs s
  · rw [hrun, hu] at hf
    exact absurd hf hs
  · rw [hrun]
    exact ⟨rfl, by rcases hc with rfl | rfl | rfl <;> rfl⟩

/-- What one byte does that does not fault. -/
theorem loadBits_byte {b : Byte} {s : State} (hp : s.phase = .dTree) (ht : s.treeOk = false) (hok : LoaderOk s)
    (hf : (loadBits (bits8 b) s).phase ≠ .fault) :
    LoadedBits (bits8 b) s (loadBits (bits8 b) s) ∧
      ((loadBits (bits8 b) s).treeOk = false →
        consumed (loadBits (bits8 b) s) = consumed s ++ bits8 b) := by
  obtain ⟨-, -, -, hleaf⟩ := loaderFacts_iff.1 hok.facts
  obtain ⟨-, zs, ys, hxs, hread, hall, hsome⟩ :=
    loadBits_consumed (bits8 b) s (fun p hpl => (hleaf p hpl).2.1) (by simp [hp]) hf
  have hlen := congrArg List.length hxs
  have hpos := List.length_pos_iff.2 (hsome ht (by simp [bits8]))
  rw [length_bits8, List.length_append] at hlen
  obtain ⟨hphase, hhcnt⟩ := loadBits_phase_hcnt hf
  have hnsym : (loadBits (bits8 b) s).nsym = s.nsym := by
    obtain ⟨u, hu, hrun | ⟨c, hrun, -⟩⟩ := loadBits_frame (bits8 b) s
    · rw [hrun, hu]
    · rw [hrun, raise_nsym, hu]
  refine ⟨⟨hphase.trans hp, hhcnt, hnsym, hok.of_loadBits hf, zs, ys, hxs, hread, by omega⟩, fun hopen => ?_⟩
  rw [hread, hxs, hall hopen, List.append_nil]

/-- A run of LOADT commands behind the header faults, or reads its bits (R141, R146). -/
theorem sendAll_loadts_cases (bs : List Byte) {s : State} (hp : s.phase = .dTree) (hh : 8 ≤ s.hcnt)
    (ht : s.treeOk = false) (hok : LoaderOk s) :
    ∃ u, sendAll (loadts bs) s = .next u ∧ (corrupt u ∨ LoadedBits (bitsOf bs) s u) := by
  induction bs generalizing s with
  | nil => exact ⟨s, rfl, .inr ⟨hp, rfl, rfl, hok, [], [], rfl, (List.append_nil _).symm, by decide⟩⟩
  | cons b bs ih =>
    have hrun := exec_loadt_tree hp hh ht b
    have hstep := sendAll_cons hrun (loadts bs)
    by_cases hf : (loadBits (bits8 b) s).phase = .fault
    · exact ⟨_, hstep.trans (sendAll_fault hf ne_clear_of_mem_loadts), .inl (loadBits_fault (by simp [hp]) hf)⟩
    obtain ⟨hbyte, hall⟩ := loadBits_byte hp ht hok hf
    set u := loadBits (bits8 b) s
    have hhu : 8 ≤ u.hcnt := hbyte.hcnt ▸ hh
    cases htu : u.treeOk with
    | false =>
      obtain ⟨v, hv, hcor | hload⟩ := ih hbyte.phase hhu htu hbyte.ok
      · exact ⟨v, hstep.trans hv, .inl hcor⟩
      · obtain ⟨zs, ys, hxs, hread, hlen⟩ := hload.read
        refine ⟨v, hstep.trans hv, .inr ⟨hload.phase, hload.hcnt.trans hbyte.hcnt, hload.nsym.trans hbyte.nsym,
          hload.ok, bits8 b ++ zs, ys, ?_, ?_, hlen⟩⟩
        · rw [bitsOf_cons, hxs, List.append_assoc]
        · rw [hread, hall htu, List.append_assoc]
    | true =>
      cases bs with
      | nil =>
        have hlast : bitsOf [b] = bits8 b := List.append_nil _
        exact ⟨u, hstep, .inr (hlast ▸ hbyte)⟩
      | cons c cs =>
        have hextra := sendAll_cons (exec_loadt_trailing hbyte.phase hhu htu c) (loadts cs)
        exact ⟨_, hstep.trans (hextra.trans (sendAll_fault rfl ne_clear_of_mem_loadts)), .inl ⟨rfl, rfl⟩⟩

/-! ## The whole load (R145, R146) -/

/-- R84 (a), (b): the bytes of a tree artifact whose tree is `t`. -/
def treeBytes (bs : List Byte) (t : Tree) (pad : Bits) : Prop :=
  9 ≤ bs.length ∧ bitsOf (bs.drop 8) = ser t ++ pad ∧ pad.length < 8 ∧ loadable t

/-- The count in the header of an artifact. -/
def headerCount (bs : List Byte) : Count := (bs.take 8).foldl appendByte 0

/-- The state a load ends in that goes through. -/
def loadedState (n : Count) (t : Tree) (s : State) : State :=
  { s with
    phase := .dBits, nsym := n, rem := n, hcnt := 8, nint := internals t, seen := markSeen (leaves t) s.seen, tree := t,
    treeOk := true, pos := t }

section
variable {s : State} (hs : resetValues s)
include hs

/-- R140, R141: DSTART and the header. -/
theorem sendAll_dstart_header {bs : List Byte} (hlen : bs.length ≤ 8) :
    sendAll (.dstart :: loadts bs) s =
      .next { s with phase := .dTree, nsym := bs.foldl appendByte 0, hcnt := bs.length } := by
  obtain ⟨hp, -, -, hnsym, -, -, -, -, hhcnt, -⟩ := hs
  rw [sendAll_cons (exec_dstart_idle hp), sendAll_loadts_header rfl bs (by simpa [hhcnt] using hlen), hnsym, hhcnt,
    Nat.zero_add]

/-- The header and the bytes behind it. -/
theorem sendAll_load {bs : List Byte} (hlen : 8 ≤ bs.length) :
    sendAll (.dstart :: loadts bs ++ [.tend]) s = sendAll (loadts (bs.drop 8) ++ [.tend])
      { s with phase := .dTree, nsym := headerCount bs, hcnt := 8 } := by
  have htake : (bs.take 8).length = 8 := by simpa using hlen
  have hheader : sendAll (.dstart :: loadts (bs.take 8)) s =
      .next { s with phase := .dTree, nsym := headerCount bs, hcnt := 8 } := by
    rw [sendAll_dstart_header hs htake.le, htake]
    rfl
  have hsplit : .dstart :: loadts bs = (.dstart :: loadts (bs.take 8)) ++ loadts (bs.drop 8) := by
    rw [List.cons_append, ← loadts_append, List.take_append_drop]
  rw [hsplit, List.append_assoc, sendAll_append hheader]

/-- R145: the bytes of an artifact load its tree. -/
theorem load_of_treeBytes {bs : List Byte} {t : Tree} {pad : Bits} (h : treeBytes bs t pad) :
    sendAll (.dstart :: loadts bs ++ [.tend]) s = .next (loadedState (headerCount bs) t s) := by
  obtain ⟨hlen, hbits, hpad, ht⟩ := h
  have hstart : atTreeStart { s with phase := .dTree, nsym := headerCount bs, hcnt := 8 } :=
    atTreeStart_of_resetValues (s := s) hs
  rw [sendAll_load hs (by omega), sendAll_append (sendAll_loadts_ser rfl le_rfl hstart ht hbits hpad),
    sendAll_singleton]
  exact exec_tend rfl le_rfl rfl

/-- R146: bytes that are of no artifact end in FAULT. -/
theorem load_corrupt {bs : List Byte} (h : ∀ t pad, ¬ treeBytes bs t pad) :
    ∃ u, sendAll (.dstart :: loadts bs ++ [.tend]) s = .next u ∧ corrupt u := by
  by_cases hlen : bs.length < 8
  · rw [sendAll_append (sendAll_dstart_header hs hlen.le), sendAll_singleton]
    exact ⟨_, exec_tend_truncated rfl (.inl hlen), rfl, rfl⟩
  have hstart : atTreeStart { s with phase := .dTree, nsym := headerCount bs, hcnt := 8 } :=
    atTreeStart_of_resetValues (s := s) hs
  obtain ⟨u, hu, hcor | hload⟩ := sendAll_loadts_cases (bs.drop 8) rfl le_rfl hstart.1 hstart.loaderOk
  all_goals rw [sendAll_load hs (by omega), sendAll_append hu, sendAll_singleton]
  · exact ⟨u, exec_fault hcor.1 nofun, hcor⟩
  · obtain ⟨hopen, hst, hleaf, -⟩ := atTreeStart_of_resetValues hs
    obtain ⟨zs, ys, hxs, hread, hpad⟩ := hload.read
    have htree : u.treeOk = false := by
      by_contra hok
      have hdone := eq_true_of_ne_false hok
      have hser : ser u.tree = zs := by
        simpa [consumed, hdone, hopen, hst, hleaf, stackBits, leafBits] using hread
      have hlt := congrArg List.length hxs
      have hpos := List.length_pos_iff.2 (ser_ne_nil u.tree)
      rw [← hser, List.length_append, length_bitsOf, List.length_drop] at hlt
      exact h u.tree ys ⟨by omega, hser ▸ hxs, hpad, (hload.ok.closed hdone).2.2⟩
    exact ⟨_, exec_tend_truncated hload.phase (.inr htree), rfl, rfl⟩

end

/-- R80: the bytes of an artifact, read back. -/
theorem treeBytes_treeArtifact {t : Tree} (n : Count) (hi : isInternal t = true) (hn : (leaves t).Nodup) :
    (∃ pad, treeBytes (treeArtifact n t) t pad) ∧ headerCount (treeArtifact n t) = n := by
  have hle := length_le_of_nodup hn
  have hl := length_leaves t
  have hdrop : (treeArtifact n t).drop 8 = pack (ser t) := rfl
  refine ⟨⟨_, ?_, by rw [hdrop, bitsOf_pack]; rfl, ?_, hi, hn, by omega⟩, foldl_appendByte_be64 n⟩
  · rw [length_treeArtifact]
    omega
  · rw [List.length_replicate]
    omega

/-- Settles O44. -/
theorem loaderReadsBackTheArtifact : Obligations.LoaderReadsBackTheArtifact := by
  constructor
  case left =>
    intro freq h
    obtain ⟨t, ht, hi, hn, -⟩ := buildTree_spec h
    exact ⟨t, ht, hi, hn⟩
  case right =>
    intro n t s hs hi hn
    obtain ⟨⟨pad, hbytes⟩, hcount⟩ := treeBytes_treeArtifact n hi hn
    have hrun := load_of_treeBytes hs hbytes
    rw [hcount] at hrun
    exact ⟨_, hrun, rfl, rfl, rfl, rfl, rfl, rfl⟩

/-- Settles O45: the bytes are those of an artifact, or they are not. -/
theorem loaderAcceptsExactly : Obligations.LoaderAcceptsExactly := by
  intro bs s hs
  by_cases h : ∃ t pad, treeBytes bs t pad
  · obtain ⟨t, pad, hbytes⟩ := h
    have hrun := load_of_treeBytes hs hbytes
    obtain ⟨hlen, hbits, hpad, ht⟩ := hbytes
    exact ⟨_, hrun, .inl rfl, iff_of_true rfl ⟨hlen, t, pad, hbits, hpad, ht⟩, fun _ => ⟨rfl, pad, hbits, hpad⟩⟩
  · obtain ⟨u, hrun, hcor⟩ := load_corrupt hs (bs := bs) fun t pad hbytes => h ⟨t, pad, hbytes⟩
    have hne : u.phase ≠ .dBits := by simp [hcor.1]
    refine ⟨u, hrun, .inr hcor, iff_of_false hne ?_, fun hp => absurd hp hne⟩
    rintro ⟨hlen, t, pad, hbits, hpad, ht⟩
    exact h ⟨t, pad, hlen, hbits, hpad, ht⟩

end Sys2Proof.Machine
end

section
/-!
# A compress job (spec 42_bit_packer R132, 30_encoding R82)

Settles O38. A job whose second pass fits the first ends in a state that is written down (`compressedState`); a job that
ends in DONE has a second pass that fits, because FINISH and every ENC say so backwards.
-/

namespace Sys2Proof.Machine

/-! ## Runs, taken apart -/

theorem exec_of_sendAll_cons {i : Instr} {is : List Instr} {s t : State} (h : sendAll (i :: is) s = .next t) :
    ∃ u, exec i s = .next u ∧ sendAll is u = .next t := by
  cases hi : exec i s with
  | next u => exact ⟨u, rfl, (sendAll_cons hi is).symm.trans h⟩
  | fault f => simp [sendAll, hi] at h
  | refused r => simp [sendAll, hi] at h

/-- A run that has faulted stays in FAULT (R168). -/
theorem phase_of_sendAll_fault {is : List Instr} {s t : State} (hp : s.phase = .fault) (his : ∀ i ∈ is, i ≠ .clear)
    (h : sendAll is s = .next t) : t.phase = .fault := by
  rw [sendAll_fault hp his] at h
  cases h
  exact hp

theorem onChannel_append (ch : Channel) (a b : List Transfer) :
    onChannel ch (a ++ b) = onChannel ch a ++ onChannel ch b := List.filterMap_append

theorem onChannel_map_ne {ch ch' : Channel} (h : ch' ≠ ch) (bs : List Byte) :
    onChannel ch (bs.map (Transfer.mk ch')) = [] := by
  simp [onChannel, List.filterMap_map, h]

/-! ## Pass 1 (R102, R110) -/

/-- The counts of a string, as FREQ has them. -/
def countTable (ss : List Byte) : Table Count := addCounts State.reset.freq ss

theorem entry_countTable (ss : List Byte) (b : Byte) : entry (countTable ss) b = BitVec.ofNat 64 (ss.count b) := by
  simp [countTable, entry_addCounts, State.reset]

theorem ofNat_ne_zero_iff {k : Nat} (h : k < 2 ^ 64) : BitVec.ofNat 64 k ≠ 0 ↔ k ≠ 0 := by
  rw [not_iff_not, ← BitVec.toNat_inj, BitVec.toNat_ofNat, Nat.mod_eq_of_lt h]
  rfl

/-- A string shorter than 2^64 counts the values that occur in it. -/
theorem entry_countTable_ne_zero_iff {ss : List Byte} (hlen : ss.length < 2 ^ 64) (b : Byte) :
    entry (countTable ss) b ≠ 0 ↔ b ∈ ss := by
  rw [entry_countTable, ofNat_ne_zero_iff (List.count_le_length.trans_lt hlen), ← Nat.pos_iff_ne_zero,
    List.count_pos_iff]

/-- The state after pass 1. -/
def countedState (ss : List Byte) (s : State) : State :=
  { s with phase := .eCount, freq := countTable ss, nsym := BitVec.ofNat 64 ss.length }

theorem sendAll_pass1 {s : State} {ss : List Byte} (hs : resetValues s) (hlen : ss.length < 2 ^ 64) :
    sendAll (.estart :: counts ss) s = .next (countedState ss s) := by
  obtain ⟨hp, -, hfreq, hnsym, -⟩ := hs
  have hzero : s.freq = State.reset.freq := table_ext fun b => by simp [hfreq, State.reset]
  have hsum : s.nsym + BitVec.ofNat 64 ss.length = BitVec.ofNat 64 ss.length := by
    rw [hnsym]
    exact BitVec.zero_add _
  rw [sendAll_cons (exec_estart_idle hp), sendAll_counts rfl ss (by simpa [hnsym] using hlen)]
  show Host.Outcome.next { s with phase := .eCount, freq := addCounts s.freq ss, nsym := s.nsym + _ } = _
  rw [hzero, hsum]
  rfl

/-- The state after BUILD, from its tree and its codes. -/
def builtState (ss : List Byte) (t : Tree) (code : Table (Option Bits)) (s : State) : State :=
  { countedState ss s with
    tree := t, code := code, treeOk := true, rem := BitVec.ofNat 64 ss.length, phase := .eEncode,
    out := s.out ++ (treeArtifact (BitVec.ofNat 64 ss.length) t).map (Transfer.mk .tree) }

/-- A string that is not empty has a tree, with codes for the values that occur (R110). -/
theorem exists_countTree {ss : List Byte} (hlen : ss.length < 2 ^ 64) (hne : ss ≠ []) :
    ∃ t code, buildTree (countTable ss) = some t ∧ deriveCodes t [] noCodes = some code ∧ (leaves t).Nodup ∧
      ∀ b ∈ ss, entry code b ≠ none := by
  obtain ⟨b, hb⟩ := List.exists_mem_of_ne_nil ss hne
  obtain ⟨t, ht, hi, hn, hmem, -⟩ := buildTree_spec ⟨b, (entry_countTable_ne_zero_iff hlen b).2 hb⟩
  obtain ⟨code, hc, -, hleaves⟩ := deriveCodes_root hi
  exact ⟨t, code, ht, hc, hn, fun b hb => (hleaves b).2 (hmem b ((entry_countTable_ne_zero_iff hlen b).2 hb))⟩

theorem exec_build_counted {s : State} {ss : List Byte} {t : Tree} {code : Table (Option Bits)}
    (hlen : ss.length < 2 ^ 64) (hne : ss ≠ []) (ht : buildTree (countTable ss) = some t)
    (hc : deriveCodes t [] noCodes = some code) :
    exec .build (countedState ss s) = .next (builtState ss t code s) := by
  obtain ⟨b, hb⟩ := List.exists_mem_of_ne_nil ss hne
  have hn : BitVec.ofNat 64 ss.length ≠ 0 :=
    (ofNat_ne_zero_iff hlen).2 fun h => hne (List.length_eq_zero_iff.1 h)
  exact exec_build (s := countedState ss s) rfl hn ⟨b, (entry_countTable_ne_zero_iff hlen b).2 hb⟩ ht hc

/-! ## Pass 2 (R130, R131) -/

theorem exists_codesJoined {code : Table (Option Bits)} {es : List Byte} (h : ∀ e ∈ es, entry code e ≠ none) :
    ∃ p, codesJoined code es = some p := by
  induction es with
  | nil => exact ⟨[], rfl⟩
  | cons e es ih =>
    obtain ⟨he, hes⟩ := List.forall_mem_cons.1 h
    obtain ⟨c, hc⟩ := Option.ne_none_iff_exists'.1 he
    obtain ⟨p, hp⟩ := ih hes
    exact ⟨c ++ p, by simp [codesJoined, hc, hp]⟩

/-- R131: the flush packs what is pending. -/
theorem flushAcc_eq {s : State} (h : s.acc.length ≤ 7) :
    flushAcc s = { s with acc := [], out := s.out ++ (pack s.acc).map (Transfer.mk .bits) } := by
  by_cases hacc : s.acc = []
  · rw [flushAcc, if_pos hacc, hacc, pack_nil, List.map_nil, List.append_nil, ← hacc]
  · rw [flushAcc, if_neg hacc, pack_short hacc h]
    rfl

/-- R131: FINISH with no symbol left. -/
theorem exec_finish_pack {s : State} (hp : s.phase = .eEncode) (hr : s.rem = 0) (hacc : s.acc.length ≤ 7) :
    exec .finish s =
      .next { s with phase := .done, acc := [], out := s.out ++ (pack s.acc).map (Transfer.mk .bits) } := by
  rw [exec_finish hp hr, flushAcc_eq hacc]

theorem ne_clear_of_mem_pass2 {es : List Byte} : ∀ i ∈ encs es ++ [.finish], i ≠ .clear := by
  rintro i hi rfl
  simp [encs] at hi

/-- A second pass that uses up REM emits its codes, joined and packed (R132). -/
theorem sendAll_pass2 {s : State} {es : List Byte} {p : Bits} (hp : s.phase = .eEncode) (hacc : s.acc = [])
    (hlen : s.rem = BitVec.ofNat 64 es.length) (hlt : es.length < 2 ^ 64) (hfreq : ∀ e ∈ es, entry s.freq e ≠ 0)
    (hcodes : codesJoined s.code es = some p) :
    sendAll (encs es ++ [.finish]) s =
      .next { s with phase := .done, rem := 0, acc := [], out := s.out ++ (pack p).map (Transfer.mk .bits) } := by
  have hle : es.length ≤ s.rem.toNat := by rw [hlen, BitVec.toNat_ofNat, Nat.mod_eq_of_lt hlt]
  obtain ⟨bytes, acc, hrun, hbits, hshort⟩ := sendAll_encs hp hle hfreq hcodes (by simp [hacc])
  have hzero : s.rem - BitVec.ofNat 64 es.length = 0 := by rw [hlen, BitVec.sub_self]; rfl
  have hpack : pack p = bytes ++ pack acc := by
    rw [← pack_bitsOf_append, hbits, hacc, List.nil_append]
  rw [sendAll_append hrun, sendAll_singleton, hzero]
  refine Eq.trans (exec_finish_pack hp rfl hshort) ?_
  rw [hpack, List.map_append, List.append_assoc]

/-- A second pass that ends in DONE has used up REM, with counted values alone (R130, R131). -/
theorem fits_of_sendAll_pass2 {s t : State} {es : List Byte} (hp : s.phase = .eEncode)
    (h : sendAll (encs es ++ [.finish]) s = .next t) (ht : t.phase = .done) :
    es.length = s.rem.toNat ∧ ∀ e ∈ es, entry s.freq e ≠ 0 := by
  induction es generalizing s with
  | nil =>
    obtain ⟨-, hr, -⟩ := rem_of_exec_finish ((sendAll_singleton ..).symm.trans h) ht
    simp [hr]
  | cons e es ih =>
    have hcons : sendAll (.enc e :: (encs es ++ [.finish])) s = .next t := h
    obtain ⟨u, hu, hrest⟩ := exec_of_sendAll_cons hcons
    by_cases hf : u.phase = .fault
    · simp [phase_of_sendAll_fault hf ne_clear_of_mem_pass2 hrest] at ht
    rcases execEnc_cases hu with ⟨hs, -⟩ | ⟨-, hne, -⟩ | ⟨-, -, rfl⟩ | ⟨-, -, -, rfl⟩ |
      ⟨-, hr, he, _, _, _, -, rfl, -⟩
    · simp [hp] at hs
    · exact absurd hp hne
    · exact absurd rfl hf
    · exact absurd rfl hf
    · obtain ⟨hlen, hes⟩ := ih (by exact hp) hrest
      have hpred := count_pred hr
      have hpos := count_pos hr
      refine ⟨?_, List.forall_mem_cons.2 ⟨he, hes⟩⟩
      rw [List.length_cons, hlen, hpred]
      omega

/-! ## The job (R132) -/

/-- The commands of a job with the passes `ss` and `es`. -/
def jobOf (ss es : List Byte) : List Instr := .estart :: counts ss ++ .build :: encs es ++ [.finish]

/-- The second pass fits the first. -/
def passesFit (ss es : List Byte) : Prop := ss ≠ [] ∧ es.length = ss.length ∧ ∀ e ∈ es, e ∈ ss

/-- The state a job ends in that reports success, from the tree, the codes and the joined codes of pass 2. -/
def compressedState (ss : List Byte) (t : Tree) (code : Table (Option Bits)) (p : Bits) (s : State) : State :=
  { builtState ss t code s with
    phase := .done, rem := 0, acc := [],
    out := (builtState ss t code s).out ++ (pack p).map (Transfer.mk .bits) }

section
variable {s : State} (hs : resetValues s) {ss es : List Byte} (hlen : ss.length < 2 ^ 64)
include hs hlen

theorem sendAll_jobOf : sendAll (jobOf ss es) s = sendAll (.build :: (encs es ++ [.finish])) (countedState ss s) := by
  rw [jobOf, List.append_assoc, sendAll_append (sendAll_pass1 hs hlen)]
  rfl

/-- A job whose passes fit ends in the state written down. -/
theorem jobOf_of_fit (h : passesFit ss es) :
    ∃ t code p, buildTree (countTable ss) = some t ∧ deriveCodes t [] noCodes = some code ∧ (leaves t).Nodup ∧
      codesJoined code es = some p ∧ sendAll (jobOf ss es) s = .next (compressedState ss t code p s) := by
  obtain ⟨hne, hlength, hmem⟩ := h
  obtain ⟨t, code, ht, hc, hn, hcoded⟩ := exists_countTree hlen hne
  obtain ⟨p, hp⟩ := exists_codesJoined fun e he => hcoded e (hmem e he)
  have ⟨_, _, _, _, _, _, _, hacc, _⟩ := hs
  refine ⟨t, code, p, ht, hc, hn, hp, ?_⟩
  rw [sendAll_jobOf hs hlen, sendAll_cons (exec_build_counted hlen hne ht hc)]
  exact sendAll_pass2 rfl hacc (by rw [hlength]; rfl) (hlength ▸ hlen)
    (fun e he => (entry_countTable_ne_zero_iff hlen e).2 (hmem e he)) hp

/-- A job that ends in DONE has passes that fit. -/
theorem fit_of_jobOf {t : State} (h : sendAll (jobOf ss es) s = .next t) (ht : t.phase = .done) : passesFit ss es := by
  rw [sendAll_jobOf hs hlen] at h
  obtain ⟨u, hu, hrest⟩ := exec_of_sendAll_cons h
  by_cases hne : ss = []
  · subst hne
    rw [exec_build_empty (s := countedState [] s) rfl rfl] at hu
    cases hu
    simp [phase_of_sendAll_fault rfl ne_clear_of_mem_pass2 hrest] at ht
  · obtain ⟨tree, code, htree, hc, -⟩ := exists_countTree hlen hne
    rw [exec_build_counted hlen hne htree hc] at hu
    cases hu
    obtain ⟨hlength, hfreq⟩ := fits_of_sendAll_pass2 rfl hrest ht
    have hrem : (BitVec.ofNat 64 ss.length).toNat = ss.length := by rw [BitVec.toNat_ofNat, Nat.mod_eq_of_lt hlen]
    exact ⟨hne, hlength.trans hrem, fun e he => (entry_countTable_ne_zero_iff hlen e).1 (hfreq e he)⟩

end

/-- What a job has emitted on each channel (R132). -/
theorem emittedSince_compressedState (ss : List Byte) (t : Tree) (code : Table (Option Bits)) (p : Bits) (s : State) :
    onChannel .tree (emittedSince s (compressedState ss t code p s)) = treeArtifact (BitVec.ofNat 64 ss.length) t ∧
      onChannel .bits (emittedSince s (compressedState ss t code p s)) = pack p := by
  have hout : emittedSince s (compressedState ss t code p s) =
      (treeArtifact (BitVec.ofNat 64 ss.length) t).map (Transfer.mk .tree) ++ (pack p).map (Transfer.mk .bits) := by
    simp [emittedSince, compressedState, builtState]
  rw [hout, onChannel_append, onChannel_append, onChannel_map, onChannel_map, onChannel_map_ne (by decide),
    onChannel_map_ne (by decide), List.append_nil, List.nil_append]
  exact ⟨rfl, rfl⟩

/-- Settles O38. -/
theorem compressJobOutput : Obligations.CompressJobOutput := by
  intro ss es s hs hlen
  refine ⟨⟨fun ⟨t, h, ht⟩ => fit_of_jobOf hs hlen h ht, fun h => ?done⟩, fun t h ht => ?output⟩
  case done =>
    obtain ⟨_, _, _, -, -, -, -, hrun⟩ := jobOf_of_fit hs hlen h
    exact ⟨_, hrun, rfl⟩
  case output =>
    obtain ⟨tree, code, p, htree, -, -, hp, hrun⟩ := jobOf_of_fit hs hlen (fit_of_jobOf hs hlen h ht)
    obtain rfl : t = compressedState ss tree code p s := by
      have heq := h.symm.trans hrun
      injection heq
    obtain ⟨htreeOut, hbits⟩ := emittedSince_compressedState ss tree code p s
    exact ⟨p, hp, hbits, htreeOut, by rw [hbits, length_pack], htree, entry_countTable ss⟩

end Sys2Proof.Machine
end

section
/-!
# Decompressing (spec 44_bit_unpacker R155 to R158, 30_encoding R84)

Settles O50 and O51. A walk is told by the bits it has read: the joined paths of the values it has emitted, and the
bits of an unfinished path. It ends in DONE exactly when the bits are the codes of as many values as the count says and
less than a byte of padding; the output of a compress job is of that form.
-/

namespace Sys2Proof.Machine

/-! ## Joined paths (R82) -/

/-- The bits are the paths of the leaves `vs`, joined. -/
inductive JoinedPaths (t : Tree) : List Byte → Bits → Prop
  | nil : JoinedPaths t [] []
  | cons {v : Byte} {vs : List Byte} {p q : Bits} (hp : follow t p = some (.leaf v)) (hq : JoinedPaths t vs q) :
      JoinedPaths t (v :: vs) (p ++ q)

theorem JoinedPaths.append {t : Tree} {vs ws : List Byte} {p q : Bits} (hp : JoinedPaths t vs p)
    (hq : JoinedPaths t ws q) : JoinedPaths t (vs ++ ws) (p ++ q) := by
  induction hp with
  | nil => exact hq
  | cons hv _ ih =>
    rw [List.append_assoc]
    exact .cons hv ih

/-- R82, R116: joined codes are joined paths. -/
theorem codesJoined_eq_some_iff {t : Tree} {code : Table (Option Bits)} (hn : (leaves t).Nodup)
    (hc : deriveCodes t [] noCodes = some code) {vs : List Byte} {p : Bits} :
    codesJoined code vs = some p ↔ JoinedPaths t vs p := by
  have hentry := entry_deriveCodes_iff (isInternal_of_deriveCodes hc) hn hc
  induction vs generalizing p with
  | nil =>
    constructor
    · rintro ⟨⟩
      exact .nil
    · rintro ⟨⟩
      rfl
  | cons v vs ih =>
    constructor
    · intro h
      obtain ⟨c, hcode, q, hq, rfl⟩ : ∃ c, entry code v = some c ∧ ∃ q, codesJoined code vs = some q ∧ c ++ q = p := by
        simpa [codesJoined, Option.bind_eq_some_iff] using h
      exact .cons ((hentry v c).1 hcode) (ih.1 hq)
    · rintro (_ | ⟨hv, hq⟩)
      simp [codesJoined, (hentry v _).2 hv, ih.2 hq]

/-! ## What a walk has read (R155) -/

/-- Where a walk in `t` stands: behind the bits `q` of an unfinished path, and at the root when no symbol is left. -/
structure WalkAt (t : Tree) (q : Bits) (s : State) : Prop where
  phase : s.phase = .dBits
  tree : s.tree = t
  root : isInternal t = true
  pos : follow t q = some s.pos
  inner : isInternal s.pos = true
  done : s.rem = 0 → q = []

/-- A walk from `s`, behind the bits `q`, has read `zs` and emitted `vs`. -/
structure WalkRead (t : Tree) (q zs : Bits) (vs : List Byte) (q' : Bits) (s u : State) : Prop where
  stands : WalkAt t q' u
  bits : ∃ p, JoinedPaths t vs p ∧ q ++ zs = p ++ q'
  out : u.out = s.out ++ vs.map (Transfer.mk .data)
  rem : u.rem.toNat + vs.length = s.rem.toNat

namespace WalkRead

variable {t : Tree} {q q' q'' zs zs' : Bits} {vs vs' : List Byte} {s u w : State}

theorem refl (h : WalkAt t q s) : WalkRead t q [] [] q s s :=
  ⟨h, ⟨[], .nil, by simp⟩, by simp, rfl⟩

theorem trans (h : WalkRead t q zs vs q' s u) (h' : WalkRead t q' zs' vs' q'' u w) :
    WalkRead t q (zs ++ zs') (vs ++ vs') q'' s w := by
  obtain ⟨p, hp, hbits⟩ := h.bits
  obtain ⟨p', hp', hbits'⟩ := h'.bits
  refine ⟨h'.stands, ⟨p ++ p', hp.append hp', ?_⟩, by rw [h'.out, h.out, List.map_append, List.append_assoc], ?_⟩
  · rw [← List.append_assoc, hbits, List.append_assoc, hbits', List.append_assoc]
  · have hrem := h.rem
    have hrem' := h'.rem
    rw [List.length_append]
    omega

end WalkRead

/-- One bit: the walk goes to an inner node, or it emits a leaf and is at the root. -/
theorem walk_bit {t : Tree} {q : Bits} {s : State} (h : WalkAt t q s) (hr : s.rem ≠ 0) (x : Bool) :
    ∃ n vs q', child s.pos x = some n ∧ WalkRead t q [x] vs q' s (arrive n s) := by
  obtain ⟨n, hn⟩ := child_internal h.inner x
  have hpath : follow t (q ++ [x]) = some n := by simp [follow_append, h.pos, follow, hn]
  obtain ⟨v, rfl, hrun⟩ | ⟨hi, hrun⟩ := arrive_cases n s
  · refine ⟨_, [v], [], hn, ?_⟩
    rw [hrun]
    have hpred := count_pred hr
    have hpos := count_pos hr
    refine ⟨⟨h.phase, h.tree, h.root, congrArg some h.tree.symm, h.tree ▸ h.root, fun _ => rfl⟩,
      ⟨q ++ [x] ++ [], .cons hpath .nil, by simp⟩, rfl, ?_⟩
    rw [hpred, List.length_singleton]
    omega
  · refine ⟨n, [], q ++ [x], hn, ?_⟩
    rw [hrun]
    exact ⟨⟨h.phase, h.tree, h.root, hpath, hi, fun h0 => absurd h0 hr⟩, ⟨[], .nil, rfl⟩, by simp, rfl⟩

/-- The loop reads a first piece of its bits: all of them unless REM runs out, and at least one if REM is not 0. -/
theorem walkBits_read (xs : Bits) {t : Tree} {q : Bits} {s : State} (h : WalkAt t q s) :
    ∃ zs ys vs q', xs = zs ++ ys ∧ WalkRead t q zs vs q' s (walkBits xs s) ∧
      ((walkBits xs s).rem ≠ 0 → ys = []) ∧ (s.rem ≠ 0 → xs ≠ [] → zs ≠ []) := by
  induction xs generalizing q s with
  | nil => exact ⟨[], [], [], q, rfl, .refl h, fun _ => rfl, fun _ hne => absurd rfl hne⟩
  | cons x xs ih =>
    by_cases hr : s.rem = 0
    · rw [walkBits_stop hr]
      exact ⟨[], x :: xs, [], q, rfl, .refl h, fun hne => absurd hr hne, fun hne => absurd hr hne⟩
    · obtain ⟨n, vs, q', hn, hbit⟩ := walk_bit h hr x
      rw [walkBits_cons hr hn]
      obtain ⟨zs, ys, vs', q'', rfl, hread, hall, -⟩ := ih hbit.stands
      exact ⟨x :: zs, ys, vs ++ vs', q'', rfl, hbit.trans hread, hall, fun _ _ => by simp⟩

theorem WalkAt.ne_fault {t : Tree} {q : Bits} {s : State} (h : WalkAt t q s) : s.phase ≠ .fault := by
  simp [h.phase]

/-! ## Runs of PUSHB commands -/

theorem ne_clear_of_mem_pushbs {bs : List Byte} : ∀ i ∈ pushbs bs, i ≠ .clear := by simp [pushbs]

/-- A run of PUSHB commands faults, or reads its bits, but for less than a byte behind the last symbol. -/
theorem sendAll_pushbs_cases (bs : List Byte) {t : Tree} {q : Bits} {s : State} (h : WalkAt t q s) :
    ∃ u, sendAll (pushbs bs) s = .next u ∧
      (u.phase = .fault ∨ ∃ zs ys vs q', bitsOf bs = zs ++ ys ∧ ys.length < 8 ∧ WalkRead t q zs vs q' s u) := by
  induction bs generalizing q s with
  | nil => exact ⟨s, rfl, .inr ⟨[], [], [], q, rfl, by decide, .refl h⟩⟩
  | cons b bs ih =>
    by_cases hr : s.rem = 0
    · have hextra := sendAll_cons (exec_pushb_extra h.phase hr b) (pushbs bs)
      exact ⟨_, hextra.trans (sendAll_fault rfl ne_clear_of_mem_pushbs), .inl rfl⟩
    have hstep := sendAll_cons (exec_pushb h.phase hr b) (pushbs bs)
    obtain ⟨zs, ys, vs, q', hxs, hread, hall, hsome⟩ := walkBits_read (bits8 b) h
    have hlen := congrArg List.length hxs
    have hpos := List.length_pos_iff.2 (hsome hr (by simp [bits8]))
    rw [length_bits8, List.length_append] at hlen
    by_cases hr' : (walkBits (bits8 b) s).rem = 0
    · cases bs with
      | nil => exact ⟨_, hstep, .inr ⟨zs, ys, vs, q', (List.append_nil _).trans hxs, by omega, hread⟩⟩
      | cons c cs =>
        have hextra := sendAll_cons (exec_pushb_extra hread.stands.phase hr' c) (pushbs cs)
        exact ⟨_, hstep.trans (hextra.trans (sendAll_fault rfl ne_clear_of_mem_pushbs)), .inl rfl⟩
    · obtain ⟨u, hu, hf | ⟨zs', ys', vs', q'', hxs', hlen', hread'⟩⟩ := ih hread.stands
      · exact ⟨u, hstep.trans hu, .inl hf⟩
      · refine ⟨u, hstep.trans hu, .inr ⟨zs ++ zs', ys', vs ++ vs', q'', ?_, hlen', hread.trans hread'⟩⟩
        rw [bitsOf_cons, hxs, hall hr', hxs', List.append_nil, List.append_assoc]

/-- A run of PUSHB commands that leaves symbols to come is one walk over its bits. -/
theorem sendAll_pushbs_walk (bs : List Byte) {t : Tree} {q : Bits} {s : State} (h : WalkAt t q s)
    (hr : (walkBits (bitsOf bs) s).rem ≠ 0) : sendAll (pushbs bs) s = .next (walkBits (bitsOf bs) s) := by
  induction bs generalizing q s with
  | nil => rfl
  | cons b bs ih =>
    have hs : s.rem ≠ 0 := fun h0 => hr (by rw [walkBits_stop h0, h0])
    obtain ⟨_, _, _, q', -, hread, -⟩ := walkBits_read (bits8 b) h
    rw [bitsOf_cons, walkBits_append hread.stands.ne_fault] at hr ⊢
    exact (sendAll_cons (exec_pushb h.phase hs b) _).trans (ih hread.stands hr)

/-! ## Bits that are codes (R158) -/

section
variable {t : Tree} {vs : List Byte} {p : Bits} {s : State}

theorem WalkAt.pos_eq (h : WalkAt t [] s) : s.pos = t := (Option.some.inj h.pos).symm

/-- The state after the path of a leaf, walked from the root. -/
theorem WalkAt.leaf (h : WalkAt t [] s) (v : Byte) :
    WalkAt t [] { s with out := s.out ++ [⟨.data, v⟩], rem := s.rem - 1, pos := s.tree } :=
  ⟨h.phase, h.tree, h.root, congrArg some h.tree.symm, h.tree ▸ h.root, fun _ => rfl⟩

/-- From the root, joined paths that REM has room for are read as the bytes of their leaves. -/
theorem walkBits_joined (h : WalkAt t [] s) (hj : JoinedPaths t vs p) (hlen : vs.length ≤ s.rem.toNat) (xs : Bits) :
    walkBits (p ++ xs) s = walkBits xs
      { s with out := s.out ++ vs.map (Transfer.mk .data), rem := s.rem - BitVec.ofNat 64 vs.length } := by
  obtain ⟨ps, hps, rfl⟩ : ∃ ps, List.Forall₂ (fun p v => follow t p = some (.leaf v)) ps vs ∧ ps.flatten = p := by
    clear hlen
    induction hj with
    | nil => exact ⟨[], .nil, rfl⟩
    | @cons v vs p q hv _ ih =>
      obtain ⟨ps, hps, rfl⟩ := ih
      exact ⟨p :: ps, .cons hv hps, rfl⟩
  exact walkBits_paths h.root h.tree h.pos_eq hlen hps xs

/-- Before the last bit of joined paths that REM has room for, symbols are left to come. -/
theorem rem_ne_zero_of_prefix (h : WalkAt t [] s) (hj : JoinedPaths t vs p) (hlen : vs.length ≤ s.rem.toNat)
    {x y : Bits} (hp : p = x ++ y) (hy : y ≠ []) : (walkBits x s).rem ≠ 0 := by
  induction hj generalizing s x with
  | nil => exact absurd (List.append_eq_nil_iff.1 hp.symm).2 hy
  | @cons v vs c q hc _ ih =>
    rw [List.length_cons] at hlen
    have hr : s.rem ≠ 0 := fun h0 => by simp [h0] at hlen
    have hpred := count_pred hr
    have hpath : follow s.pos c = some (.leaf v) := by rwa [h.pos_eq]
    have hbehind : ∀ a, q = a ++ y → (walkBits (c ++ a) s).rem ≠ 0 := by
      intro a hq
      rw [walkBits_path hr (path_ne_nil h.root hc) hpath]
      exact ih (h.leaf v) (by show vs.length ≤ (s.rem - 1).toNat; omega) hq
    obtain ⟨a, rfl, hq⟩ | ⟨a, rfl, hya⟩ := List.append_eq_append_iff.1 hp
    · exact hbehind a hq
    · by_cases ha : a = []
      · subst ha
        simpa using hbehind [] hya.symm
      · obtain ⟨pos', hrun⟩ := walkBits_part ha hpath
        rw [hrun]
        exact hr

/-- R84 (c): the bytes hold the codes in `t` of the `n` values `vs`. -/
def bitsBytes (bs : List Byte) (n : Count) (t : Tree) (vs : List Byte) : Prop :=
  vs.length = n.toNat ∧ ∃ p rest, JoinedPaths t vs p ∧ bitsOf bs = p ++ rest ∧ rest.length < 8

theorem bitsOf_eq_nil {bs : List Byte} (h : (bitsOf bs).length < 8) : bs = [] := by
  rw [length_bitsOf] at h
  exact List.length_eq_zero_iff.1 (by omega)

/-- Such bytes are read to their last bit, and emit the values. -/
theorem sendAll_pushbs_of_bitsBytes {bs : List Byte} (h : WalkAt t [] s) (hb : bitsBytes bs s.rem t vs) :
    sendAll (pushbs bs) s = .next { s with out := s.out ++ vs.map (Transfer.mk .data), rem := 0 } := by
  obtain ⟨hlen, p, rest, hj, hbits, hrest⟩ := hb
  have hzero : s.rem - BitVec.ofNat 64 vs.length = 0 := by
    rw [hlen, BitVec.ofNat_toNat, BitVec.setWidth_eq]
    exact BitVec.sub_self _
  by_cases hp : p = []
  · subst hp
    obtain rfl : bs = [] := bitsOf_eq_nil (by rw [hbits, List.nil_append]; exact hrest)
    have hwalk := walkBits_joined h hj hlen.le []
    rw [hzero] at hwalk
    exact congrArg _ hwalk
  · obtain ⟨init, b, y, rfl, hsplit, hy, hlast⟩ := exists_last_byte hbits hp hrest
    have hr := rem_ne_zero_of_prefix h hj hlen.le hsplit hy
    obtain ⟨_, _, _, q', -, hread, -⟩ := walkBits_read (bitsOf init) h
    have hinit := sendAll_pushbs_walk init h hr
    calc sendAll (pushbs (init ++ [b])) s
      _ = sendAll (pushbs [b]) (walkBits (bitsOf init) s) := by
          rw [pushbs, List.map_append]
          exact sendAll_append hinit
      _ = .next (walkBits (bits8 b) (walkBits (bitsOf init) s)) :=
          (sendAll_singleton ..).trans (exec_pushb hread.stands.phase hr b)
      _ = .next (walkBits (p ++ rest) s) := by
          rw [← walkBits_append hread.stands.ne_fault, hlast, hsplit, List.append_assoc]
      _ = _ := by rw [walkBits_joined h hj hlen.le, hzero, walkBits_stop rfl]

/-- Other bytes end in FAULT, with DEND if not before. -/
theorem sendAll_pushbs_dend_fault {bs : List Byte} (h : WalkAt t [] s) (hb : ∀ vs, ¬ bitsBytes bs s.rem t vs) :
    ∃ u, sendAll (pushbs bs ++ [.dend]) s = .next u ∧ u.phase = .fault := by
  obtain ⟨u, hu, hf | ⟨zs, ys, vs, q, hbits, hlen, hread⟩⟩ := sendAll_pushbs_cases bs h
  all_goals rw [sendAll_append hu, sendAll_singleton]
  · exact ⟨u, exec_fault hf nofun, hf⟩
  · have hr : u.rem ≠ 0 := by
      intro h0
      obtain ⟨p, hj, hzs⟩ := hread.bits
      have hcount := hread.rem
      rw [hread.stands.done h0, List.nil_append, List.append_nil] at hzs
      exact hb vs ⟨by simpa [h0] using hcount, p, ys, hj, hzs ▸ hbits, hlen⟩
    exact ⟨_, exec_dend_truncated hread.stands.phase hr, rfl⟩

end

/-! ## The job (R84) -/

/-- The state a job ends in that reports success. -/
def decompressedState (n : Count) (t : Tree) (vs : List Byte) (s : State) : State :=
  { loadedState n t s with phase := .done, rem := 0, out := s.out ++ vs.map (Transfer.mk .data) }

theorem emittedSince_decompressedState (n : Count) (t : Tree) (vs : List Byte) (s : State) :
    onChannel .data (emittedSince s (decompressedState n t vs s)) = vs := by
  have hout : emittedSince s (decompressedState n t vs s) = vs.map (Transfer.mk .data) := List.drop_left
  rw [hout, onChannel_map]

theorem walkAt_loadedState {bs : List Byte} {t : Tree} {pad : Bits} (h : treeBytes bs t pad) (n : Count) (s : State) :
    WalkAt t [] (loadedState n t s) := by
  obtain ⟨-, -, -, hi, -⟩ := h
  exact ⟨rfl, rfl, hi, rfl, hi, fun _ => rfl⟩

theorem decompress_eq (tr bs : List Byte) :
    decompress tr bs = (.dstart :: loadts tr ++ [.tend]) ++ (pushbs bs ++ [.dend]) := by
  simp [decompress]

section
variable {s : State} (hs : resetValues s) {tr bs : List Byte}
include hs

/-- R84: a well-formed pair decompresses. -/
theorem decompress_of_pair {t : Tree} {pad : Bits} {vs : List Byte} (ht : treeBytes tr t pad)
    (hb : bitsBytes bs (headerCount tr) t vs) :
    sendAll (decompress tr bs) s = .next (decompressedState (headerCount tr) t vs s) := by
  have hwalk := walkAt_loadedState ht (headerCount tr) s
  rw [decompress_eq, sendAll_append (load_of_treeBytes hs ht), sendAll_append (sendAll_pushbs_of_bitsBytes hwalk hb),
    sendAll_singleton]
  exact exec_dend rfl rfl

/-- R84: any other pair ends in FAULT. -/
theorem decompress_fault (h : ∀ t pad vs, treeBytes tr t pad → ¬ bitsBytes bs (headerCount tr) t vs) :
    ∃ u, sendAll (decompress tr bs) s = .next u ∧ u.phase = .fault := by
  rw [decompress_eq]
  by_cases ht : ∃ t pad, treeBytes tr t pad
  · obtain ⟨t, pad, ht⟩ := ht
    rw [sendAll_append (load_of_treeBytes hs ht)]
    exact sendAll_pushbs_dend_fault (walkAt_loadedState ht _ s) fun vs => h t pad vs ht
  · obtain ⟨u, hu, hf, -⟩ := load_corrupt hs fun t pad htr => ht ⟨t, pad, htr⟩
    have hclear : ∀ i ∈ pushbs bs ++ [.dend], i ≠ .clear := by
      rintro i hi rfl
      simp [pushbs] at hi
    rw [sendAll_append hu]
    exact ⟨u, sendAll_fault hf hclear, hf⟩

end

/-- Settles O51: the pair is well formed, or it is not. -/
theorem wellFormedPairs : Obligations.WellFormedPairs := by
  intro tr bs s hs
  by_cases h : ∃ t pad vs, treeBytes tr t pad ∧ bitsBytes bs (headerCount tr) t vs
  · obtain ⟨t, pad, vs, ht, hb⟩ := h
    have hrun := decompress_of_pair hs ht hb
    obtain ⟨hlen, htree, hpad, hload⟩ := ht
    obtain ⟨hcount, p, rest, hj, hbits, hrest⟩ := hb
    obtain ⟨code, hc, -⟩ := deriveCodes_root hload.1
    have hcodes := (codesJoined_eq_some_iff hload.2.1 hc).2 hj
    refine ⟨_, hrun, iff_of_true rfl ⟨hlen, t, pad, code, vs, p, rest, htree, hpad, hload, hc, hcount, hcodes, hbits,
      hrest⟩, fun _ => ⟨t, pad, code, p, rest, htree, hload, hc, ?_, hbits, ?_⟩⟩
    · rwa [emittedSince_decompressedState]
    · rwa [emittedSince_decompressedState]
  · obtain ⟨u, hrun, hf⟩ := decompress_fault hs fun t pad vs ht hb => h ⟨t, pad, vs, ht, hb⟩
    have hne : u.phase ≠ .done := by simp [hf]
    refine ⟨u, hrun, iff_of_false hne ?_, fun hd => absurd hd hne⟩
    rintro ⟨hlen, t, pad, code, vs, p, rest, htree, hpad, hload, hc, hcount, hcodes, hbits, hrest⟩
    exact h ⟨t, pad, vs, ⟨hlen, htree, hpad, hload⟩, hcount, p, rest,
      (codesJoined_eq_some_iff hload.2.1 hc).1 hcodes, hbits, hrest⟩

/-! ## Round trip (R158) -/

/-- R110: an empty job ends with BUILD. -/
theorem sendAll_compress_nil {s : State} (hs : resetValues s) :
    ∃ t, sendAll (compress []) s = .next t ∧ t.phase = .fault ∧ t.err = errOf .empty ∧ t.out = s.out := by
  have hpass := sendAll_jobOf hs (ss := []) (es := []) (by decide)
  have hbuild := exec_build_empty (s := countedState [] s) rfl rfl
  exact ⟨raise .empty (countedState [] s),
    hpass.trans ((sendAll_cons hbuild _).trans (sendAll_fault rfl ne_clear_of_mem_pass2)), rfl, rfl, rfl⟩

/-- R132, R84: the two artifacts of a compress job are a well-formed pair. -/
theorem bitsBytes_pack {t : Tree} {vs : List Byte} {p : Bits} {n : Count} (hlen : vs.length = n.toNat)
    (hj : JoinedPaths t vs p) : bitsBytes (pack p) n t vs := by
  refine ⟨hlen, p, _, hj, bitsOf_pack p, ?_⟩
  rw [List.length_replicate]
  omega

/-- Settles O50. -/
theorem roundTrip : Obligations.RoundTrip := by
  refine ⟨fun s hs => sendAll_compress_nil hs, fun bs s hs hne hlen => ?_⟩
  obtain ⟨t, code, p, -, hc, hn, hp, hrun⟩ := jobOf_of_fit hs hlen ⟨hne, rfl, fun _ he => he⟩
  obtain ⟨htree, hbits⟩ := emittedSince_compressedState bs t code p s
  obtain ⟨⟨pad, htr⟩, hcount⟩ := treeBytes_treeArtifact (BitVec.ofNat 64 bs.length) (isInternal_of_deriveCodes hc) hn
  have hn' : bs.length = (BitVec.ofNat 64 bs.length).toNat := by rw [BitVec.toNat_ofNat, Nat.mod_eq_of_lt hlen]
  have hb := bitsBytes_pack hn' ((codesJoined_eq_some_iff hn hc).1 hp)
  have hback := decompress_of_pair (resetValues_clearBlock (compressedState bs t code p s)) htr (hcount ▸ hb)
  refine ⟨compressedState bs t code p s,
    decompressedState (headerCount (treeArtifact (BitVec.ofNat 64 bs.length) t)) t bs
      (clearBlock (compressedState bs t code p s)), hrun, rfl, ?_, rfl, ?_⟩
  · rw [htree, hbits]
    exact hback
  · exact emittedSince_decompressedState _ t bs (clearBlock (compressedState bs t code p s))

end Sys2Proof.Machine
end
